-- ==== Sys2Proof/Word.lean ====
section
/-!
DEFINITION. The word types of the RTC register codec and the two readings of a word the spec names (00_scope.md R6, R7).
-/
namespace Sys2Proof

/-- A byte of the peripheral's register space (00_scope.md R6, `REG_WIDTH`). -/
abbrev Byte := BitVec 8

/-- A u32: ARG and RES contents and command words (00_scope.md R6, `XLEN`). -/
abbrev Word := BitVec 32

/-- `s32(v)`: a u32 read as a two's-complement integer (00_scope.md R7). -/
def s32 (v : Word) : Int := v.toInt

/-- `u32(i)`: the u32 whose two's-complement reading is `i` (00_scope.md R7). -/
def u32 (i : Int) : Word := BitVec.ofInt 32 i

/-- `zext_32(b)` of a byte (00_scope.md R7). -/
def zext32 (b : Byte) : Word := b.setWidth 32

end Sys2Proof
end

