-- ==== Sys2Proof/Syntax.lean ====
section
/-!
DEFINITION. The 38 commands of the opcode map (30_encoding.md R85), one constructor for each row of spec/opcode_table.json.
-/
namespace Sys2Proof

/-- A decoded command. Register indices are 0..7 by type (R81); `imm` is checked by `Instr.wellFormed` (R83, R88). -/
inductive Instr where
  /-- 46_operand.md R240 -/
  | nop
  /-- 46_operand.md R241: `LDI a<n>, imm` -/
  | ldi (a : Fin 8) (imm : Nat)
  /-- 46_operand.md R242: `LDHI a<n>, imm` -/
  | ldhi (a : Fin 8) (imm : Nat)
  /-- 46_operand.md R243: `MOV a<n>, r<m>` -/
  | mov (a : Fin 8) (r : Fin 8)
  /-- 40_bcd.md R105 -/
  | bcdEnc
  /-- 40_bcd.md R106 -/
  | bcdDec
  /-- 41_datetime.md R125 -/
  | dtValidate
  /-- 41_datetime.md R126 -/
  | dtEncode
  /-- 41_datetime.md R127 -/
  | dtDecode
  /-- 41_datetime.md R128 -/
  | timeDecode
  /-- 41_datetime.md R130 -/
  | setDatetime
  /-- 41_datetime.md R131 -/
  | getDatetime
  /-- 41_datetime.md R132 -/
  | getTime
  /-- 41_datetime.md R133 -/
  | setTime
  /-- 42_epoch.md R153 -/
  | isLeap
  /-- 42_epoch.md R154 -/
  | daysInMonth
  /-- 42_epoch.md R155 -/
  | daysBeforeMonth
  /-- 42_epoch.md R156 -/
  | daysBeforeYear
  /-- 42_epoch.md R157 -/
  | toEpoch
  /-- 42_epoch.md R158 -/
  | fromEpoch
  /-- 43_alarm.md R177 -/
  | alarm1Encode
  /-- 43_alarm.md R178 -/
  | alarm2Encode
  /-- 43_alarm.md R180 -/
  | setAlarm1
  /-- 43_alarm.md R181 -/
  | setAlarm2
  /-- 43_alarm.md R182 -/
  | alarmIntEnable
  /-- 43_alarm.md R183 -/
  | getAlarmFlag
  /-- 43_alarm.md R184 -/
  | clearAlarmFlag
  /-- 44_control.md R201 -/
  | setOscEnable
  /-- 44_control.md R203 -/
  | setSquareWave
  /-- 44_control.md R204 -/
  | set32khz
  /-- 44_control.md R206 -/
  | startConv
  /-- 44_control.md R207 -/
  | getOsf
  /-- 45_temp_aging.md R223 -/
  | agingEnc
  /-- 45_temp_aging.md R224 -/
  | agingDec
  /-- 45_temp_aging.md R225 -/
  | tempDecode
  /-- 45_temp_aging.md R226 -/
  | setAging
  /-- 45_temp_aging.md R227 -/
  | getAging
  /-- 45_temp_aging.md R228 -/
  | getTemp
  deriving DecidableEq, Repr

/-- The three command formats (30_encoding.md R82). -/
inductive Format where
  | z
  | i
  | m
  deriving DecidableEq, Repr

end Sys2Proof
end

