-- ==== Sys2Proof/WellFormed.lean ====
section
/-!
DEFINITION. Which `Instr` terms a command word can spell: an immediate is a u16 (30_encoding.md R83, R88). Register indices are
in range by their type.
-/
namespace Sys2Proof

/-- An immediate is a number in 0..65535 (30_encoding.md R83, R88). -/
def immInRange (imm : Nat) : Bool := imm < 65536

/-- The check of a command term. -/
def Instr.wellFormed : Instr → Bool
  | .ldi _ imm => immInRange imm
  | .ldhi _ imm => immInRange imm
  | _ => true

end Sys2Proof
end

