-- ==== Sys2Proof/Decode.lean ====
section
/-!
DEFINITION. Decoding, total on any 32-bit word (30_encoding.md R87), and the encoder written from the same tables (R81, R82,
R85, R88).
-/
namespace Sys2Proof

/-- Why a word is illegal (30_encoding.md R86). Both raise ILLEGAL_COMMAND. -/
inductive DecodeReject where
  /-- `w[7:0]` is no opcode of R85. -/
  | unassignedOpcode (op : Byte)
  /-- A bit the format requires to be zero is 1 (R82). -/
  | nonzeroReserved (op : Byte)
  deriving DecidableEq, Repr

/-- The fixed-bits mask of a format (30_encoding.md R82). -/
def Format.mask : Format → Word
  | .z => 0xFFFFFFFF
  | .i => 0x0000F8FF
  | .m => 0xFFFFC0FF

/-- `w[7:0]` (30_encoding.md R81). -/
def fieldOp (w : Word) : Byte := w.extractLsb' 0 8

/-- `w[10:8]` (30_encoding.md R81). -/
def fieldA (w : Word) : Fin 8 := (w.extractLsb' 8 3).toFin

/-- `w[13:11]` (30_encoding.md R81). -/
def fieldR (w : Word) : Fin 8 := (w.extractLsb' 11 3).toFin

/-- `w[31:16]` (30_encoding.md R81). -/
def fieldImm (w : Word) : Nat := (w.extractLsb' 16 16).toNat

/-- The opcode map (30_encoding.md R85): the format and the command of an opcode, given the word's other fields. -/
def opcodeMap (op : Byte) (a r : Fin 8) (imm : Nat) : Option (Format × Instr) :=
  match op.toNat with
  | 0x00 => some (.z, .nop)
  | 0x01 => some (.i, .ldi a imm)
  | 0x02 => some (.i, .ldhi a imm)
  | 0x03 => some (.m, .mov a r)
  | 0x10 => some (.z, .bcdEnc)
  | 0x11 => some (.z, .bcdDec)
  | 0x20 => some (.z, .dtValidate)
  | 0x21 => some (.z, .dtEncode)
  | 0x22 => some (.z, .dtDecode)
  | 0x23 => some (.z, .timeDecode)
  | 0x28 => some (.z, .setDatetime)
  | 0x29 => some (.z, .getDatetime)
  | 0x2A => some (.z, .getTime)
  | 0x2B => some (.z, .setTime)
  | 0x30 => some (.z, .isLeap)
  | 0x31 => some (.z, .daysInMonth)
  | 0x32 => some (.z, .daysBeforeMonth)
  | 0x33 => some (.z, .daysBeforeYear)
  | 0x34 => some (.z, .toEpoch)
  | 0x35 => some (.z, .fromEpoch)
  | 0x40 => some (.z, .alarm1Encode)
  | 0x41 => some (.z, .alarm2Encode)
  | 0x48 => some (.z, .setAlarm1)
  | 0x49 => some (.z, .setAlarm2)
  | 0x4A => some (.z, .alarmIntEnable)
  | 0x4B => some (.z, .getAlarmFlag)
  | 0x4C => some (.z, .clearAlarmFlag)
  | 0x50 => some (.z, .setOscEnable)
  | 0x51 => some (.z, .setSquareWave)
  | 0x52 => some (.z, .set32khz)
  | 0x53 => some (.z, .startConv)
  | 0x54 => some (.z, .getOsf)
  | 0x60 => some (.z, .agingEnc)
  | 0x61 => some (.z, .agingDec)
  | 0x62 => some (.z, .tempDecode)
  | 0x68 => some (.z, .setAging)
  | 0x69 => some (.z, .getAging)
  | 0x6A => some (.z, .getTemp)
  | _ => none

/-- `decode(w)` (30_encoding.md R87): the command of a legal word, or the name of what makes it illegal (R86). -/
def decode (w : Word) : Except DecodeReject Instr :=
  match opcodeMap (fieldOp w) (fieldA w) (fieldR w) (fieldImm w) with
  | none => .error (.unassignedOpcode (fieldOp w))
  | some (f, i) =>
    if w &&& f.mask = (fieldOp w).setWidth 32 then .ok i else .error (.nonzeroReserved (fieldOp w))

/-- The opcode of a command (30_encoding.md R85). -/
def opcode : Instr → Byte
  | .nop => 0x00
  | .ldi _ _ => 0x01
  | .ldhi _ _ => 0x02
  | .mov _ _ => 0x03
  | .bcdEnc => 0x10
  | .bcdDec => 0x11
  | .dtValidate => 0x20
  | .dtEncode => 0x21
  | .dtDecode => 0x22
  | .timeDecode => 0x23
  | .setDatetime => 0x28
  | .getDatetime => 0x29
  | .getTime => 0x2A
  | .setTime => 0x2B
  | .isLeap => 0x30
  | .daysInMonth => 0x31
  | .daysBeforeMonth => 0x32
  | .daysBeforeYear => 0x33
  | .toEpoch => 0x34
  | .fromEpoch => 0x35
  | .alarm1Encode => 0x40
  | .alarm2Encode => 0x41
  | .setAlarm1 => 0x48
  | .setAlarm2 => 0x49
  | .alarmIntEnable => 0x4A
  | .getAlarmFlag => 0x4B
  | .clearAlarmFlag => 0x4C
  | .setOscEnable => 0x50
  | .setSquareWave => 0x51
  | .set32khz => 0x52
  | .startConv => 0x53
  | .getOsf => 0x54
  | .agingEnc => 0x60
  | .agingDec => 0x61
  | .tempDecode => 0x62
  | .setAging => 0x68
  | .getAging => 0x69
  | .getTemp => 0x6A

/-- The format of a command (30_encoding.md R82). -/
def formatOf : Instr → Format
  | .ldi _ _ => .i
  | .ldhi _ _ => .i
  | .mov _ _ => .m
  | _ => .z

/-- The word with the given fields: `imm << 16 | r << 11 | a << 8 | op` (30_encoding.md R88). -/
def assembleWord (imm : Nat) (r a : Fin 8) (op : Byte) : Word :=
  BitVec.ofNat 32 imm <<< 16 ||| BitVec.ofNat 32 r.val <<< 11 ||| BitVec.ofNat 32 a.val <<< 8 ||| op.setWidth 32

/-- The word of a command, unused fields zero (30_encoding.md R82, R88). -/
def encode : Instr → Word
  | .ldi a imm => assembleWord imm 0 a (opcode (.ldi a imm))
  | .ldhi a imm => assembleWord imm 0 a (opcode (.ldhi a imm))
  | .mov a r => assembleWord 0 r a (opcode (.mov a r))
  | i => assembleWord 0 0 0 (opcode i)

/-- What `decode` reads from an instruction given as `spec/opcode_table.json` numbers its bits: `nbits` bits `w`, every bit
above them 0. A command is one 32-bit word (30_encoding.md R80). -/
def decodeTableWord (nbits w : Nat) : Option Instr :=
  if nbits ≤ 32 then (decode (BitVec.ofNat 32 (w % 2 ^ nbits))).toOption else none

end Sys2Proof
end

