-- ==== Sys2Proof/Config.lean ====
section
/-!
DEFINITION. What is fixed for this hardware (00_scope.md R6) and the free values the spec leaves to the peripheral and the
transport (20_memory.md R52, R53, R55). The free values have no body: no proof can see one.
-/
namespace Sys2Proof

/-- The two day-of-week conventions the parameter `DOW_BASE` selects between (00_scope.md R6, 90_conflicts.md C8). -/
inductive DowBase where
  /-- `DOW_BASE = 0`: Sunday = 0 .. Saturday = 6. -/
  | sundayZero
  /-- `DOW_BASE = 1`: Monday = 1 .. Sunday = 7. -/
  | mondayOne
  deriving DecidableEq, Repr

/-- The number a convention starts at. -/
def DowBase.toNat : DowBase → Nat
  | .sundayZero => 0
  | .mondayOne => 1

/-- One draw of the peripheral and the transport, taken by one transaction (20_memory.md R52, R53, R55, R57, R68).
`before`: the register cells the peripheral changed by its own action since the last event.
`ok`: whether the transport completed the transaction.
`after`: the register cells as the peripheral's response to a write leaves them where they differ from the bytes delivered;
after a failed write, whichever bytes reached it. A read has no effect on the peripheral (R57) and ignores `after`. -/
structure Draw where
  ok : Bool
  before : List Host.Cell
  after : List Host.Cell
  deriving DecidableEq, Repr, Inhabited

namespace Config

/-- The `DOW_BASE` this hardware takes (00_scope.md R6: "configuration, in {0, 1}; this hardware takes 1"): the value at
`State.reset` of the configuration field that the commands read (log 17). -/
def dowBase : DowBase := .mondayOne

/-- `REG_COUNT`: the peripheral's registers are 0x00 to 0x12 (00_scope.md R6, 20_memory.md R50). -/
def regCount : Nat := 19

/-- `BUS_ADDR`: the fixed 7-bit bus address of the port; no command names it (00_scope.md R6, 20_memory.md R51). -/
def busAddr : BitVec 7 := 0x68

/-- `YEAR_MIN` (00_scope.md R6). -/
def yearMin : Nat := 2000

/-- `YEAR_MAX` (00_scope.md R6). -/
def yearMax : Nat := 2099

/-- `EPOCH_2000` (42_epoch.md R141). -/
def epoch2000 : Nat := 946684800

/-- `EPOCH_MIN` (42_epoch.md R152). -/
def epochMin : Nat := 946684800

/-- `EPOCH_MAX` (42_epoch.md R152). -/
def epochMax : Nat := 4102444799

/-- Free value: the draw of the `n`-th transaction when State lists none (log 2). -/
opaque freeDraw : Nat → Draw

/-- Free value: the byte an unlisted peripheral register `a` holds at draw number `n` (10_state.md R33, log 3). -/
opaque freeByte : Nat → Nat → Byte

end Config
end Sys2Proof
end

