-- ==== Sys2Proof/Machine/State.lean ====
section
/-!
DEFINITION. The state of the machine (10_state.md), its reset value (70_reset_and_hazards.md R290), and the reasons a step of the
host interface can stop.
-/
namespace Sys2Proof.Machine

/-- The outcome codes of STATUS by name (10_state.md R24); `StatusCode.toByte` (Flags.lean) gives the numbers. -/
inductive StatusCode where
  | ok
  | transportFail
  | invalidData
  | busy
  | oscEnableFail
  | osfClearFail
  | flagClearFail
  | convFail
  | none
  deriving DecidableEq, Repr

/-- The three fault causes of the block (10_state.md R26). -/
inductive FaultCause where
  | illegalCommand
  | unwrittenOperand
  | domain
  deriving DecidableEq, Repr

/-- The fault record (10_state.md R25). -/
structure FaultRecord where
  cause : FaultCause
  fpc : Nat
  fword : Word
  deriving DecidableEq, Repr

/-- What a `TxRead` returned (20_memory.md R52). -/
inductive RdResult where
  | ok (bytes : List Byte)
  | fail
  deriving DecidableEq, Repr

/-- What a `TxWrite` returned (20_memory.md R53). -/
inductive WrResult where
  | ok
  | fail
  deriving DecidableEq, Repr

/-- A transaction event of HIST (10_state.md R29). Addresses are plain numbers 0x00..0x12. -/
inductive Event where
  | rd (pc start n : Nat) (result : RdResult)
  | wr (pc start : Nat) (bytes : List Byte) (result : WrResult)
  deriving DecidableEq, Repr

/-- A file of eight registers, each a u32 or ⊥ (10_state.md R20, R22). `none` is ⊥, the spec's own state. -/
abbrev RegFile := Vector (Option Word) 8

/-- The peripheral's register cells as far as they are listed, in canonical form (`Memory.wf` in Ops.lean). -/
abbrev Memory := List Host.Cell

/-- The state: the block's own (10_state.md part 1), the peripheral's registers (part 2), and the configuration `dowBase`
(log 17), and the model's own fields `prog`, `draws` and `drawCount` (log 1, log 2). -/
structure State where
  /-- `ARG[0..7]` (R20) -/
  arg : RegFile
  /-- `RES[0..7]` (R22) -/
  res : RegFile
  /-- `STATUS` (R23) -/
  status : Byte
  /-- `FAULT` (R25) -/
  fault : Option FaultRecord
  /-- `pc` (R27) -/
  pc : Nat
  /-- `HIST`, oldest event first (R29) -/
  hist : List Event
  /-- The peripheral's registers 0x00..0x12 (R31, R33): the agent's state, not the block's -/
  periph : Memory
  /-- `DOW_BASE`, the configuration of the run in {0, 1} (00_scope.md R6, 90_conflicts.md C8, log 17): no command writes it -/
  dowBase : DowBase
  /-- `PROG`, the parameter of the run (R28, log 1) -/
  prog : List Word
  /-- The coming draws, one for each transaction, oldest first (20_memory.md R55, log 2) -/
  draws : List Draw
  /-- How many draws have been taken (log 2) -/
  drawCount : Nat
  deriving DecidableEq, Repr

/-- The machine right after reset (70_reset_and_hazards.md R290): every register ⊥, STATUS 0xFF, no fault, pc 0, HIST empty.
DOW_BASE is the 1 this hardware takes (log 17), no program is loaded (log 1) and nothing is listed of the peripheral (log 3). -/
def State.reset : State where
  arg := Vector.replicate 8 none
  res := Vector.replicate 8 none
  status := 0xFF
  fault := none
  pc := 0
  hist := []
  periph := []
  dowBase := Config.dowBase
  prog := []
  draws := []
  drawCount := 0

/-- Why the host interface's step answers `fault`. None of these is a fault of the block: the block's faults are NEXT states
with FAULT set (60_exceptions.md R262). -/
inductive Fault where
  /-- Raised by the fetch when FAULT is recorded: no further command executes (60_exceptions.md R262, R266). Safe. -/
  | halted (r : FaultRecord)
  /-- Raised by the fetch when `pc = len(PROG)` and FAULT is none: the run has ended normally (70_reset_and_hazards.md R293).
  Safe. -/
  | runEnded
  /-- Raised by the fetch when `pc > len(PROG)`, and by taking a fault when no command stands at pc: no run reaches either
  (log 5). Safe. -/
  | noCommandAtPc
  deriving DecidableEq, Repr

/-- Why `exec` answers `refused`. -/
inductive Refusal where
  /-- Raised by an arm of `exec` whose instruction has no meaning yet. No arm is refused. Safe. -/
  | notModelled (mnemonic : String)
  deriving DecidableEq, Repr

/-- The outcome of a step. -/
abbrev Out := Host.Outcome State Fault Refusal

end Sys2Proof.Machine
end

