-- ==== Sys2Proof/Machine/Flags.lean ====
section
/-!
DEFINITION. The block has no flags or condition codes (10_state.md R30). What it reports and what it drives bit by bit: the codes
of STATUS (R24), the codes of the fault causes (R26) and the bits of the peripheral's control and status registers (R35, R36).
-/
namespace Sys2Proof.Machine

/-- The numbers of the outcome codes (10_state.md R24). -/
def StatusCode.toByte : StatusCode → Byte
  | .ok => 0x00
  | .transportFail => 0x01
  | .invalidData => 0x02
  | .busy => 0x03
  | .oscEnableFail => 0x04
  | .osfClearFail => 0x05
  | .flagClearFail => 0x06
  | .convFail => 0x07
  | .none => 0xFF

/-- The numbers of the fault causes (10_state.md R26). -/
def FaultCause.code : FaultCause → Nat
  | .illegalCommand => 1
  | .unwrittenOperand => 2
  | .domain => 3

/-- Address of the control register (10_state.md R35). -/
def addrControl : Nat := 0x0E
/-- Address of the status register (10_state.md R36). -/
def addrStatus : Nat := 0x0F

/-- Bit 7 of 0x0E: 0 enables the oscillator (10_state.md R35). -/
def bitEOSC : Byte := 0x80
/-- Bit 5 of 0x0E: conversion trigger (10_state.md R35). -/
def bitCONV : Byte := 0x20
/-- Bits 4:3 of 0x0E: RS2:RS1 (10_state.md R35). -/
def bitsRS : Byte := 0x18
/-- Bit 2 of 0x0E: interrupt mode (10_state.md R35). -/
def bitINTCN : Byte := 0x04
/-- Bit 7 of 0x0F: oscillator stop flag (10_state.md R36). -/
def bitOSF : Byte := 0x80
/-- Bit 3 of 0x0F: 32 kHz output enable (10_state.md R36). -/
def bitEN32kHz : Byte := 0x08
/-- Bit 2 of 0x0F: conversion busy (10_state.md R36). -/
def bitBSY : Byte := 0x04

/-- `chbit(c) = 1 << (c - 1)`: channel c's flag in 0x0F and its enable in 0x0E (43_alarm.md R179). -/
def chbit (c : Nat) : Byte := 1 <<< (c - 1)

end Sys2Proof.Machine
end

