-- ==== Sys2Proof/Machine/Ops.lean ====
section
/-!
DEFINITION. The shared operations over the register files, the peripheral's registers, the transport port, completion, taking a
fault, reset and the fetch. Every meaning is written over these.
-/
namespace Sys2Proof.Machine

/-! ### The peripheral's register cells -/

/-- The canonical form of the cells: addresses strictly rising and inside the register space (20_memory.md R50). An unlisted
register reads as a free value (log 3), so no listed byte can equal it and none is left out for that. -/
abbrev Memory.wf (m : Memory) : Prop :=
  m.Pairwise (fun x y => x.1 < y.1) ∧ ∀ x ∈ m, x.1 < Config.regCount

/-- The listed byte at `a`. -/
def Memory.lookup (m : Memory) (a : Nat) : Option Byte :=
  match m with
  | [] => none
  | c :: t => if c.1 = a then some c.2 else Memory.lookup t a

/-- Insertion in address order, replacing the cell at `a`. -/
def Memory.insert (m : Memory) (a : Nat) (b : Byte) : Memory :=
  match m with
  | [] => [(a, b)]
  | c :: t =>
    if a < c.1 then (a, b) :: c :: t
    else if a = c.1 then (a, b) :: t
    else c :: Memory.insert t a b

/-- Stores one byte; an address outside 0x00..0x12 does not exist and nothing is stored (20_memory.md R50). -/
def Memory.store (m : Memory) (a : Nat) (b : Byte) : Memory :=
  if a < Config.regCount then m.insert a b else m

/-- Stores a list of cells, the first one first: what the peripheral does by itself. -/
def Memory.storeCells (m : Memory) (cells : List Host.Cell) : Memory :=
  match cells with
  | [] => m
  | c :: t => Memory.storeCells (m.store c.1 c.2) t

/-- Stores bytes at ascending addresses from `start` (20_memory.md R59). -/
def Memory.storeBytes (m : Memory) (start : Nat) (bytes : List Byte) : Memory :=
  match bytes with
  | [] => m
  | b :: t => Memory.storeBytes (m.store start b) (start + 1) t

/-! ### The register files -/

/-- `ARG[i]` as it stands, ⊥ as `none` (10_state.md R20). -/
def State.argAt (s : State) (i : Fin 8) : Option Word := s.arg[i.val]

/-- `RES[i]` as it stands, ⊥ as `none` (10_state.md R22). -/
def State.resAt (s : State) (i : Fin 8) : Option Word := s.res[i.val]

/-- `ARG[i] <- v` (00_scope.md R8). -/
def State.setArg (s : State) (i : Fin 8) (v : Word) : State :=
  { s with arg := s.arg.set i.val (some v) i.isLt }

/-- Writes a run of registers of a file, the first value at index `k`. -/
def RegFile.writeFrom (f : RegFile) (k : Nat) (vals : List (Option Word)) : RegFile :=
  match vals with
  | [] => f
  | v :: t => RegFile.writeFrom (f.setIfInBounds k v) (k + 1) t

/-- `RES[k] <- vals[k]` for `k = 0 ..` (00_scope.md R8). -/
def State.setRes (s : State) (vals : List Word) : State :=
  { s with res := RegFile.writeFrom s.res 0 (vals.map some) }

/-- `RES[k] <- ⊥` for `k = 0 .. n-1` (00_scope.md R8, 60_exceptions.md R270). -/
def State.clearRes (s : State) (n : Nat) : State :=
  { s with res := RegFile.writeFrom s.res 0 (List.replicate n none) }

/-! ### Completion and faults -/

/-- `pc <- pc + 1` (10_state.md R27): the end of an operand move, which leaves STATUS unchanged (R23). -/
def State.advance (s : State) : State := { s with pc := s.pc + 1 }

/-- The end of every other command: `STATUS <- code`, then `pc <- pc + 1` (10_state.md R23, R27). -/
def State.finish (s : State) (code : StatusCode) : State :=
  { s with status := code.toByte, pc := s.pc + 1 }

/-- Taking a fault (60_exceptions.md R262): `FAULT <- (cause, pc, PROG[pc])` and nothing else changes. Where no command stands
at pc there is no `PROG[pc]`, and the step stops (log 5). -/
def raise (cause : FaultCause) (s : State) : Out :=
  match s.prog[s.pc]? with
  | some w => .next { s with fault := some ⟨cause, s.pc, w⟩ }
  | none => .fault .noCommandAtPc

/-- The reset event (70_reset_and_hazards.md R290, R291): every piece of the block's state takes its reset value, FAULT among
it; the peripheral is left as it is, the configuration of the run stays, and no transaction is issued. There is no other way out of a fault
(60_exceptions.md R266). -/
def hostReset (s : State) : State :=
  { State.reset with periph := s.periph, dowBase := s.dowBase, prog := s.prog, draws := s.draws, drawCount := s.drawCount }

/-- The start of a run: the host resets the block and chooses PROG (70_reset_and_hazards.md R300). -/
def startRun (prog : List Word) (s : State) : State := { hostReset s with prog := prog }

/-! ### The transport port -/

/-- The draw the next transaction takes (20_memory.md R52, R53, R55): the oldest listed one, or a free value (log 2). -/
def State.nextDraw (s : State) : Draw :=
  match s.draws with
  | d :: _ => d
  | [] => Config.freeDraw s.drawCount

/-- The peripheral's registers once it has acted by itself since the last event (20_memory.md R55). -/
def State.actedPeriph (s : State) : Memory := s.periph.storeCells s.nextDraw.before

/-- The byte register `a` holds in the image `m` at the moment of the transaction (20_memory.md R52). -/
def State.byteIn (s : State) (m : Memory) (a : Nat) : Byte :=
  (m.lookup a).getD (Config.freeByte s.drawCount a)

/-- `TxRead(start, n)` (20_memory.md R52, R56): all n bytes come from one instant of the peripheral's state; one event is
appended to HIST. -/
def txRead (start n : Nat) (s : State) : RdResult × State :=
  let m := s.actedPeriph
  let r : RdResult :=
    if s.nextDraw.ok then .ok ((List.range n).map fun i => s.byteIn m (start + i)) else .fail
  (r, { s with
    periph := m
    hist := s.hist ++ [.rd s.pc start n r]
    draws := s.draws.tail
    drawCount := s.drawCount + 1 })

/-- `TxWrite(start, bytes)` (20_memory.md R53, R56, R57, R68): on Ok the bytes are delivered at one instant, on Fail whichever
the draw says; the peripheral's response is the draw's; one event is appended to HIST. -/
def txWrite (start : Nat) (bytes : List Byte) (s : State) : WrResult × State :=
  let m := s.actedPeriph
  let r : WrResult := if s.nextDraw.ok then .ok else .fail
  let delivered := if s.nextDraw.ok then m.storeBytes start bytes else m
  (r, { s with
    periph := delivered.storeCells s.nextDraw.after
    hist := s.hist ++ [.wr s.pc start bytes r]
    draws := s.draws.tail
    drawCount := s.drawCount + 1 })

/-- The value an RMW writes back (20_memory.md R58): `(v & ~clr) | set`. -/
def rmwValue (v clr set : Byte) : Byte := (v &&& ~~~clr) ||| set

/-- `RMW(addr, clr, set)` (20_memory.md R58): a read and, unless it failed, a write; two transactions, not one. -/
def rmw (addr : Nat) (clr set : Byte) (s : State) : WrResult × State :=
  match txRead addr 1 s with
  | (.fail, s1) => (.fail, s1)
  | (.ok bytes, s1) => txWrite addr [rmwValue (bytes.getD 0 0) clr set] s1

/-- The end of a command by the result of its last step: `ok`, or the code its rule gives for that step
(60_exceptions.md R270). -/
def finishWr (failCode : StatusCode) (p : WrResult × State) : State :=
  match p with
  | (.ok, s) => s.finish .ok
  | (.fail, s) => s.finish failCode

/-! ### Fetch -/

/-- What the fetch found. -/
inductive Fetched where
  | stop (f : Fault)
  | word (w : Word)
  deriving DecidableEq, Repr

/-- The fetch: no command executes while FAULT is recorded (60_exceptions.md R262), the run ends at `pc = len(PROG)`
(70_reset_and_hazards.md R293), and otherwise the command is `PROG[pc]` (10_state.md R27, R28). -/
def fetch (s : State) : Fetched :=
  match s.fault with
  | some r => .stop (.halted r)
  | none =>
    match s.prog[s.pc]? with
    | some w => .word w
    | none => if s.pc = s.prog.length then .stop .runEnded else .stop .noCommandAtPc

/-- The command stream with `w` at index `k`; where the stream is shorter, NOP words stand before it (log 15). -/
def placeWord (prog : List Word) (k : Nat) (w : Word) : List Word :=
  if k < prog.length then prog.set k w
  else prog ++ List.replicate (k - prog.length) 0 ++ [w]

end Sys2Proof.Machine
end

