-- ==== Sys2Proof/Machine/Operands.lean ====
section
/-!
DEFINITION. The operand forms: reading ARG and RES in the check phase (10_state.md R21, 00_scope.md R9), the domain tests
(30_encoding.md R84, 60_exceptions.md R261) and the DateTime operand (00_scope.md R10).
-/
namespace Sys2Proof.Machine

/-- A DateTime (00_scope.md R10): naturals, `year` the full year. -/
structure DateTime where
  second : Nat
  minute : Nat
  hour : Nat
  dayOfWeek : Nat
  dayOfMonth : Nat
  month : Nat
  year : Nat
  deriving DecidableEq, Repr

/-- The tuple as result words, field k for RES[k] (00_scope.md R10). -/
def DateTime.toWords (dt : DateTime) : List Word :=
  [dt.second, dt.minute, dt.hour, dt.dayOfWeek, dt.dayOfMonth, dt.month, dt.year].map (BitVec.ofNat 32)

/-- Reads `ARG[i]`; ⊥ raises UNWRITTEN_OPERAND (10_state.md R21). -/
def withArg (s : State) (i : Fin 8) (k : Word → Out) : Out :=
  match s.argAt i with
  | some v => k v
  | none => raise .unwrittenOperand s

/-- Reads `RES[r]`; ⊥ raises UNWRITTEN_OPERAND (10_state.md R21). -/
def withRes (s : State) (r : Fin 8) (k : Word → Out) : Out :=
  match s.resAt r with
  | some v => k v
  | none => raise .unwrittenOperand s

/-- `require(c, DOMAIN)` (00_scope.md R8). -/
def requireDomain (c : Bool) (s : State) (k : Out) : Out :=
  if c then k else raise .domain s

/-- Reads ARG0..ARG2 in ascending order (10_state.md R21). -/
def withArgs3 (s : State) (k : Word → Word → Word → Out) : Out :=
  withArg s 0 fun a0 => withArg s 1 fun a1 => withArg s 2 fun a2 => k a0 a1 a2

/-- Reads ARG0..ARG6 in ascending order (10_state.md R21). -/
def withArgs7 (s : State) (k : Word → Word → Word → Word → Word → Word → Word → Out) : Out :=
  withArgs3 s fun a0 a1 a2 => withArg s 3 fun a3 => withArg s 4 fun a4 => withArg s 5 fun a5 => withArg s 6 fun a6 =>
    k a0 a1 a2 a3 a4 a5 a6

/-- Reads the DateTime in ARG0..ARG6 (00_scope.md R10). -/
def withDateTime (s : State) (k : DateTime → Out) : Out :=
  withArgs7 s fun a0 a1 a2 a3 a4 a5 a6 =>
    k ⟨a0.toNat, a1.toNat, a2.toNat, a3.toNat, a4.toNat, a5.toNat, a6.toNat⟩

/-- A byte operand is at most 0xFF (30_encoding.md R84). -/
def isByte (w : Word) : Bool := w.toNat ≤ 0xFF

/-- The byte of a byte operand. -/
def toByte (w : Word) : Byte := w.setWidth 8

/-- A boolean operand is 0 or 1 (44_control.md R200). -/
def isBoolean (w : Word) : Bool := w = 0 || w = 1

/-- A channel operand is 1 or 2 (43_alarm.md R179). -/
def isChannel (w : Word) : Bool := w = 1 || w = 2

/-- A year operand lies in 2000..2099 (60_exceptions.md R261). -/
def yearInRange (w : Word) : Bool := Config.yearMin ≤ w.toNat && w.toNat ≤ Config.yearMax

/-- A month operand lies in 1..12 (60_exceptions.md R261). -/
def monthInRange (w : Word) : Bool := 1 ≤ w.toNat && w.toNat ≤ 12

end Sys2Proof.Machine
end

