-- ==== Sys2Proof/Machine/Bcd.lean ====
section
/-!
DEFINITION. The BCD codec (40_bcd.md).
-/
namespace Sys2Proof.Machine

/-- `bcdEnc(d)` for d in 0..99 (40_bcd.md R100). The spec does not define it elsewhere and no caller uses it there (log 7). -/
def bcdEnc (d : Nat) : Byte := BitVec.ofNat 8 (d / 10) <<< 4 ||| BitVec.ofNat 8 (d % 10)

/-- `bcdDec(b)` for any byte, no bound checked (40_bcd.md R101). -/
def bcdDec (b : Byte) : Nat := 10 * (b >>> 4).toNat + (b &&& 0x0F).toNat

/-- BCD-valid: both nibbles at most 9 (40_bcd.md R103). -/
def bcdValid (b : Byte) : Bool := (b >>> 4).toNat ≤ 9 && (b &&& 0x0F).toNat ≤ 9

/-- BCD_ENC (40_bcd.md R105). -/
def execBcdEnc (s : State) : Out :=
  withArg s 0 fun d => requireDomain (d.toNat ≤ 99) s <|
    .next ((s.setRes [zext32 (bcdEnc d.toNat)]).finish .ok)

/-- BCD_DEC (40_bcd.md R106). -/
def execBcdDec (s : State) : Out :=
  withArg s 0 fun b => requireDomain (isByte b) s <|
    .next ((s.setRes [BitVec.ofNat 32 (bcdDec (toByte b))]).finish .ok)

end Sys2Proof.Machine
end

