-- ==== Sys2Proof/Machine/Alarm.lean ====
section
/-!
DEFINITION. Alarm configuration and mask construction (43_alarm.md). When an alarm fires is the peripheral's own behaviour (R173).
-/
namespace Sys2Proof.Machine

/-- The closed set of Alarm 1 modes by name (43_alarm.md R171). -/
inductive Alarm1Mode where
  | everySecond
  | matchS
  | matchMS
  | matchHMS
  | matchDateHMS
  | matchDayHMS
  deriving DecidableEq, Repr

/-- The closed set of Alarm 2 modes by name (43_alarm.md R172). -/
inductive Alarm2Mode where
  | everyMinute
  | matchM
  | matchHM
  | matchDateHM
  | matchDayHM
  deriving DecidableEq, Repr

/-- The mode values of Alarm 1 (43_alarm.md R171, layout R170). -/
def Alarm1Mode.value : Alarm1Mode → Word
  | .everySecond => 0x0F
  | .matchS => 0x0E
  | .matchMS => 0x0C
  | .matchHMS => 0x08
  | .matchDateHMS => 0x00
  | .matchDayHMS => 0x10

/-- The mode values of Alarm 2 (43_alarm.md R172, layout R170). -/
def Alarm2Mode.value : Alarm2Mode → Word
  | .everyMinute => 0x0E
  | .matchM => 0x0C
  | .matchHM => 0x08
  | .matchDateHM => 0x00
  | .matchDayHM => 0x10

/-- A legal Alarm 1 mode value (43_alarm.md R171). -/
def isAlarm1Mode (m : Word) : Bool :=
  ([Alarm1Mode.everySecond, .matchS, .matchMS, .matchHMS, .matchDateHMS, .matchDayHMS].map Alarm1Mode.value).contains m

/-- A legal Alarm 2 mode value (43_alarm.md R172). -/
def isAlarm2Mode (m : Word) : Bool :=
  ([Alarm2Mode.everyMinute, .matchM, .matchHM, .matchDateHM, .matchDayHM].map Alarm2Mode.value).contains m

/-- The day/date domain: a date when M[4] = 0, a day of week when M[4] = 1 (43_alarm.md R174). -/
def dayDateInRange (base : DowBase) (m : Word) (dd : Nat) : Bool :=
  if m.getLsbD 4 then base.toNat ≤ dd && dd ≤ base.toNat + 6 else 1 ≤ dd && dd ≤ 31

/-- Minutes, hours and day/date in domain, whatever the mode (43_alarm.md R174). -/
def alarmFieldsInRange (base : DowBase) (m : Word) (mi h dd : Nat) : Bool :=
  mi ≤ 59 && h ≤ 23 && dayDateInRange base m dd

/-- Bit i of a mode value, as a byte at bit 0 (43_alarm.md R170). -/
def modeBit (m : Word) (i : Nat) : Byte := if m.getLsbD i then 1 else 0

/-- A day/date register: the field, AxM4 and DY/DT (43_alarm.md R175, R176). -/
def dayDateByte (m : Word) (dd : Nat) : Byte := bcdEnc dd ||| modeBit m 3 <<< 7 ||| modeBit m 4 <<< 6

/-- `alarm1Encode(M, s, mi, h, dd)`: the bytes for 0x07..0x0A (43_alarm.md R175). -/
def alarm1Encode (m : Word) (s mi h dd : Nat) : List Byte :=
  [bcdEnc s ||| modeBit m 0 <<< 7, bcdEnc mi ||| modeBit m 1 <<< 7, bcdEnc h ||| modeBit m 2 <<< 7, dayDateByte m dd]

/-- `alarm2Encode(M, mi, h, dd)`: the bytes for 0x0B..0x0D (43_alarm.md R176). -/
def alarm2Encode (m : Word) (mi h dd : Nat) : List Byte :=
  [bcdEnc mi ||| modeBit m 1 <<< 7, bcdEnc h ||| modeBit m 2 <<< 7, dayDateByte m dd]

/-- Reads and checks the operands of Alarm 1 and passes on its register bytes (43_alarm.md R177, R180). -/
def withAlarm1 (s : State) (k : List Byte → Out) : Out :=
  withArgs3 s fun m sec mi => withArg s 3 fun h => withArg s 4 fun dd =>
    requireDomain
      (isAlarm1Mode m && (sec.toNat ≤ 59 && alarmFieldsInRange s.dowBase m mi.toNat h.toNat dd.toNat)) s
      (k (alarm1Encode m sec.toNat mi.toNat h.toNat dd.toNat))

/-- Reads and checks the operands of Alarm 2 and passes on its register bytes (43_alarm.md R178, R181). -/
def withAlarm2 (s : State) (k : List Byte → Out) : Out :=
  withArgs3 s fun m mi h => withArg s 3 fun dd =>
    requireDomain (isAlarm2Mode m && alarmFieldsInRange s.dowBase m mi.toNat h.toNat dd.toNat) s
      (k (alarm2Encode m mi.toNat h.toNat dd.toNat))

/-- ALARM1_ENCODE (43_alarm.md R177). -/
def execAlarm1Encode (s : State) : Out :=
  withAlarm1 s fun bs => .next ((s.setRes (bs.map zext32)).finish .ok)

/-- ALARM2_ENCODE (43_alarm.md R178). -/
def execAlarm2Encode (s : State) : Out :=
  withAlarm2 s fun bs => .next ((s.setRes (bs.map zext32)).finish .ok)

/-- Writes an alarm's registers and clears its channel's flag (43_alarm.md R180, R181). -/
def setAlarmEffect (start c : Nat) (bs : List Byte) (s : State) : State :=
  match txWrite start bs s with
  | (.fail, s1) => s1.finish .transportFail
  | (.ok, s1) => finishWr .flagClearFail (rmw addrStatus (chbit c) 0x00 s1)

/-- SET_ALARM1 (43_alarm.md R180). -/
def execSetAlarm1 (s : State) : Out :=
  withAlarm1 s fun bs => .next (setAlarmEffect 0x07 1 bs s)

/-- SET_ALARM2 (43_alarm.md R181). -/
def execSetAlarm2 (s : State) : Out :=
  withAlarm2 s fun bs => .next (setAlarmEffect 0x0B 2 bs s)

/-- The effect phase of ALARM_INT_ENABLE (43_alarm.md R182): (a) clear the flag, then (b) INTCN and (c) AxIE in one RMW. -/
def alarmIntEnableEffect (c : Nat) (en : Bool) (s : State) : State :=
  match rmw addrStatus (chbit c) 0x00 s with
  | (.fail, s1) => s1.finish .transportFail
  | (.ok, s1) =>
    finishWr .transportFail
      (if en then rmw addrControl 0x00 (bitINTCN ||| chbit c) s1 else rmw addrControl (chbit c) bitINTCN s1)

/-- ALARM_INT_ENABLE (43_alarm.md R182). -/
def execAlarmIntEnable (s : State) : Out :=
  withArg s 0 fun c => withArg s 1 fun en => requireDomain (isChannel c && isBoolean en) s <|
    .next (alarmIntEnableEffect c.toNat (en == 1) s)

/-- Reads ARG0 = c and requires a channel (43_alarm.md R179). -/
def withChannel (s : State) (k : Nat → Out) : Out :=
  withArg s 0 fun c => requireDomain (isChannel c) s (k c.toNat)

/-- GET_ALARM_FLAG (43_alarm.md R183). -/
def execGetAlarmFlag (s : State) : Out :=
  withChannel s fun c =>
    .next (match txRead addrStatus 1 s with
      | (.fail, s1) => (s1.clearRes 1).finish .transportFail
      | (.ok bytes, s1) => (s1.setRes [zext32 ((bytes.getD 0 0 >>> (c - 1)) &&& 1)]).finish .ok)

/-- CLEAR_ALARM_FLAG (43_alarm.md R184). -/
def execClearAlarmFlag (s : State) : Out :=
  withChannel s fun c => .next (finishWr .transportFail (rmw addrStatus (chbit c) 0x00 s))

end Sys2Proof.Machine
end

