-- ==== Sys2Proof/Machine/DateTimeCodec.lean ====
section
/-!
DEFINITION. Date/time marshaling (41_datetime.md): the validity test, the register block encoder and decoder, and the eight
commands over them.
-/
namespace Sys2Proof.Machine

/-- `WMASK` (41_datetime.md R120). -/
def wmask : List Byte := [0x7F, 0x7F, 0x3F, 0x07, 0x3F, 0x1F, 0xFF]

/-- `rangeValid(dt)` under a day-of-week convention (41_datetime.md R121). -/
def rangeValid (base : DowBase) (dt : DateTime) : Bool :=
  dt.second ≤ 59 && dt.minute ≤ 59 && dt.hour ≤ 23 &&
  (base.toNat ≤ dt.dayOfWeek && dt.dayOfWeek ≤ base.toNat + 6) &&
  (1 ≤ dt.dayOfMonth && dt.dayOfMonth ≤ 31) && (1 ≤ dt.month && dt.month ≤ 12) &&
  (Config.yearMin ≤ dt.year && dt.year ≤ Config.yearMax)

/-- `INVALID_DT`, the canonical invalid DateTime (41_datetime.md R122). -/
def invalidDT : DateTime := ⟨0, 0, 0, 0, 0, 0, 0⟩

/-- `encodeBlock(dt)` for a range-valid dt (41_datetime.md R123); every caller checks first. -/
def encodeBlock (dt : DateTime) : List Byte :=
  List.zipWith (fun f m => bcdEnc f &&& m)
    [dt.second, dt.minute, dt.hour, dt.dayOfWeek, dt.dayOfMonth, dt.month, dt.year - 2000] wmask

/-- Field k of a register block: `bcdDec(bs[k] & WMASK[k])` (41_datetime.md R124, R128). -/
def blockField (bs : List Byte) (k : Nat) : Nat := bcdDec (bs.getD k 0 &&& wmask.getD k 0)

/-- `decodeBlock(bs)` of a 7-byte list (41_datetime.md R124): all or nothing. -/
def decodeBlock (base : DowBase) (bs : List Byte) : DateTime × Bool :=
  let f := blockField bs
  let cand : DateTime := ⟨f 0, f 1, f 2, f 3, f 4, f 5, 2000 + f 6⟩
  if rangeValid base cand then (cand, true) else (invalidDT, false)

/-- A time of day is in range (41_datetime.md R128, R133). -/
def timeInRange (second minute hour : Nat) : Bool := second ≤ 59 && minute ≤ 59 && hour ≤ 23

/-- `decodeTime(bs)` of a 3-byte list (41_datetime.md R128): the three result words and the outcome code. -/
def decodeTime (bs : List Byte) : List Word × StatusCode :=
  let t := blockField bs
  if timeInRange (t 0) (t 1) (t 2) then ([t 0, t 1, t 2].map (BitVec.ofNat 32), .ok)
  else ([0, 0, 0], .invalidData)

/-- The outcome code of a decoded DateTime (41_datetime.md R127, R131). -/
def validityCode (ok : Bool) : StatusCode := if ok then .ok else .invalidData

/-- Writes a decoded block to RES0..RES6 and its outcome to STATUS, and ends the command (41_datetime.md R127, R131). -/
def State.finishBlock (s : State) (base : DowBase) (bs : List Byte) : State :=
  let p := decodeBlock base bs
  (s.setRes p.1.toWords).finish (validityCode p.2)

/-- Writes a decoded time to RES0..RES2 and its outcome to STATUS, and ends the command (41_datetime.md R128, R132). -/
def State.finishTime (s : State) (bs : List Byte) : State :=
  let p := decodeTime bs
  (s.setRes p.1).finish p.2

/-- DT_VALIDATE (41_datetime.md R125). -/
def execDtValidate (s : State) : Out :=
  withDateTime s fun dt =>
    .next (if rangeValid s.dowBase dt then (s.setRes [1]).finish .ok else (s.setRes [0]).finish .invalidData)

/-- Reads a DateTime and requires it range-valid (41_datetime.md R126, R130, 42_epoch.md R157). -/
def withValidDateTime (s : State) (k : DateTime → Out) : Out :=
  withDateTime s fun dt => requireDomain (rangeValid s.dowBase dt) s (k dt)

/-- DT_ENCODE (41_datetime.md R126). -/
def execDtEncode (s : State) : Out :=
  withValidDateTime s fun dt => .next ((s.setRes ((encodeBlock dt).map zext32)).finish .ok)

/-- DT_DECODE (41_datetime.md R127). -/
def execDtDecode (s : State) : Out :=
  withArgs7 s fun a0 a1 a2 a3 a4 a5 a6 =>
    requireDomain ([a0, a1, a2, a3, a4, a5, a6].all isByte) s <|
      .next (s.finishBlock s.dowBase ([a0, a1, a2, a3, a4, a5, a6].map toByte))

/-- TIME_DECODE (41_datetime.md R128). -/
def execTimeDecode (s : State) : Out :=
  withArgs3 s fun a0 a1 a2 =>
    requireDomain ([a0, a1, a2].all isByte) s <| .next (s.finishTime ([a0, a1, a2].map toByte))

/-- `WriteDateTime(dt)` (41_datetime.md R130): the block write, the oscillator enable, the OSF clear, stopping at the first
failure. -/
def writeDateTime (dt : DateTime) (s : State) : StatusCode × State :=
  match txWrite 0x00 (encodeBlock dt) s with
  | (.fail, s1) => (.transportFail, s1)
  | (.ok, s1) =>
    match rmw addrControl bitEOSC 0x00 s1 with
    | (.fail, s2) => (.oscEnableFail, s2)
    | (.ok, s2) =>
      match rmw addrStatus bitOSF 0x00 s2 with
      | (.fail, s3) => (.osfClearFail, s3)
      | (.ok, s3) => (.ok, s3)

/-- `STATUS <- WriteDateTime(dt)` and the end of the command (41_datetime.md R130, R133). -/
def State.finishWriteDateTime (s : State) (dt : DateTime) : State :=
  let p := writeDateTime dt s
  p.2.finish p.1

/-- SET_DATETIME (41_datetime.md R130). -/
def execSetDatetime (s : State) : Out :=
  withValidDateTime s fun dt => .next (s.finishWriteDateTime dt)

/-- GET_DATETIME (41_datetime.md R131). -/
def execGetDatetime (s : State) : Out :=
  .next (match txRead 0x00 7 s with
    | (.fail, s1) => (s1.clearRes 7).finish .transportFail
    | (.ok bytes, s1) => s1.finishBlock s.dowBase bytes)

/-- GET_TIME (41_datetime.md R132). -/
def execGetTime (s : State) : Out :=
  .next (match txRead 0x00 3 s with
    | (.fail, s1) => (s1.clearRes 3).finish .transportFail
    | (.ok bytes, s1) => s1.finishTime bytes)

/-- The effect phase of SET_TIME (41_datetime.md R133): the full record is read, the time spliced in, the full write made. -/
def setTimeEffect (second minute hour : Nat) (s : State) : State :=
  match txRead 0x00 7 s with
  | (.fail, s1) => s1.finish .transportFail
  | (.ok bytes, s1) =>
    let p := decodeBlock s.dowBase bytes
    if p.2 then s1.finishWriteDateTime { p.1 with second := second, minute := minute, hour := hour }
    else s1.finish .invalidData

/-- SET_TIME (41_datetime.md R133). -/
def execSetTime (s : State) : Out :=
  withArgs3 s fun a0 a1 a2 =>
    requireDomain (timeInRange a0.toNat a1.toNat a2.toNat) s <|
      .next (setTimeEffect a0.toNat a1.toNat a2.toNat s)

end Sys2Proof.Machine
end

