-- ==== Sys2Proof/Machine/Epoch.lean ====
section
/-!
DEFINITION. The calendar tables and the epoch conversion (42_epoch.md), in exact natural-number arithmetic.
-/
namespace Sys2Proof.Machine

/-- `MONTH_DAYS[1..12]` (42_epoch.md R140). -/
def monthDays : List Nat := [31, 28, 31, 30, 31, 30, 31, 31, 30, 31, 30, 31]

/-- `CUM_DAYS[m]`: the days before month m in a non-leap year (42_epoch.md R142). -/
def cumDays (m : Nat) : Nat := (monthDays.take (m - 1)).sum

/-- `isLeap(year)` for year in 2000..2099 (42_epoch.md R143, R144). -/
def isLeap (year : Nat) : Bool := (year - 2000) % 4 == 0

/-- `daysBeforeYear(year)` for year in 2000..2100 (42_epoch.md R145). -/
def daysBeforeYear (year : Nat) : Nat :=
  let y := year - 2000
  365 * y + (y + 3) / 4

/-- `daysInMonth(year, month)` (42_epoch.md R146). -/
def daysInMonth (year month : Nat) : Nat :=
  monthDays.getD (month - 1) 0 + (if month = 2 && isLeap year then 1 else 0)

/-- `daysBeforeMonth(year, month)` (42_epoch.md R147). -/
def daysBeforeMonth (year month : Nat) : Nat :=
  cumDays month + (if 3 ≤ month && isLeap year then 1 else 0)

/-- Calendar-valid: range-valid and within its month (42_epoch.md R146). -/
def calendarValid (base : DowBase) (dt : DateTime) : Bool :=
  rangeValid base dt && dt.dayOfMonth ≤ daysInMonth dt.year dt.month

/-- The day count of a DateTime: days from 2000-01-01 (42_epoch.md R148). -/
def dayCount (dt : DateTime) : Nat :=
  daysBeforeYear dt.year + daysBeforeMonth dt.year dt.month + (dt.dayOfMonth - 1)

/-- `toEpoch(dt)` for a range-valid dt (42_epoch.md R148). -/
def toEpoch (dt : DateTime) : Nat :=
  dayCount dt * 86400 + dt.hour * 3600 + dt.minute * 60 + dt.second + Config.epoch2000

/-- `dowOf(days)` (42_epoch.md R150). -/
def dowOf (base : DowBase) (days : Nat) : Nat :=
  let w := (days + 6) % 7
  match base with
  | .mondayOne => if w = 0 then 7 else w
  | .sundayZero => w

/-- The largest k in 0..n with `p k`, and 0 where there is none. -/
def largestUpTo (p : Nat → Bool) (n : Nat) : Nat :=
  match n with
  | 0 => 0
  | n + 1 => if p (n + 1) then n + 1 else largestUpTo p n

/-- The year of a day count: 2000 plus the largest y in 0..99 with `daysBeforeYear(2000 + y) <= days` (42_epoch.md R149). -/
def yearOfDays (days : Nat) : Nat := 2000 + largestUpTo (fun y => daysBeforeYear (2000 + y) ≤ days) 99

/-- The month of a day of year: the largest m in 1..12 with `daysBeforeMonth(year, m) <= doy` (42_epoch.md R149). -/
def monthOfDoy (year doy : Nat) : Nat := 1 + largestUpTo (fun j => daysBeforeMonth year (1 + j) ≤ doy) 11

/-- `fromEpoch(t)` for t in EPOCH_MIN..EPOCH_MAX (42_epoch.md R149). -/
def fromEpoch (base : DowBase) (t : Nat) : DateTime :=
  let u := t - Config.epoch2000
  let days := u / 86400
  let sod := u % 86400
  let year := yearOfDays days
  let doy := days - daysBeforeYear year
  let month := monthOfDoy year doy
  { second := sod % 60
    minute := (sod % 3600) / 60
    hour := sod / 3600
    dayOfWeek := dowOf base days
    dayOfMonth := doy - daysBeforeMonth year month + 1
    month := month
    year := year }

/-- IS_LEAP (42_epoch.md R153). -/
def execIsLeap (s : State) : Out :=
  withArg s 0 fun year => requireDomain (yearInRange year) s <|
    .next ((s.setRes [if isLeap year.toNat then 1 else 0]).finish .ok)

/-- Reads ARG0 = year and ARG1 = month and requires both in range (42_epoch.md R154, R155). -/
def withYearMonth (s : State) (k : Nat → Nat → Out) : Out :=
  withArg s 0 fun year => withArg s 1 fun month =>
    requireDomain (yearInRange year && monthInRange month) s (k year.toNat month.toNat)

/-- DAYS_IN_MONTH (42_epoch.md R154). -/
def execDaysInMonth (s : State) : Out :=
  withYearMonth s fun year month => .next ((s.setRes [BitVec.ofNat 32 (daysInMonth year month)]).finish .ok)

/-- DAYS_BEFORE_MONTH (42_epoch.md R155). -/
def execDaysBeforeMonth (s : State) : Out :=
  withYearMonth s fun year month => .next ((s.setRes [BitVec.ofNat 32 (daysBeforeMonth year month)]).finish .ok)

/-- DAYS_BEFORE_YEAR (42_epoch.md R156). -/
def execDaysBeforeYear (s : State) : Out :=
  withArg s 0 fun year => requireDomain (yearInRange year) s <|
    .next ((s.setRes [BitVec.ofNat 32 (daysBeforeYear year.toNat)]).finish .ok)

/-- TO_EPOCH (42_epoch.md R157). -/
def execToEpoch (s : State) : Out :=
  withValidDateTime s fun dt => .next ((s.setRes [BitVec.ofNat 32 (toEpoch dt)]).finish .ok)

/-- FROM_EPOCH (42_epoch.md R158). -/
def execFromEpoch (s : State) : Out :=
  withArg s 0 fun t => requireDomain (Config.epochMin ≤ t.toNat && t.toNat ≤ Config.epochMax) s <|
    .next ((s.setRes (fromEpoch s.dowBase t.toNat).toWords).finish .ok)

end Sys2Proof.Machine
end

