-- ==== Sys2Proof/Machine/Moves.lean ====
section
/-!
DEFINITION. The operand moves (46_operand.md). They make no transactions and never change STATUS.
-/
namespace Sys2Proof.Machine

/-- NOP (46_operand.md R240). -/
def execNop (s : State) : Out := .next s.advance

/-- LDI (46_operand.md R241): `ARG[a] <- zext_32(imm)`, `imm` a u16 (30_encoding.md R83). DESIGN CHOICE (log 12): an ill-formed
`imm`, which no word decodes to, is cut to its low 16 bits, as `encode` cuts it. -/
def execLdi (a : Fin 8) (imm : Nat) (s : State) : Out :=
  .next (s.setArg a ((BitVec.ofNat 16 imm).setWidth 32)).advance

/-- The value LDHI writes: `imm` in bits 31:16, bits 15:0 kept (46_operand.md R242). DESIGN CHOICE (log 12): an
ill-formed `imm`, which no word decodes to, is cut to its low 16 bits. -/
def ldhiValue (imm : Nat) (x : Word) : Word := BitVec.ofNat 32 imm <<< 16 ||| (x &&& 0xFFFF)

/-- LDHI (46_operand.md R242). -/
def execLdhi (a : Fin 8) (imm : Nat) (s : State) : Out :=
  withArg s a fun x => .next (s.setArg a (ldhiValue imm x)).advance

/-- MOV (46_operand.md R243): `ARG[a] <- RES[r]`. -/
def execMov (a r : Fin 8) (s : State) : Out :=
  withRes s r fun x => .next (s.setArg a x).advance

end Sys2Proof.Machine
end

