-- ==== Sys2Proof/Machine/Control.lean ====
section
/-!
DEFINITION. The control and status bitfields (44_control.md): every write is an RMW.
-/
namespace Sys2Proof.Machine

/-- SET_OSC_ENABLE (44_control.md R201): EOSC is active low. -/
def execSetOscEnable (s : State) : Out :=
  withArg s 0 fun en => requireDomain (isBoolean en) s <|
    .next (finishWr .transportFail
      (if en = 1 then rmw addrControl bitEOSC 0x00 s else rmw addrControl 0x00 bitEOSC s))

/-- SET_SQUARE_WAVE (44_control.md R202, R203): q in 0..3 selects RS2:RS1 and clears INTCN, 4 sets INTCN. -/
def execSetSquareWave (s : State) : Out :=
  withArg s 0 fun q => requireDomain (q.toNat ≤ 4) s <|
    .next (finishWr .transportFail
      (if q.toNat ≤ 3 then rmw addrControl (bitsRS ||| bitINTCN) (toByte q <<< 3) s
       else rmw addrControl 0x00 bitINTCN s))

/-- SET_32KHZ (44_control.md R204). -/
def execSet32khz (s : State) : Out :=
  withArg s 0 fun en => requireDomain (isBoolean en) s <|
    .next (finishWr .transportFail
      (if en = 1 then rmw addrStatus 0x00 bitEN32kHz s else rmw addrStatus bitEN32kHz 0x00 s))

/-- What `StartConv()` returns (44_control.md R205). -/
inductive ConvResult where
  | started
  | busy
  | fail
  deriving DecidableEq, Repr

/-- `StartConv()`, the busy-checked conversion trigger (44_control.md R205). -/
def convTrigger (s : State) : ConvResult × State :=
  match txRead addrStatus 1 s with
  | (.fail, s1) => (.fail, s1)
  | (.ok bytes, s1) =>
    if bytes.getD 0 0 &&& bitBSY ≠ 0 then (.busy, s1)
    else
      match rmw addrControl 0x00 bitCONV s1 with
      | (.fail, s2) => (.fail, s2)
      | (.ok, s2) => (.started, s2)

/-- START_CONV (44_control.md R206). -/
def execStartConv (s : State) : Out :=
  .next (match convTrigger s with
    | (.started, s1) => (s1.setRes [1]).finish .ok
    | (.busy, s1) => (s1.setRes [0]).finish .busy
    | (.fail, s1) => (s1.clearRes 1).finish .transportFail)

/-- GET_OSF (44_control.md R207). -/
def execGetOsf (s : State) : Out :=
  .next (match txRead addrStatus 1 s with
    | (.fail, s1) => (s1.clearRes 1).finish .transportFail
    | (.ok bytes, s1) => (s1.setRes [zext32 (bytes.getD 0 0 >>> 7)]).finish .ok)

end Sys2Proof.Machine
end

