-- ==== Sys2Proof/Machine/TempAging.lean ====
section
/-!
DEFINITION. Temperature and aging offset (45_temp_aging.md).
-/
namespace Sys2Proof.Machine

/-- `agingEnc(v)` for v in -128..127 (45_temp_aging.md R220). -/
def agingEnc (v : Int) : Byte :=
  if 0 ≤ v then BitVec.ofInt 8 v else ~~~(BitVec.ofInt 8 (-v)) + 1

/-- `agingDec(b)` (45_temp_aging.md R221). -/
def agingDec (b : Byte) : Int :=
  if b &&& 0x80 = 0 then (b.toNat : Int) else (b.toNat : Int) - 256

/-- `tempDecode(msb, lsb)`: integer degrees, and quarter degrees over 100 (45_temp_aging.md R222). -/
def tempDecode (msb lsb : Byte) : Int × Nat := (agingDec msb, (lsb >>> 6).toNat * 25)

/-- The result words of a decoded temperature (45_temp_aging.md R225, R228). -/
def tempWords (msb lsb : Byte) : List Word :=
  let p := tempDecode msb lsb
  [u32 p.1, BitVec.ofNat 32 p.2]

/-- Reads ARG0 = u32(v) and requires v in -128..127 (45_temp_aging.md R223, R226). -/
def withAging (s : State) (k : Int → Out) : Out :=
  withArg s 0 fun a => requireDomain (-128 ≤ s32 a && s32 a ≤ 127) s (k (s32 a))

/-- AGING_ENC (45_temp_aging.md R223). -/
def execAgingEnc (s : State) : Out :=
  withAging s fun v => .next ((s.setRes [zext32 (agingEnc v)]).finish .ok)

/-- AGING_DEC (45_temp_aging.md R224). -/
def execAgingDec (s : State) : Out :=
  withArg s 0 fun b => requireDomain (isByte b) s <|
    .next ((s.setRes [u32 (agingDec (toByte b))]).finish .ok)

/-- TEMP_DECODE (45_temp_aging.md R225). -/
def execTempDecode (s : State) : Out :=
  withArg s 0 fun msb => withArg s 1 fun lsb => requireDomain (isByte msb && isByte lsb) s <|
    .next ((s.setRes (tempWords (toByte msb) (toByte lsb))).finish .ok)

/-- The effect phase of SET_AGING (45_temp_aging.md R226): the offset write, then the busy-checked trigger. -/
def setAgingEffect (v : Int) (s : State) : State :=
  match txWrite 0x10 [agingEnc v] s with
  | (.fail, s1) => s1.finish .transportFail
  | (.ok, s1) =>
    match convTrigger s1 with
    | (.started, s2) => s2.finish .ok
    | (.busy, s2) => s2.finish .busy
    | (.fail, s2) => s2.finish .convFail

/-- SET_AGING (45_temp_aging.md R226). -/
def execSetAging (s : State) : Out :=
  withAging s fun v => .next (setAgingEffect v s)

/-- GET_AGING (45_temp_aging.md R227). -/
def execGetAging (s : State) : Out :=
  .next (match txRead 0x10 1 s with
    | (.fail, s1) => (s1.clearRes 1).finish .transportFail
    | (.ok bytes, s1) => (s1.setRes [u32 (agingDec (bytes.getD 0 0))]).finish .ok)

/-- GET_TEMP (45_temp_aging.md R228): the pair in one transaction. -/
def execGetTemp (s : State) : Out :=
  .next (match txRead 0x11 2 s with
    | (.fail, s1) => (s1.clearRes 2).finish .transportFail
    | (.ok bytes, s1) => (s1.setRes (tempWords (bytes.getD 0 0) (bytes.getD 1 0))).finish .ok)

end Sys2Proof.Machine
end

