-- ==== Sys2Proof/Machine/Dispatch.lean ====
section
/-!
DEFINITION. One arm for each command of the opcode map (30_encoding.md R85): its meaning.
-/
namespace Sys2Proof.Machine

def exec (i : Instr) (s : State) : Host.Outcome State Fault Refusal :=
  match i with
  | .nop => Sys2Proof.Machine.execNop s
  | .ldi a imm => Sys2Proof.Machine.execLdi a imm s
  | .ldhi a imm => Sys2Proof.Machine.execLdhi a imm s
  | .mov a r => Sys2Proof.Machine.execMov a r s
  | .bcdEnc => Sys2Proof.Machine.execBcdEnc s
  | .bcdDec => Sys2Proof.Machine.execBcdDec s
  | .dtValidate => Sys2Proof.Machine.execDtValidate s
  | .dtEncode => Sys2Proof.Machine.execDtEncode s
  | .dtDecode => Sys2Proof.Machine.execDtDecode s
  | .timeDecode => Sys2Proof.Machine.execTimeDecode s
  | .setDatetime => Sys2Proof.Machine.execSetDatetime s
  | .getDatetime => Sys2Proof.Machine.execGetDatetime s
  | .getTime => Sys2Proof.Machine.execGetTime s
  | .setTime => Sys2Proof.Machine.execSetTime s
  | .isLeap => Sys2Proof.Machine.execIsLeap s
  | .daysInMonth => Sys2Proof.Machine.execDaysInMonth s
  | .daysBeforeMonth => Sys2Proof.Machine.execDaysBeforeMonth s
  | .daysBeforeYear => Sys2Proof.Machine.execDaysBeforeYear s
  | .toEpoch => Sys2Proof.Machine.execToEpoch s
  | .fromEpoch => Sys2Proof.Machine.execFromEpoch s
  | .alarm1Encode => Sys2Proof.Machine.execAlarm1Encode s
  | .alarm2Encode => Sys2Proof.Machine.execAlarm2Encode s
  | .setAlarm1 => Sys2Proof.Machine.execSetAlarm1 s
  | .setAlarm2 => Sys2Proof.Machine.execSetAlarm2 s
  | .alarmIntEnable => Sys2Proof.Machine.execAlarmIntEnable s
  | .getAlarmFlag => Sys2Proof.Machine.execGetAlarmFlag s
  | .clearAlarmFlag => Sys2Proof.Machine.execClearAlarmFlag s
  | .setOscEnable => Sys2Proof.Machine.execSetOscEnable s
  | .setSquareWave => Sys2Proof.Machine.execSetSquareWave s
  | .set32khz => Sys2Proof.Machine.execSet32khz s
  | .startConv => Sys2Proof.Machine.execStartConv s
  | .getOsf => Sys2Proof.Machine.execGetOsf s
  | .agingEnc => Sys2Proof.Machine.execAgingEnc s
  | .agingDec => Sys2Proof.Machine.execAgingDec s
  | .tempDecode => Sys2Proof.Machine.execTempDecode s
  | .setAging => Sys2Proof.Machine.execSetAging s
  | .getAging => Sys2Proof.Machine.execGetAging s
  | .getTemp => Sys2Proof.Machine.execGetTemp s

end Sys2Proof.Machine
end

