-- ==== Sys2Proof/Machine/Step.lean ====
section
/-!
DEFINITION. One step: fetch, decode, execute (00_scope.md R5, 30_encoding.md R87).
-/
namespace Sys2Proof.Machine

/-- One command (00_scope.md R5). An illegal word raises ILLEGAL_COMMAND before any operand is read (30_encoding.md R86,
60_exceptions.md R263). -/
def step (s : State) : Host.Outcome State Fault Refusal :=
  match fetch s with
  | .stop f => .fault f
  | .word w =>
    match decode w with
    | .ok i => exec i s
    | .error _ => raise .illegalCommand s

/-- The state with the word of `nbits` bits `w` (every bit above them 0) at PROG[pc], where the next step fetches. -/
def State.withFetchWord (s : State) (nbits w : Nat) : State :=
  { s with prog := placeWord s.prog s.pc (BitVec.ofNat 32 (w % 2 ^ nbits)) }

end Sys2Proof.Machine
end

