-- ==== Sys2Proof/Machine/Asm.lean ====
section
/-!
DEFINITION. The assembler (30_encoding.md R88) and its pseudo-instructions (R89): a spelling of the same commands
(00_scope.md R5). Text is a list of characters.
-/
namespace Sys2Proof.Machine

/-- The mnemonics of the opcode map, in capitals (30_encoding.md R85, R88). -/
def mnemonicOf : Instr → String
  | .nop => "NOP"
  | .ldi _ _ => "LDI"
  | .ldhi _ _ => "LDHI"
  | .mov _ _ => "MOV"
  | .bcdEnc => "BCD_ENC"
  | .bcdDec => "BCD_DEC"
  | .dtValidate => "DT_VALIDATE"
  | .dtEncode => "DT_ENCODE"
  | .dtDecode => "DT_DECODE"
  | .timeDecode => "TIME_DECODE"
  | .setDatetime => "SET_DATETIME"
  | .getDatetime => "GET_DATETIME"
  | .getTime => "GET_TIME"
  | .setTime => "SET_TIME"
  | .isLeap => "IS_LEAP"
  | .daysInMonth => "DAYS_IN_MONTH"
  | .daysBeforeMonth => "DAYS_BEFORE_MONTH"
  | .daysBeforeYear => "DAYS_BEFORE_YEAR"
  | .toEpoch => "TO_EPOCH"
  | .fromEpoch => "FROM_EPOCH"
  | .alarm1Encode => "ALARM1_ENCODE"
  | .alarm2Encode => "ALARM2_ENCODE"
  | .setAlarm1 => "SET_ALARM1"
  | .setAlarm2 => "SET_ALARM2"
  | .alarmIntEnable => "ALARM_INT_ENABLE"
  | .getAlarmFlag => "GET_ALARM_FLAG"
  | .clearAlarmFlag => "CLEAR_ALARM_FLAG"
  | .setOscEnable => "SET_OSC_ENABLE"
  | .setSquareWave => "SET_SQUARE_WAVE"
  | .set32khz => "SET_32KHZ"
  | .startConv => "START_CONV"
  | .getOsf => "GET_OSF"
  | .agingEnc => "AGING_ENC"
  | .agingDec => "AGING_DEC"
  | .tempDecode => "TEMP_DECODE"
  | .setAging => "SET_AGING"
  | .getAging => "GET_AGING"
  | .getTemp => "GET_TEMP"

/-- The commands without operands (format Z, 30_encoding.md R82). -/
def plainCommands : List Instr :=
  [.nop, .bcdEnc, .bcdDec, .dtValidate, .dtEncode, .dtDecode, .timeDecode, .setDatetime, .getDatetime, .getTime, .setTime,
    .isLeap, .daysInMonth, .daysBeforeMonth, .daysBeforeYear, .toEpoch, .fromEpoch, .alarm1Encode, .alarm2Encode, .setAlarm1,
    .setAlarm2, .alarmIntEnable, .getAlarmFlag, .clearAlarmFlag, .setOscEnable, .setSquareWave, .set32khz, .startConv, .getOsf,
    .agingEnc, .agingDec, .tempDecode, .setAging, .getAging, .getTemp]

/-- `LI a<n>, <v>` for v in [-2^31, 2^32) (30_encoding.md R89). -/
def expandLI (a : Fin 8) (v : Int) : Option (List Instr) :=
  if -2 ^ 31 ≤ v ∧ v < 2 ^ 32 then
    let u := (v % 2 ^ 32).toNat
    if u < 0x10000 then some [.ldi a u] else some [.ldi a (u % 0x10000), .ldhi a (u / 0x10000)]
  else none

/-- The registers a0..a7 (or r0..r7) in order. -/
def regsInOrder : List (Fin 8) := [0, 1, 2, 3, 4, 5, 6, 7]

/-- `LDDT s, mi, h, dw, dm, mo, y`, each value in 0..65535 (30_encoding.md R89). -/
def expandLDDT (vals : List Nat) : Option (List Instr) :=
  if vals.length = 7 ∧ vals.all (fun v => immInRange v) then some (List.zipWith Instr.ldi regsInOrder vals) else none

/-- `MOVR n` for n in 1..8 (30_encoding.md R89). -/
def expandMOVR (n : Nat) : Option (List Instr) :=
  if 1 ≤ n ∧ n ≤ 8 then some ((regsInOrder.take n).map fun i => .mov i i) else none

/-- Blanks between the parts of a line. DESIGN CHOICE (log 13): the spec names no blanks. -/
def isBlank (c : Char) : Bool := c = ' ' || c = '\t' || c = '\r'

/-- The text without blanks at its two ends. -/
def trimBlanks (cs : List Char) : List Char := ((cs.dropWhile isBlank).reverse.dropWhile isBlank).reverse

/-- The parts of a text between separators. -/
def splitAt (sep : Char) (cs : List Char) : List (List Char) :=
  cs.foldr (fun c parts =>
    match parts with
    | p :: ps => if c = sep then [] :: p :: ps else (c :: p) :: ps
    | [] => if c = sep then [[], []] else [[c]]) [[]]

/-- The value of a digit in a base up to 16. DESIGN CHOICE (log 13): a hexadecimal digit may be of either case. -/
def digitValue (base : Nat) (c : Char) : Option Nat :=
  let n := c.toNat
  let v :=
    if 48 ≤ n ∧ n ≤ 57 then n - 48
    else if 65 ≤ n ∧ n ≤ 70 then n - 55
    else if 97 ≤ n ∧ n ≤ 102 then n - 87
    else base
  if v < base then some v else none

/-- The value of a nonempty run of digits. -/
def digitsValue (base : Nat) (cs : List Char) : Option Nat :=
  match cs with
  | [] => none
  | _ => cs.foldl (fun acc c => match acc, digitValue base c with
      | some n, some d => some (n * base + d)
      | _, _ => none) (some 0)

/-- A decimal or `0x` hexadecimal number (30_encoding.md R88). DESIGN CHOICE (log 13): the prefix is `0x` as the rule spells it,
and `0X` is refused; leading zeros are allowed. -/
def parseNumber (cs : List Char) : Option Nat :=
  match cs with
  | '0' :: 'x' :: t => digitsValue 16 t
  | _ => digitsValue 10 cs

/-- A number that may be negative, for LI (30_encoding.md R89). DESIGN CHOICE (log 13): the rule gives a range only; a decimal or
`0x` number is taken, with or without a minus sign before it. -/
def parseInteger (cs : List Char) : Option Int :=
  match cs with
  | '-' :: t => (parseNumber t).map fun n => -(n : Int)
  | _ => (parseNumber cs).map fun n => (n : Int)

/-- `a<n>` or `r<n>` with n in 0..7 (30_encoding.md R88). -/
def parseReg (letter : Char) (cs : List Char) : Option (Fin 8) :=
  match cs with
  | [l, d] =>
    match digitValue 8 d with
    | some n => if l = letter then some (Fin.ofNat 8 n) else none
    | none => none
  | _ => none

/-- An immediate in 0..65535 (30_encoding.md R88). -/
def parseImm (cs : List Char) : Option Nat :=
  match parseNumber cs with
  | some n => if immInRange n then some n else none
  | none => none

/-- A register and an immediate (30_encoding.md R88). -/
def parseRegImm (ops : List (List Char)) : Option (Fin 8 × Nat) :=
  match ops with
  | [a, imm] => do some (← parseReg 'a' a, ← parseImm imm)
  | _ => none

/-- An ARG and a RES register (30_encoding.md R88). -/
def parseRegReg (ops : List (List Char)) : Option (Fin 8 × Fin 8) :=
  match ops with
  | [a, r] => do some (← parseReg 'a' a, ← parseReg 'r' r)
  | _ => none

/-- A register and a number that may be negative (30_encoding.md R89). -/
def parseRegInt (ops : List (List Char)) : Option (Fin 8 × Int) :=
  match ops with
  | [a, v] => do some (← parseReg 'a' a, ← parseInteger v)
  | _ => none

/-- The `n` of MOVR (30_encoding.md R89). DESIGN CHOICE (log 13): the rule gives a range only; a decimal or `0x` number is taken. -/
def parseOneNumber (ops : List (List Char)) : Option Nat :=
  match ops with
  | [n] => parseNumber n
  | _ => none

/-- A command without operands (30_encoding.md R88). -/
def parsePlain (name : String) (ops : List (List Char)) : Option (List Instr) :=
  if ops = [] then (plainCommands.find? fun i => mnemonicOf i = name).map fun i => [i] else none

/-- The commands of a mnemonic with its operands (30_encoding.md R88, R89). DESIGN CHOICE (log 13): R89 gives a range only for the
values of LDDT; each is taken as an immediate of R88, decimal or `0x`. -/
def assembleParts (name : String) (ops : List (List Char)) : Option (List Instr) :=
  if name = "LDI" then (parseRegImm ops).map fun p => [.ldi p.1 p.2]
  else if name = "LDHI" then (parseRegImm ops).map fun p => [.ldhi p.1 p.2]
  else if name = "MOV" then (parseRegReg ops).map fun p => [.mov p.1 p.2]
  else if name = "LI" then (parseRegInt ops).bind fun p => expandLI p.1 p.2
  else if name = "LDDT" then (ops.mapM parseImm).bind expandLDDT
  else if name = "MOVR" then (parseOneNumber ops).bind expandMOVR
  else parsePlain name ops

/-- The commands of one line: a comment runs from `;` to the end, a blank line holds none (30_encoding.md R88;
DESIGN CHOICE, log 13: blank lines). -/
def assembleLine (line : List Char) : Option (List Instr) :=
  let text := trimBlanks (line.takeWhile fun c => c ≠ ';')
  let name := text.takeWhile fun c => !isBlank c
  let rest := trimBlanks (text.dropWhile fun c => !isBlank c)
  if name = [] then some []
  else assembleParts (String.ofList name) (if rest = [] then [] else (splitAt ',' rest).map trimBlanks)

/-- The words of a program text, one command per line (30_encoding.md R88). -/
def assemble (text : List Char) : Option (List Word) := do
  let lines ← (splitAt '\n' text).mapM assembleLine
  some (lines.flatten.map encode)

end Sys2Proof.Machine
end

