-- ==== Sys2Proof/Machine/SimPeripheral.lean ====
section
/-!
DEFINITION. SimPeripheral, the deterministic reference peripheral (20_memory.md R67): a test oracle, not the device. It is one of
the draw schedules the port admits: the peripheral never acts by itself and a failed write changes nothing.
-/
namespace Sys2Proof.Machine

/-- A draw of SimPeripheral: the transaction succeeds or fails, and the peripheral does nothing else (20_memory.md R67). -/
def simDraw (ok : Bool) : Draw := ⟨ok, [], []⟩

/-- The draws of SimPeripheral for `count` transactions from HIST index `start`, with the failure schedule `fails`
(20_memory.md R67). -/
def simDraws (fails : List Nat) (start count : Nat) : List Draw :=
  (List.range count).map fun i => simDraw (!fails.contains (start + i))

/-- The register image `IMG[0x00..0x12]` as cells; bytes not given are 0 (20_memory.md R67). -/
def simImage (img : List Byte) : Memory :=
  (List.range Config.regCount).map fun a => (a, img.getD a 0)

/-- A state whose next `count` transactions are answered by SimPeripheral with the image `img` (20_memory.md R67). -/
def State.withSim (s : State) (img : List Byte) (fails : List Nat) (count : Nat) : State :=
  { s with periph := simImage img, draws := simDraws fails s.hist.length count }

end Sys2Proof.Machine
end

