-- ==== Sys2Proof/Safety.lean ====
section
/-!
DEFINITION. The terms claims are stated in: the end of a run and its observation, the invariant, what a completed command leaves
unchanged, the transaction sequences of the rules, and the tables of 10_state.md R38, 30_encoding.md R85 and 60_exceptions.md R261
as plain data, written from the spec and not from the meanings.
-/
namespace Sys2Proof.Machine

/-! ### The end of a run -/

/-- A run of PROG has ended normally (70_reset_and_hazards.md R293). -/
abbrev EndedNormally (s : State) : Prop := s.fault = none ∧ s.pc = s.prog.length

/-- What is observed of a normally ended run: the final ARG, RES, STATUS and HIST (70_reset_and_hazards.md R293). -/
structure Observation where
  arg : RegFile
  res : RegFile
  status : Byte
  hist : List Event
  deriving DecidableEq, Repr

/-- The observation, of a state where the run has ended normally (70_reset_and_hazards.md R293). -/
def observe (s : State) : Option Observation :=
  if s.fault.isNone ∧ s.pc = s.prog.length then some ⟨s.arg, s.res, s.status, s.hist⟩ else none

/-! ### The invariant -/

/-- The pc of the command that issued an event (10_state.md R29). -/
def Event.issuer : Event → Nat
  | .rd pc _ _ _ => pc
  | .wr pc _ _ _ => pc

/-- The transaction succeeded. -/
def Event.succeeded : Event → Bool
  | .rd _ _ _ (.ok _) => true
  | .rd _ _ _ .fail => false
  | .wr _ _ _ .ok => true
  | .wr _ _ _ .fail => false

/-- An event is inside 0x00..0x12 and a successful read returned as many bytes as asked (20_memory.md R52, R53, R54). -/
def Event.inBounds : Event → Prop
  | .rd _ start n (.ok bytes) => 1 ≤ n ∧ start + n ≤ 0x13 ∧ bytes.length = n
  | .rd _ start n .fail => 1 ≤ n ∧ start + n ≤ 0x13
  | .wr _ start bytes _ => 1 ≤ bytes.length ∧ start + bytes.length ≤ 0x13

/-- STATUS holds one of the codes of the table (10_state.md R24). -/
abbrev StatusLegal (b : Byte) : Prop := b ∈ [0x00, 0x01, 0x02, 0x03, 0x04, 0x05, 0x06, 0x07, 0xFF].map (BitVec.ofNat 8)

/-- The invariant every step keeps: the peripheral's cells in canonical form; STATUS a code of the table (R24); pc inside the
stream or at its end (R27); a fault record about the command at pc (R25, R262); every event in bounds (R54), issued by an earlier
command, and the events in pc order (20_memory.md R62). -/
structure Inv (s : State) : Prop where
  periphWf : s.periph.wf
  statusLegal : StatusLegal s.status
  pcInStream : s.pc ≤ s.prog.length
  faultAtPc : ∀ r, s.fault = some r → r.fpc = s.pc ∧ s.prog[s.pc]? = some r.fword
  histInBounds : ∀ e ∈ s.hist, e.inBounds
  histEarlier : ∀ e ∈ s.hist, e.issuer < s.pc
  histOrdered : s.hist.Pairwise fun e f => e.issuer ≤ f.issuer

/-! ### What a completed command leaves unchanged -/

/-- ARG0, ARG1, .. hold the given words. -/
abbrev ArgsAre (s : State) (vs : List Word) : Prop :=
  ∀ k : Fin 8, ∀ h : k.val < vs.length, s.argAt k = some vs[k.val]

/-- RES0, RES1, .. took the given contents and every other RES register is as before (10_state.md R22). -/
abbrev ResWritten (s t : State) (vals : List (Option Word)) : Prop :=
  ∀ k : Fin 8, t.resAt k = if h : k.val < vals.length then vals[k.val] else s.resAt k

/-- No transaction was made: HIST, the peripheral's registers and the draws are as before. -/
abbrev NoTransaction (s t : State) : Prop :=
  t.hist = s.hist ∧ t.periph = s.periph ∧ t.draws = s.draws ∧ t.drawCount = s.drawCount

/-- A pure command completed: the given words in RES0.., the given code in STATUS, pc advanced, all else unchanged. -/
abbrev PureResult (s t : State) (vals : List Word) (code : Byte) : Prop :=
  ResWritten s t (vals.map some) ∧ t.status = code ∧ t.pc = s.pc + 1 ∧
  t.arg = s.arg ∧ t.fault = s.fault ∧ t.dowBase = s.dowBase ∧ t.prog = s.prog ∧ NoTransaction s t

/-- An operand move completed: ARG[a] written, pc advanced, all else unchanged, STATUS among it (46_operand.md). -/
abbrev MoveResult (s t : State) (a : Fin 8) (v : Word) : Prop :=
  (∀ k : Fin 8, t.argAt k = if k = a then some v else s.argAt k) ∧ t.pc = s.pc + 1 ∧
  t.res = s.res ∧ t.status = s.status ∧ t.fault = s.fault ∧ t.dowBase = s.dowBase ∧ t.prog = s.prog ∧ NoTransaction s t

/-- A sequenced command completed: the given events appended to HIST, one draw taken for each, the given contents in RES0.., the
given code in STATUS, pc advanced; ARG, FAULT, DOW_BASE and PROG unchanged. What the peripheral holds is the draws' (20_memory.md R55). -/
abbrev SequencedResult (s t : State) (events : List Event) (vals : List (Option Word)) (code : Byte) : Prop :=
  t.hist = s.hist ++ events ∧ ResWritten s t vals ∧ t.status = code ∧ t.pc = s.pc + 1 ∧
  t.arg = s.arg ∧ t.fault = s.fault ∧ t.dowBase = s.dowBase ∧ t.prog = s.prog ∧
  t.draws = s.draws.drop events.length ∧ t.drawCount = s.drawCount + events.length

/-- The state with the fault record of the command word `w` (60_exceptions.md R262): nothing else changes. -/
def faultedWith (s : State) (cause : FaultCause) (w : Word) : State :=
  { s with fault := some ⟨cause, s.pc, w⟩ }

/-! ### The draws -/

/-- The draw of the j-th transaction from `s` on. -/
def State.drawAt (s : State) (j : Nat) : Draw := (s.draws[j]?).getD (Config.freeDraw (s.drawCount + j))

/-- The draw says nothing of register `a`: the peripheral leaves it alone. -/
abbrev DrawSilentAt (d : Draw) (a : Nat) : Prop := (∀ c ∈ d.before, c.1 ≠ a) ∧ (∀ c ∈ d.after, c.1 ≠ a)

/-- The draw is one of SimPeripheral's: the transaction succeeds or fails and the peripheral does nothing by itself
(20_memory.md R67). -/
abbrev DrawQuiet (d : Draw) : Prop := d.before = [] ∧ d.after = []

/-- The peripheral's cells after the successful writes of a list of events, in order (20_memory.md R59, R67). -/
def replay (m : Memory) : List Event → Memory
  | [] => m
  | .wr _ start bytes .ok :: rest => replay (m.storeBytes start bytes) rest
  | _ :: rest => replay m rest

/-! ### Transaction sequences of the rules -/

/-- The events of `RMW(addr, clr, set)` and its result (20_memory.md R58): a failed read alone, or a read of `v` and a write of
`(v & ~clr) | set`. -/
def IsRmw (pc addr : Nat) (clr set : Byte) (events : List Event) (r : WrResult) : Prop :=
  (events = [.rd pc addr 1 .fail] ∧ r = .fail) ∨
  ∃ v : Byte, events = [.rd pc addr 1 (.ok [v]), .wr pc addr [(v &&& ~~~clr) ||| set] r]

/-- The events of `WriteDateTime` with the block `bs`, and its code (41_datetime.md R130). -/
def IsWriteDateTime (pc : Nat) (bs : List Byte) (events : List Event) (code : Byte) : Prop :=
  (events = [.wr pc 0x00 bs .fail] ∧ code = 0x01) ∨
  (∃ e1, events = .wr pc 0x00 bs .ok :: e1 ∧ IsRmw pc 0x0E 0x80 0x00 e1 .fail ∧ code = 0x04) ∨
  (∃ e1 e2, events = .wr pc 0x00 bs .ok :: (e1 ++ e2) ∧ IsRmw pc 0x0E 0x80 0x00 e1 .ok ∧
    ((IsRmw pc 0x0F 0x80 0x00 e2 .fail ∧ code = 0x05) ∨ (IsRmw pc 0x0F 0x80 0x00 e2 .ok ∧ code = 0x00)))

/-- The events of an alarm write with the block `bs` and the flag clear of bit `flag`, and their code (43_alarm.md R180, R181). -/
def IsSetAlarm (pc start : Nat) (bs : List Byte) (flag : Byte) (events : List Event) (code : Byte) : Prop :=
  (events = [.wr pc start bs .fail] ∧ code = 0x01) ∨
  (∃ e1, events = .wr pc start bs .ok :: e1 ∧
    ((IsRmw pc 0x0F flag 0x00 e1 .fail ∧ code = 0x06) ∨ (IsRmw pc 0x0F flag 0x00 e1 .ok ∧ code = 0x00)))

/-- How `StartConv()` ended (44_control.md R205). -/
inductive ConvEnd where
  | started
  | busy
  | failed
  deriving DecidableEq, Repr

/-- The events of `StartConv()` and how it ended (44_control.md R205): BSY is bit 2 of the byte read from 0x0F. -/
def IsStartConv (pc : Nat) (events : List Event) (r : ConvEnd) : Prop :=
  (events = [.rd pc 0x0F 1 .fail] ∧ r = .failed) ∨
  (∃ v : Byte, v.getLsbD 2 = true ∧ events = [.rd pc 0x0F 1 (.ok [v])] ∧ r = .busy) ∨
  (∃ (v : Byte) (e1 : List Event), v.getLsbD 2 = false ∧ events = .rd pc 0x0F 1 (.ok [v]) :: e1 ∧
    ((IsRmw pc 0x0E 0x00 0x20 e1 .fail ∧ r = .failed) ∨ (IsRmw pc 0x0E 0x00 0x20 e1 .ok ∧ r = .started)))

/-! ### Values of the rules in arithmetic -/

/-- The BCD byte of d in arithmetic: tens in bits 7:4, ones in bits 3:0 (40_bcd.md R100). -/
def bcdByte (d : Nat) : Byte := BitVec.ofNat 8 (16 * (d / 10) + d % 10)

/-- The decimal value of the low `m` values of a byte read as BCD, `m` a power of two: `bcdDec(b & (m - 1))` in arithmetic
(40_bcd.md R101, 41_datetime.md R120). -/
def maskedBcd (m b : Nat) : Nat := 10 * (b % m / 16) + b % m % 16

/-- The seven fields a register block decodes to, before validation (41_datetime.md R120, R124). -/
def blockDateTime (b0 b1 b2 b3 b4 b5 b6 : Nat) : DateTime :=
  ⟨maskedBcd 128 b0, maskedBcd 128 b1, maskedBcd 64 b2, maskedBcd 8 b3, maskedBcd 64 b4, maskedBcd 32 b5,
    2000 + maskedBcd 256 b6⟩

/-- Range validity of a DateTime under a `DOW_BASE` (41_datetime.md R121, 00_scope.md R6). -/
abbrev FieldsInRange (base : DowBase) (dt : DateTime) : Prop :=
  dt.second ≤ 59 ∧ dt.minute ≤ 59 ∧ dt.hour ≤ 23 ∧ base.toNat ≤ dt.dayOfWeek ∧ dt.dayOfWeek ≤ base.toNat + 6 ∧
  1 ≤ dt.dayOfMonth ∧ dt.dayOfMonth ≤ 31 ∧ 1 ≤ dt.month ∧ dt.month ≤ 12 ∧ 2000 ≤ dt.year ∧ dt.year ≤ 2099

/-- The register block of a DateTime (41_datetime.md R123). -/
def blockOf (dt : DateTime) : List Byte :=
  [bcdByte dt.second, bcdByte dt.minute, bcdByte dt.hour, bcdByte dt.dayOfWeek, bcdByte dt.dayOfMonth, bcdByte dt.month,
    bcdByte (dt.year - 2000)]

/-- The DateTime operand in seven words (00_scope.md R10). -/
def dateTimeOf (a0 a1 a2 a3 a4 a5 a6 : Word) : DateTime :=
  ⟨a0.toNat, a1.toNat, a2.toNat, a3.toNat, a4.toNat, a5.toNat, a6.toNat⟩

/-- The six fields `toEpoch` reads, in the order of 42_epoch.md R151. -/
def chronoKey (dt : DateTime) : List Nat := [dt.year, dt.month, dt.dayOfMonth, dt.hour, dt.minute, dt.second]

/-- An alarm's minutes, hours and day/date are in domain under a `DOW_BASE` (43_alarm.md R174); `dayMode` is M[4]. -/
abbrev AlarmFieldsInRange (base : DowBase) (dayMode : Prop) (mi h dd : Nat) : Prop :=
  mi ≤ 59 ∧ h ≤ 23 ∧ ((dayMode ∧ base.toNat ≤ dd ∧ dd ≤ base.toNat + 6) ∨ (¬ dayMode ∧ 1 ≤ dd ∧ dd ≤ 31))

/-! ### The spec's tables -/

/-- The opcodes not in the opcode map, as 30_encoding.md R86 lists them. -/
abbrev UnassignedOpcode (op : Nat) : Prop :=
  (0x04 ≤ op ∧ op ≤ 0x0F) ∨ (0x12 ≤ op ∧ op ≤ 0x1F) ∨ (0x24 ≤ op ∧ op ≤ 0x27) ∨ (0x2C ≤ op ∧ op ≤ 0x2F) ∨
  (0x36 ≤ op ∧ op ≤ 0x3F) ∨ (0x42 ≤ op ∧ op ≤ 0x47) ∨ (0x4D ≤ op ∧ op ≤ 0x4F) ∨ (0x55 ≤ op ∧ op ≤ 0x5F) ∨
  (0x63 ≤ op ∧ op ≤ 0x67) ∨ (0x6B ≤ op ∧ op ≤ 0xFF)

/-- One of the bits lo..hi of a word is 1. -/
def SomeBitSet (w : Word) (lo hi : Nat) : Prop := ∃ b, lo ≤ b ∧ b ≤ hi ∧ w.getLsbD b = true

/-- An illegal word (30_encoding.md R82, R86): its opcode is unassigned, or a bit its format requires to be zero is 1. -/
def IllegalWord (w : Word) : Prop :=
  UnassignedOpcode (w.toNat % 256) ∨
  ((w.toNat % 256 = 0x01 ∨ w.toNat % 256 = 0x02) ∧ SomeBitSet w 11 15) ∨
  (w.toNat % 256 = 0x03 ∧ SomeBitSet w 14 31) ∨
  (w.toNat % 256 ≠ 0x01 ∧ w.toNat % 256 ≠ 0x02 ∧ w.toNat % 256 ≠ 0x03 ∧ SomeBitSet w 8 31)

/-- How many of ARG0, ARG1, .. a command of fixed operands reads (30_encoding.md R85). -/
def argsRead : Instr → Nat
  | .bcdEnc | .bcdDec | .isLeap | .daysBeforeYear | .fromEpoch | .getAlarmFlag | .clearAlarmFlag => 1
  | .setOscEnable | .setSquareWave | .set32khz | .agingEnc | .agingDec | .setAging => 1
  | .daysInMonth | .daysBeforeMonth | .alarmIntEnable | .tempDecode => 2
  | .timeDecode | .setTime => 3
  | .alarm2Encode | .setAlarm2 => 4
  | .alarm1Encode | .setAlarm1 => 5
  | .dtValidate | .dtEncode | .dtDecode | .setDatetime | .toEpoch => 7
  | .nop | .ldi _ _ | .ldhi _ _ | .mov _ _ | .getDatetime | .getTime | .startConv | .getOsf | .getAging | .getTemp => 0

/-- A register the command reads holds ⊥ (30_encoding.md R85): ARG0.. of a command of fixed operands, ARG[a] of LDHI, RES[r] of
MOV. -/
def ReadsUnwritten (i : Instr) (s : State) : Prop :=
  match i with
  | .ldhi a _ => s.argAt a = none
  | .mov _ r => s.resAt r = none
  | _ => ∃ k : Fin 8, k.val < argsRead i ∧ s.argAt k = none

/-- How many of RES0, RES1, .. a command writes (30_encoding.md R85). -/
def resWrites : Instr → Nat
  | .bcdEnc | .bcdDec | .dtValidate | .isLeap | .daysInMonth | .daysBeforeMonth | .daysBeforeYear | .toEpoch => 1
  | .getAlarmFlag | .startConv | .getOsf | .agingEnc | .agingDec | .getAging => 1
  | .tempDecode | .getTemp => 2
  | .timeDecode | .getTime | .alarm2Encode => 3
  | .alarm1Encode => 4
  | .dtEncode | .dtDecode | .getDatetime | .fromEpoch => 7
  | .nop | .ldi _ _ | .ldhi _ _ | .mov _ _ | .setDatetime | .setTime | .setAlarm1 | .setAlarm2 | .alarmIntEnable => 0
  | .clearAlarmFlag | .setOscEnable | .setSquareWave | .set32khz | .setAging => 0

/-- The operands lie in the command's domain (60_exceptions.md R261); `v k` is the unsigned value of ARG[k] and `base` the
run's DOW_BASE. -/
def InDomain (base : DowBase) (i : Instr) (v : Nat → Nat) : Prop :=
  match i with
  | .bcdEnc => v 0 ≤ 99
  | .bcdDec => v 0 ≤ 0xFF
  | .dtEncode | .setDatetime | .toEpoch => FieldsInRange base ⟨v 0, v 1, v 2, v 3, v 4, v 5, v 6⟩
  | .dtDecode => ∀ k, k ≤ 6 → v k ≤ 0xFF
  | .timeDecode => ∀ k, k ≤ 2 → v k ≤ 0xFF
  | .setTime => v 0 ≤ 59 ∧ v 1 ≤ 59 ∧ v 2 ≤ 23
  | .isLeap | .daysBeforeYear => 2000 ≤ v 0 ∧ v 0 ≤ 2099
  | .daysInMonth | .daysBeforeMonth => 2000 ≤ v 0 ∧ v 0 ≤ 2099 ∧ 1 ≤ v 1 ∧ v 1 ≤ 12
  | .fromEpoch => 946684800 ≤ v 0 ∧ v 0 ≤ 4102444799
  | .alarm1Encode | .setAlarm1 =>
    v 0 ∈ [0x0F, 0x0E, 0x0C, 0x08, 0x00, 0x10] ∧ v 1 ≤ 59 ∧ AlarmFieldsInRange base (v 0 = 0x10) (v 2) (v 3) (v 4)
  | .alarm2Encode | .setAlarm2 =>
    v 0 ∈ [0x0E, 0x0C, 0x08, 0x00, 0x10] ∧ AlarmFieldsInRange base (v 0 = 0x10) (v 1) (v 2) (v 3)
  | .alarmIntEnable => (v 0 = 1 ∨ v 0 = 2) ∧ v 1 ≤ 1
  | .getAlarmFlag | .clearAlarmFlag => v 0 = 1 ∨ v 0 = 2
  | .setOscEnable | .set32khz => v 0 ≤ 1
  | .setSquareWave => v 0 ≤ 4
  | .agingEnc | .setAging => v 0 ≤ 127 ∨ (2 ^ 32 - 128 ≤ v 0 ∧ v 0 < 2 ^ 32)
  | .agingDec => v 0 ≤ 0xFF
  | .tempDecode => v 0 ≤ 0xFF ∧ v 1 ≤ 0xFF
  | .nop | .ldi _ _ | .ldhi _ _ | .mov _ _ | .dtValidate => True
  | .getDatetime | .getTime | .startConv | .getOsf | .getAging | .getTemp => True

/-- The unsigned value of ARG[k], for k in 0..7. -/
def argValue (s : State) (k : Nat) : Nat := ((s.argAt (Fin.ofNat 8 k)).getD 0).toNat

/-- The shape of an event: whether it is a write, its start address and its width. -/
def Event.shape : Event → Bool × Nat × Nat
  | .rd _ start n _ => (false, start, n)
  | .wr _ start bytes _ => (true, start, bytes.length)

/-- The shape of an RMW: a one-byte read and a one-byte write (20_memory.md R58). -/
def rmwShape (addr : Nat) : List (Bool × Nat × Nat) := [(false, addr, 1), (true, addr, 1)]

/-- The transactions of a command when all of them are made, in order (10_state.md R38). -/
def transactionRow : Instr → List (Bool × Nat × Nat)
  | .setDatetime => (true, 0x00, 7) :: (rmwShape 0x0E ++ rmwShape 0x0F)
  | .getDatetime => [(false, 0x00, 7)]
  | .getTime => [(false, 0x00, 3)]
  | .setTime => (false, 0x00, 7) :: (true, 0x00, 7) :: (rmwShape 0x0E ++ rmwShape 0x0F)
  | .setAlarm1 => (true, 0x07, 4) :: rmwShape 0x0F
  | .setAlarm2 => (true, 0x0B, 3) :: rmwShape 0x0F
  | .alarmIntEnable => rmwShape 0x0F ++ rmwShape 0x0E
  | .getAlarmFlag | .getOsf => [(false, 0x0F, 1)]
  | .clearAlarmFlag | .set32khz => rmwShape 0x0F
  | .setOscEnable | .setSquareWave => rmwShape 0x0E
  | .startConv => (false, 0x0F, 1) :: rmwShape 0x0E
  | .setAging => (true, 0x10, 1) :: (false, 0x0F, 1) :: rmwShape 0x0E
  | .getAging => [(false, 0x10, 1)]
  | .getTemp => [(false, 0x11, 2)]
  | .nop | .ldi _ _ | .ldhi _ _ | .mov _ _ | .bcdEnc | .bcdDec | .dtValidate | .dtEncode | .dtDecode | .timeDecode => []
  | .isLeap | .daysInMonth | .daysBeforeMonth | .daysBeforeYear | .toEpoch | .fromEpoch => []
  | .alarm1Encode | .alarm2Encode | .agingEnc | .agingDec | .tempDecode => []

/-- Register `a` is one a command's writes reach (10_state.md R38). -/
def WritesTo (i : Instr) (a : Nat) : Prop :=
  ∃ p ∈ transactionRow i, p.1 = true ∧ p.2.1 ≤ a ∧ a < p.2.1 + p.2.2

/-- An operand move (46_operand.md). -/
def isMove : Instr → Bool
  | .nop | .ldi _ _ | .ldhi _ _ | .mov _ _ => true
  | _ => false

/-- The commands of a list run one after another, as long as each completes. -/
def execAll : List Instr → State → Out
  | [], s => .next s
  | i :: rest, s =>
    match exec i s with
    | .next t => execAll rest t
    | .fault f => .fault f
    | .refused r => .refused r

end Sys2Proof.Machine
end

