-- ==== Sys2Proof/Certificates/Slice0/Obligations.lean ====
section
/-!
DEFINITION. The statements for the provers, in the terms of Safety.lean. Each docstring names the rules of spec/ it formalises.
-/
open Sys2Proof Sys2Proof.Machine

/-! ### Encoding (30_encoding.md) -/

/-- R81, R82, R85, R87, R88: decoding the word of any command a word can spell gives the command back, every operand kept. -/
def Obligations.DecodeOfEncode : Prop :=
  ∀ i : Instr, i.wellFormed = true → decode (encode i) = .ok i

/-- R82, R86, R87: a legal word is the word of the command it decodes to, so no command has a second spelling. -/
def Obligations.LegalWordHasOneSpelling : Prop :=
  ∀ (w : Word) (i : Instr), decode w = .ok i → i.wellFormed = true ∧ encode i = w

/-- R86: the decoder rejects a word exactly when its opcode is unassigned or a must-be-zero bit of its format is 1, and such a
word raises ILLEGAL_COMMAND whatever ARG and RES hold. -/
def Obligations.IllegalWordsAreThoseOfTheRule : Prop :=
  (∀ w : Word, (∃ e, decode w = .error e) ↔ IllegalWord w) ∧
  ∀ (s : State) (w : Word), s.fault = none → s.prog[s.pc]? = some w → IllegalWord w →
    step s = .next (faultedWith s .illegalCommand w)

/-- R90: the encoding examples, written out from the rule, in both directions. -/
def Obligations.EncodingExamplesDecode : Prop :=
  (encode (.ldi 6 2024) = 0x07E80601 ∧ encode (.ldhi 0 0xFFFF) = 0xFFFF0002 ∧ encode (.mov 0 0) = 0x00000003 ∧
    encode (.mov 3 5) = 0x00002B03 ∧ encode .toEpoch = 0x00000034 ∧ encode .nop = 0x00000000) ∧
  (decode 0x07E80601 = .ok (.ldi 6 2024) ∧ decode 0xFFFF0002 = .ok (.ldhi 0 0xFFFF) ∧
    decode 0x00000003 = .ok (.mov 0 0) ∧ decode 0x00002B03 = .ok (.mov 3 5) ∧
    decode 0x00000034 = .ok .toEpoch ∧ decode 0x00000000 = .ok .nop) ∧
  decode 0x00004010 = .error (.nonzeroReserved 0x10) ∧ decode 0x00000110 = .error (.nonzeroReserved 0x10) ∧
  decode 0x00000004 = .error (.unassignedOpcode 0x04)

/-- R89: the expansions of LI, LDDT and MOVR; run, the commands of `LI a<n>, <v>` load `v mod 2^32` into ARG[n] and touch no other
register. -/
def Obligations.PseudoInstructionExpansions : Prop :=
  (∀ (a : Fin 8) (v : Int) (s : State), -2 ^ 31 ≤ v → v < 2 ^ 32 →
    let u := (v % 2 ^ 32).toNat
    let is : List Instr := if u < 0x10000 then [.ldi a u] else [.ldi a (u % 0x10000), .ldhi a (u / 0x10000)]
    expandLI a v = some is ∧ (∀ i ∈ is, i.wellFormed = true) ∧
    ∃ t, execAll is s = .next t ∧ (∀ k : Fin 8, t.argAt k = if k = a then some (BitVec.ofNat 32 u) else s.argAt k) ∧
      t.res = s.res ∧ t.status = s.status ∧ t.fault = s.fault ∧ t.pc = s.pc + is.length ∧
      t.dowBase = s.dowBase ∧ t.prog = s.prog ∧ NoTransaction s t) ∧
  (∀ sec mi h dw dm mo y : Nat, (∀ v ∈ [sec, mi, h, dw, dm, mo, y], v ≤ 65535) →
    expandLDDT [sec, mi, h, dw, dm, mo, y] =
      some [.ldi 0 sec, .ldi 1 mi, .ldi 2 h, .ldi 3 dw, .ldi 4 dm, .ldi 5 mo, .ldi 6 y]) ∧
  (∀ n : Nat, 1 ≤ n → n ≤ 8 → ∃ is, expandMOVR n = some is ∧ is.length = n ∧
    ∀ k : Fin 8, k.val < n → is[k.val]? = some (.mov k k))

/-! ### The step, faults and the end of a run (60_exceptions.md, 70_reset_and_hazards.md) -/

/-- R27, R28, R87: with no fault recorded, a step runs the command the word at PROG[pc] decodes to. -/
def Obligations.StepRunsDecodedCommand : Prop :=
  ∀ (s : State) (w : Word) (i : Instr), s.fault = none → s.prog[s.pc]? = some w → decode w = .ok i → step s = exec i s

/-- R263: a word the decoder rejects records (ILLEGAL_COMMAND, pc, the word) before any operand is read, and changes nothing else:
even a word whose operands are all ⊥ reports this cause. -/
def Obligations.IllegalWordRecordsFault : Prop :=
  ∀ (s : State) (w : Word) (e : DecodeReject), s.fault = none → s.prog[s.pc]? = some w → decode w = .error e →
    step s = .next (faultedWith s .illegalCommand w)

/-- R262, R266: no command executes while FAULT is recorded. That the host outcome is `fault halted` is the model's choice
(log 4). -/
def Obligations.FaultedStateRunsNoCommand : Prop :=
  ∀ (s : State) (r : FaultRecord), s.fault = some r → step s = .fault (.halted r)

/-- R293: at pc = len(PROG) with FAULT none nothing runs. That the host outcome is `fault runEnded` is the model's choice
(log 4). -/
def Obligations.RunEndsAtEndOfStream : Prop :=
  ∀ s : State, EndedNormally s → step s = .fault .runEnded

/-- R91, R262, R260: a step either completes, with pc one further, no fault recorded and DOW_BASE and PROG as before, or records
a fault about the command at pc and changes nothing else, and then no further command executes. That the host outcome is then
`fault halted` is the model's choice (log 4). -/
def Obligations.StepCompletesOrFaults : Prop :=
  ∀ s t : State, step s = .next t →
    (t.fault = none ∧ t.pc = s.pc + 1 ∧ t.dowBase = s.dowBase ∧ t.prog = s.prog) ∨
    ∃ cause w, s.prog[s.pc]? = some w ∧ t = faultedWith s cause w ∧ step t = .fault (.halted ⟨cause, s.pc, w⟩)

/-- R21, R264, R265: a command that reads a register holding ⊥ raises UNWRITTEN_OPERAND, whatever its other operands hold. -/
def Obligations.UnwrittenOperandRecordsFault : Prop :=
  ∀ (i : Instr) (s : State) (w : Word), s.prog[s.pc]? = some w → ReadsUnwritten i s →
    exec i s = .next (faultedWith s .unwrittenOperand w)

/-- R261: with its operands written, a command raises DOMAIN exactly when they fail the table's test, and otherwise completes. -/
def Obligations.DomainFaultExactlyByTable : Prop :=
  ∀ (i : Instr) (s : State), ¬ ReadsUnwritten i s →
    (InDomain s.dowBase i (argValue s) → ∃ t, exec i s = .next t ∧ t.pc = s.pc + 1 ∧ t.fault = s.fault) ∧
    (¬ InDomain s.dowBase i (argValue s) → ∀ w, s.prog[s.pc]? = some w → exec i s = .next (faultedWith s .domain w))

/-- R20: at reset every ARG register is ⊥; only LDI, LDHI and MOV write ARG, and they write one register of it. -/
def Obligations.OnlyMovesWriteArg : Prop :=
  (∀ k : Fin 8, State.reset.argAt k = none) ∧
  ∀ (i : Instr) (s t : State), exec i s = .next t →
    t.arg = s.arg ∨ ∃ a : Fin 8, ((∃ imm, i = .ldi a imm) ∨ (∃ imm, i = .ldhi a imm) ∨ ∃ r, i = .mov a r) ∧
      ∀ k : Fin 8, k ≠ a → t.argAt k = s.argAt k

/-- R22, R270: a command writes no RES register but those the opcode map names for it; where it completes with TRANSPORT_FAIL every
one of those is ⊥, and where it completes with any other code every one of them holds a u32. -/
def Obligations.OnlyNamedResultsWritten : Prop :=
  ∀ (i : Instr) (s t : State), exec i s = .next t →
    (∀ k : Fin 8, resWrites i ≤ k.val → t.resAt k = s.resAt k) ∧
    (t.pc = s.pc → t.res = s.res) ∧
    (t.pc = s.pc + 1 → ∀ k : Fin 8, k.val < resWrites i → (t.resAt k = none ↔ t.status = 0x01))

/-- R23, R24: a completed command other than an operand move leaves one of the eight outcome codes in STATUS; an operand move,
and a command that faults, leave STATUS as it was. -/
def Obligations.StatusWrittenOnCompletion : Prop :=
  ∀ (i : Instr) (s t : State), exec i s = .next t →
    (t.pc = s.pc + 1 → isMove i = false → t.status.toNat ≤ 0x07) ∧
    (isMove i = true ∨ t.pc = s.pc → t.status = s.status)

/-- R38: the transactions a command makes are a beginning of its row of the table, all of the row where STATUS is OK, and
carry its pc. -/
def Obligations.TransactionsFollowTable : Prop :=
  ∀ (i : Instr) (s t : State), exec i s = .next t →
    ∃ ev, t.hist = s.hist ++ ev ∧ ev.map Event.shape <+: transactionRow i ∧ (∀ e ∈ ev, e.issuer = s.pc) ∧
      (t.pc = s.pc + 1 → isMove i = false → t.status = 0x00 → ev.map Event.shape = transactionRow i)

/-- R296, R61: no command writes a strict subset of the date/time block 0x00 to 0x06: a write that touches it is the whole block. -/
def Obligations.DateTimeBlockWrittenWhole : Prop :=
  ∀ (i : Instr) (s t : State), exec i s = .next t →
    ∃ ev, t.hist = s.hist ++ ev ∧ ∀ pc start bytes r, Event.wr pc start bytes r ∈ ev → start ≤ 0x06 →
      start = 0x00 ∧ bytes.length = 7

/-- R62, R68, R270: a command issues no transaction after a failed one, and a command one of whose transactions failed does not
report OK. -/
def Obligations.CommandStopsAtFirstFailure : Prop :=
  ∀ (i : Instr) (s t : State), exec i s = .next t →
    ∃ ev, t.hist = s.hist ++ ev ∧ (∀ e ∈ ev.dropLast, e.succeeded = true) ∧
      (∀ e ∈ ev, e.succeeded = false → t.status ≠ 0x00)

/-- R293: every run ends, normally or by a fault, after at most len(PROG) commands, each of at most 6 transactions. -/
def Obligations.EveryRunEnds : Prop :=
  ∀ s : State, s.pc ≤ s.prog.length →
    ∃ k t, k ≤ s.prog.length - s.pc ∧ Host.Core.run Sys2Proof.core k s = .next t ∧
      (EndedNormally t ∨ ∃ r, t.fault = some r) ∧ t.hist.length ≤ s.hist.length + 6 * k

/-- R24, R25, R27, R54, R62, R262 and the canonical form of the peripheral's cells (log 3): every step keeps the invariant. -/
def Obligations.StepKeepsInvariant : Prop :=
  ∀ s t : State, Inv s → step s = .next t → Inv t

/-- The state after reset meets the invariant. -/
def Obligations.ResetMeetsInvariant : Prop := Inv State.reset

/-- R290, R291, R266: reset leaves every ARG and RES register ⊥, STATUS 0xFF, FAULT none, pc 0 and HIST empty, whatever the state
before; it leaves the peripheral as it is and issues no transaction; and no step leaves a faulted state. -/
def Obligations.ResetEventValues : Prop :=
  ∀ s : State,
    (∀ k : Fin 8, (hostReset s).argAt k = none ∧ (hostReset s).resAt k = none) ∧
    (hostReset s).status = 0xFF ∧ (hostReset s).fault = none ∧ (hostReset s).pc = 0 ∧ (hostReset s).hist = [] ∧
    (hostReset s).periph = s.periph ∧ (hostReset s).draws = s.draws ∧ (hostReset s).drawCount = s.drawCount ∧
    (s.fault ≠ none → ∀ t, step s ≠ .next t) ∧
    (∀ k : Fin 8, State.reset.argAt k = none ∧ State.reset.resAt k = none) ∧
    State.reset.status = 0xFF ∧ State.reset.fault = none ∧ State.reset.pc = 0 ∧ State.reset.hist = []

/-- R23, R29, R30, R273: no command reads STATUS or HIST: run with another STATUS and HIST it does the same to all else and
appends the same events. -/
def Obligations.NothingReadsStatusOrHistory : Prop :=
  ∀ (i : Instr) (s t : State) (st : Byte) (h : List Event), exec i s = .next t →
    ∃ t' ev, exec i { s with status := st, hist := h } = .next t' ∧
      t'.arg = t.arg ∧ t'.res = t.res ∧ t'.fault = t.fault ∧ t'.pc = t.pc ∧ t'.dowBase = t.dowBase ∧ t'.prog = t.prog ∧
      t'.periph = t.periph ∧ t'.draws = t.draws ∧ t'.drawCount = t.drawCount ∧
      t.hist = s.hist ++ ev ∧ t'.hist = h ++ ev ∧ (t'.status = t.status ∨ (t.status = s.status ∧ t'.status = st))

/-! ### The transport port and the peripheral (20_memory.md) -/

/-- R52, R53, R55: the port admits every answer: any bytes or Fail from a read, Ok or Fail from a write, and any contents of the
peripheral's registers after either. -/
def Obligations.PortAdmitsEveryAnswer : Prop :=
  ∀ (s : State) (start : Nat) (bytes : List Byte) (img : Nat → Byte),
    1 ≤ bytes.length → start + bytes.length ≤ 0x13 →
    (∃ d, (txRead start bytes.length { s with draws := d :: s.draws }).1 = .ok bytes) ∧
    (∃ d, (txRead start bytes.length { s with draws := d :: s.draws }).1 = .fail ∧
      ∀ a, a < 0x13 → (txRead start bytes.length { s with draws := d :: s.draws }).2.periph.lookup a = some (img a)) ∧
    (∃ d, (txWrite start bytes { s with draws := d :: s.draws }).1 = .ok ∧
      ∀ a, a < 0x13 → (txWrite start bytes { s with draws := d :: s.draws }).2.periph.lookup a = some (img a)) ∧
    (∃ d, (txWrite start bytes { s with draws := d :: s.draws }).1 = .fail ∧
      ∀ a, a < 0x13 → (txWrite start bytes { s with draws := d :: s.draws }).2.periph.lookup a = some (img a))

/-- R67, R59: with a SimPeripheral draw, a read returns the image's bytes in ascending address order and leaves the image; a
write stores its bytes at ascending addresses and leaves every other register; a failed one leaves the image. -/
def Obligations.SimPeripheralTransactions : Prop :=
  ∀ (s : State) (start : Nat) (bytes : List Byte) (rest : List Draw),
    1 ≤ bytes.length → start + bytes.length ≤ 0x13 →
    (s.draws = simDraw true :: rest →
      (∀ img : Nat → Byte, (∀ i, i < bytes.length → s.periph.lookup (start + i) = some (img (start + i))) →
        (txRead start bytes.length s).1 = .ok ((List.range bytes.length).map fun i => img (start + i))) ∧
      (txRead start bytes.length s).2.periph = s.periph ∧
      (txWrite start bytes s).1 = .ok ∧
      (∀ i (h : i < bytes.length), (txWrite start bytes s).2.periph.lookup (start + i) = some bytes[i]) ∧
      (∀ a, a < start ∨ start + bytes.length ≤ a → (txWrite start bytes s).2.periph.lookup a = s.periph.lookup a)) ∧
    (s.draws = simDraw false :: rest →
      (txRead start bytes.length s).1 = .fail ∧ (txRead start bytes.length s).2.periph = s.periph ∧
      (txWrite start bytes s).1 = .fail ∧ (txWrite start bytes s).2.periph = s.periph)

/-- R38, R54: a command reaches no register of the peripheral but those its row of the table writes: every other register the
draws leave alone holds what it held, and a command with no transaction leaves all of them. -/
def Obligations.OtherRegistersUntouched : Prop :=
  ∀ (i : Instr) (s t : State), exec i s = .next t →
    (transactionRow i = [] → t.periph = s.periph) ∧
    ∀ a, ¬ WritesTo i a → (∀ j, j < t.drawCount - s.drawCount → DrawSilentAt (s.drawAt j) a) →
      t.periph.lookup a = s.periph.lookup a

/-- R59, R67: while every draw is one of SimPeripheral's, the peripheral's registers after a command are those before it with the
bytes of the command's successful writes stored at ascending addresses, in HIST order, and nothing else. -/
def Obligations.SimPeripheralHoldsWrittenBytes : Prop :=
  ∀ (i : Instr) (s t : State), exec i s = .next t →
    (∀ j, j < t.drawCount - s.drawCount → DrawQuiet (s.drawAt j)) →
    ∃ ev, t.hist = s.hist ++ ev ∧ t.periph = replay s.periph ev

/-- R58: an RMW is a read and, unless that failed, a write of the value read with the clr bits cleared and then the set bits set,
every other bit as read; HIST takes these events and nothing else of the block's state changes. -/
def Obligations.ReadModifyWriteKeepsUnnamedBits : Prop :=
  ∀ (s : State) (addr : Nat) (clr set : Byte), addr < 0x13 →
    ∃ ev, (rmw addr clr set s).2.hist = s.hist ++ ev ∧
      (((rmw addr clr set s).1 = .fail ∧ ev = [.rd s.pc addr 1 .fail]) ∨
        ∃ v w : Byte, ev = [.rd s.pc addr 1 (.ok [v]), .wr s.pc addr [w] (rmw addr clr set s).1] ∧
          ∀ b, b < 8 → w.getLsbD b = if set.getLsbD b then true else if clr.getLsbD b then false else v.getLsbD b) ∧
      (rmw addr clr set s).2.arg = s.arg ∧ (rmw addr clr set s).2.res = s.res ∧
      (rmw addr clr set s).2.status = s.status ∧ (rmw addr clr set s).2.pc = s.pc ∧
      (rmw addr clr set s).2.fault = s.fault ∧ (rmw addr clr set s).2.dowBase = s.dowBase ∧
      (rmw addr clr set s).2.prog = s.prog

/-! ### Operand moves (46_operand.md) -/

/-- R240 to R243: what each operand move does, for every register, and what it leaves. -/
def Obligations.OperandMoveResults : Prop :=
  ∀ s : State,
    exec .nop s = .next { s with pc := s.pc + 1 } ∧
    (∀ (a : Fin 8) (imm : Nat), imm < 65536 →
      ∃ t v, exec (.ldi a imm) s = .next t ∧ MoveResult s t a v ∧ v.toNat = imm) ∧
    (∀ (a : Fin 8) (imm : Nat) (x : Word), imm < 65536 → s.argAt a = some x →
      ∃ t v, exec (.ldhi a imm) s = .next t ∧ MoveResult s t a v ∧ v.toNat = 65536 * imm + x.toNat % 65536) ∧
    (∀ (a r : Fin 8) (x : Word), s.resAt r = some x → ∃ t, exec (.mov a r) s = .next t ∧ MoveResult s t a x)

/-! ### BCD (40_bcd.md) -/

/-- R100, R101, R105, R106: BCD_ENC and BCD_DEC in arithmetic, on their whole domains, and their frame. -/
def Obligations.BcdCommandResults : Prop :=
  ∀ (s : State) (d : Word), ArgsAre s [d] →
    (d.toNat ≤ 99 → ∃ t v, exec .bcdEnc s = .next t ∧ PureResult s t [v] 0x00 ∧
      v.toNat = 16 * (d.toNat / 10) + d.toNat % 10) ∧
    (d.toNat ≤ 0xFF → ∃ t v, exec .bcdDec s = .next t ∧ PureResult s t [v] 0x00 ∧
      v.toNat = 10 * (d.toNat / 16) + d.toNat % 16)

/-- R103: the inverse laws, and the hundred BCD-valid bytes as the image of 0..99; R104: the range of bcdDec. R104 also says bcdDec
lies in 0..99 exactly when the byte is BCD-valid: only the one direction holds, as its own example 0x1A shows (log 16). -/
def Obligations.BcdInverseLaws : Prop :=
  let valid (b : Byte) : Prop := b.toNat / 16 ≤ 9 ∧ b.toNat % 16 ≤ 9
  (∀ d : Nat, d ≤ 99 → valid (bcdEnc d) ∧ bcdDec (bcdEnc d) = d) ∧
  (∀ b : Byte, valid b → bcdDec b ≤ 99 ∧ bcdEnc (bcdDec b) = b) ∧
  ((List.range 256).filter fun n => n / 16 ≤ 9 && n % 16 ≤ 9).length = 100 ∧
  (∀ b : Byte, bcdDec b ≤ 165) ∧ bcdDec 0x1A = 20 ∧ bcdDec 0x20 = 20 ∧ ¬ valid 0x1A

/-! ### Date/time marshaling (41_datetime.md) -/

/-- R121, R125: DT_VALIDATE accepts any operands and reports range validity under the run's DOW_BASE. -/
def Obligations.DtValidateResult : Prop :=
  ∀ (s : State) (a0 a1 a2 a3 a4 a5 a6 : Word), ArgsAre s [a0, a1, a2, a3, a4, a5, a6] →
    ∃ t, exec .dtValidate s = .next t ∧
      (FieldsInRange s.dowBase (dateTimeOf a0 a1 a2 a3 a4 a5 a6) → PureResult s t [1] 0x00) ∧
      (¬ FieldsInRange s.dowBase (dateTimeOf a0 a1 a2 a3 a4 a5 a6) → PureResult s t [0] 0x02)

/-- R123, R126: DT_ENCODE gives the BCD byte of each field of a range-valid DateTime, year less 2000. -/
def Obligations.DtEncodeResult : Prop :=
  ∀ (s : State) (a0 a1 a2 a3 a4 a5 a6 : Word), ArgsAre s [a0, a1, a2, a3, a4, a5, a6] →
    FieldsInRange s.dowBase (dateTimeOf a0 a1 a2 a3 a4 a5 a6) →
    ∃ t, exec .dtEncode s = .next t ∧
      PureResult s t ((blockOf (dateTimeOf a0 a1 a2 a3 a4 a5 a6)).map (BitVec.setWidth 32)) 0x00

/-- R120, R124, R127, R128, R271: DT_DECODE and TIME_DECODE mask and decode each byte, and give the record whole or all zero. -/
def Obligations.DecodeCommandResults : Prop :=
  ∀ (s : State) (a0 a1 a2 a3 a4 a5 a6 : Word),
    (ArgsAre s [a0, a1, a2, a3, a4, a5, a6] → (∀ a ∈ [a0, a1, a2, a3, a4, a5, a6], a.toNat ≤ 0xFF) →
      ∃ t, exec .dtDecode s = .next t ∧
        let dt := blockDateTime a0.toNat a1.toNat a2.toNat a3.toNat a4.toNat a5.toNat a6.toNat
        (FieldsInRange s.dowBase dt → PureResult s t dt.toWords 0x00) ∧
        (¬ FieldsInRange s.dowBase dt → PureResult s t (List.replicate 7 0) 0x02)) ∧
    (ArgsAre s [a0, a1, a2] → (∀ a ∈ [a0, a1, a2], a.toNat ≤ 0xFF) →
      ∃ t, exec .timeDecode s = .next t ∧
        let sec := maskedBcd 128 a0.toNat
        let mi := maskedBcd 128 a1.toNat
        let h := maskedBcd 64 a2.toNat
        (sec ≤ 59 ∧ mi ≤ 59 ∧ h ≤ 23 → PureResult s t ([sec, mi, h].map (BitVec.ofNat 32)) 0x00) ∧
        (¬ (sec ≤ 59 ∧ mi ≤ 59 ∧ h ≤ 23) → PureResult s t [0, 0, 0] 0x02))

/-- R134, first sentence: every range-valid DateTime decodes from its own register block, under either day-of-week convention. -/
def Obligations.RegisterBlockRoundTrip : Prop :=
  ∀ (base : DowBase) (dt : DateTime), rangeValid base dt = true → decodeBlock base (encodeBlock dt) = (dt, true)

/-- R134, last sentence: with SimPeripheral and no failures, SET_DATETIME of a range-valid DateTime followed by GET_DATETIME gives
that DateTime and OK, and the oscillator is enabled and OSF clear. -/
def Obligations.SetThenGetDatetime : Prop :=
  ∀ (s : State) (a0 a1 a2 a3 a4 a5 a6 : Word), ArgsAre s [a0, a1, a2, a3, a4, a5, a6] →
    FieldsInRange s.dowBase (dateTimeOf a0 a1 a2 a3 a4 a5 a6) → (∀ j, j < 6 → s.drawAt j = simDraw true) →
    ∃ t, execAll [.setDatetime, .getDatetime] s = .next t ∧ t.status = 0x00 ∧
      ResWritten s t ([a0, a1, a2, a3, a4, a5, a6].map some) ∧
      (∃ c, t.periph.lookup 0x0E = some c ∧ c.getLsbD 7 = false) ∧ (∃ c, t.periph.lookup 0x0F = some c ∧ c.getLsbD 7 = false)

/-- R129: DT_DECODE, GET_DATETIME and FROM_EPOCH leave in RES0 to RES6 a range-valid DateTime with OK, all zeros with
INVALID_DATA, or all ⊥ with TRANSPORT_FAIL; TIME_DECODE and GET_TIME keep the same rule in RES0 to RES2. -/
def Obligations.NoPartiallyValidResult : Prop :=
  ∀ (i : Instr) (s t : State), exec i s = .next t → t.pc = s.pc + 1 →
    (i = .dtDecode ∨ i = .getDatetime ∨ i = .fromEpoch →
      (t.status = 0x00 ∧ ∃ a0 a1 a2 a3 a4 a5 a6 : Word, FieldsInRange s.dowBase (dateTimeOf a0 a1 a2 a3 a4 a5 a6) ∧
        ResWritten s t ([a0, a1, a2, a3, a4, a5, a6].map some)) ∨
      (t.status = 0x02 ∧ ResWritten s t (List.replicate 7 (some 0))) ∨
      (t.status = 0x01 ∧ ResWritten s t (List.replicate 7 none))) ∧
    (i = .timeDecode ∨ i = .getTime →
      (t.status = 0x00 ∧ ∃ a0 a1 a2 : Word, a0.toNat ≤ 59 ∧ a1.toNat ≤ 59 ∧ a2.toNat ≤ 23 ∧
        ResWritten s t ([a0, a1, a2].map some)) ∨
      (t.status = 0x02 ∧ ResWritten s t (List.replicate 3 (some 0))) ∨
      (t.status = 0x01 ∧ ResWritten s t (List.replicate 3 none)))

/-- R130: SET_DATETIME of a range-valid DateTime makes the atomic block write, the oscillator enable and the OSF clear, stopping
at the first failure, and reports which step failed. -/
def Obligations.SetDatetimeSequence : Prop :=
  ∀ (s : State) (a0 a1 a2 a3 a4 a5 a6 : Word), ArgsAre s [a0, a1, a2, a3, a4, a5, a6] →
    FieldsInRange s.dowBase (dateTimeOf a0 a1 a2 a3 a4 a5 a6) →
    ∃ t ev code, exec .setDatetime s = .next t ∧ SequencedResult s t ev [] code ∧
      IsWriteDateTime s.pc (blockOf (dateTimeOf a0 a1 a2 a3 a4 a5 a6)) ev code

/-- R131, R270, R271: GET_DATETIME is one 7-byte read; its bytes decode whole or to zeros, and a failed read leaves ⊥. -/
def Obligations.GetDatetimeResult : Prop :=
  ∀ s : State, ∃ t, exec .getDatetime s = .next t ∧
    (SequencedResult s t [.rd s.pc 0x00 7 .fail] (List.replicate 7 none) 0x01 ∨
      ∃ b0 b1 b2 b3 b4 b5 b6 : Byte,
        let dt := blockDateTime b0.toNat b1.toNat b2.toNat b3.toNat b4.toNat b5.toNat b6.toNat
        let ev := [Event.rd s.pc 0x00 7 (.ok [b0, b1, b2, b3, b4, b5, b6])]
        (FieldsInRange s.dowBase dt ∧ SequencedResult s t ev (dt.toWords.map some) 0x00) ∨
        (¬ FieldsInRange s.dowBase dt ∧ SequencedResult s t ev (List.replicate 7 (some 0)) 0x02))

/-- R132, R270, R271: GET_TIME is one 3-byte read of the time of day, decoded whole or to zeros; RES3 to RES7 are not written. -/
def Obligations.GetTimeResult : Prop :=
  ∀ s : State, ∃ t, exec .getTime s = .next t ∧
    (SequencedResult s t [.rd s.pc 0x00 3 .fail] (List.replicate 3 none) 0x01 ∨
      ∃ b0 b1 b2 : Byte,
        let sec := maskedBcd 128 b0.toNat
        let mi := maskedBcd 128 b1.toNat
        let h := maskedBcd 64 b2.toNat
        let ev := [Event.rd s.pc 0x00 3 (.ok [b0, b1, b2])]
        ((sec ≤ 59 ∧ mi ≤ 59 ∧ h ≤ 23) ∧
          SequencedResult s t ev ([sec, mi, h].map fun n => some (BitVec.ofNat 32 n)) 0x00) ∨
        (¬ (sec ≤ 59 ∧ mi ≤ 59 ∧ h ≤ 23) ∧ SequencedResult s t ev (List.replicate 3 (some 0)) 0x02))

/-- R133: SET_TIME reads the full record, writes nothing where it is invalid, and otherwise makes the full write of the record
with the three time fields spliced in. -/
def Obligations.SetTimeSequence : Prop :=
  ∀ (s : State) (a0 a1 a2 : Word), ArgsAre s [a0, a1, a2] → a0.toNat ≤ 59 → a1.toNat ≤ 59 → a2.toNat ≤ 23 →
    ∃ t ev code, exec .setTime s = .next t ∧ SequencedResult s t ev [] code ∧
      ((ev = [.rd s.pc 0x00 7 .fail] ∧ code = 0x01) ∨
        ∃ (b0 b1 b2 b3 b4 b5 b6 : Byte) (e1 : List Event),
          let dt := blockDateTime b0.toNat b1.toNat b2.toNat b3.toNat b4.toNat b5.toNat b6.toNat
          ev = .rd s.pc 0x00 7 (.ok [b0, b1, b2, b3, b4, b5, b6]) :: e1 ∧
          ((¬ FieldsInRange s.dowBase dt ∧ e1 = [] ∧ code = 0x02) ∨
            (FieldsInRange s.dowBase dt ∧ IsWriteDateTime s.pc
              (blockOf ⟨a0.toNat, a1.toNat, a2.toNat, dt.dayOfWeek, dt.dayOfMonth, dt.month, dt.year⟩) e1 code)))

/-! ### Calendar and epoch (42_epoch.md) -/

/-- R140, R143, R145 to R147, R153 to R156: the four table commands over their whole domains: leap years every fourth from 2000,
the month lengths, and the day counts as sums of them. -/
def Obligations.CalendarCommandResults : Prop :=
  ∀ (s : State) (y m : Word), ArgsAre s [y] → 2000 ≤ y.toNat → y.toNat ≤ 2099 →
    let leapDay := if y.toNat % 4 = 0 then 1 else 0
    let lengths := [31, 28 + leapDay, 31, 30, 31, 30, 31, 31, 30, 31, 30, 31]
    (∃ t v, exec .isLeap s = .next t ∧ PureResult s t [v] 0x00 ∧ v.toNat = leapDay) ∧
    (∃ t v, exec .daysBeforeYear s = .next t ∧ PureResult s t [v] 0x00 ∧
      v.toNat = ((List.range (y.toNat - 2000)).map fun k => if k % 4 = 0 then 366 else 365).sum) ∧
    (ArgsAre s [y, m] → 1 ≤ m.toNat → m.toNat ≤ 12 →
      (∃ t v, exec .daysInMonth s = .next t ∧ PureResult s t [v] 0x00 ∧ lengths[m.toNat - 1]? = some v.toNat) ∧
      (∃ t v, exec .daysBeforeMonth s = .next t ∧ PureResult s t [v] 0x00 ∧
        v.toNat = (lengths.take (m.toNat - 1)).sum))

/-- R148, R152, R157: TO_EPOCH of any range-valid DateTime completes with the formula's value, which fits a u32 and lies in
EPOCH_MIN..EPOCH_MAX; dayOfWeek does not enter it. -/
def Obligations.ToEpochResult : Prop :=
  ∀ (s : State) (a0 a1 a2 a3 a4 a5 a6 : Word), ArgsAre s [a0, a1, a2, a3, a4, a5, a6] →
    FieldsInRange s.dowBase (dateTimeOf a0 a1 a2 a3 a4 a5 a6) →
    ∃ t v, exec .toEpoch s = .next t ∧ PureResult s t [v] 0x00 ∧
      v.toNat = (daysBeforeYear a6.toNat + daysBeforeMonth a6.toNat a5.toNat + (a4.toNat - 1)) * 86400 +
        a2.toNat * 3600 + a1.toNat * 60 + a0.toNat + 946684800 ∧
      946684800 ≤ v.toNat ∧ v.toNat ≤ 4102444799

/-- R149, R150, R158: FROM_EPOCH of every t in EPOCH_MIN..EPOCH_MAX completes with a calendar-valid DateTime whose toEpoch is
t and whose day of week is its day's own, 2000-01-01 being a Saturday and Sunday being 7 where
DOW_BASE is 1 and 0 where it is 0. -/
def Obligations.FromEpochResult : Prop :=
  ∀ (s : State) (a : Word), ArgsAre s [a] → 946684800 ≤ a.toNat → a.toNat ≤ 4102444799 →
    let w := ((a.toNat - 946684800) / 86400 + 6) % 7
    ∃ t dt, exec .fromEpoch s = .next t ∧ PureResult s t dt.toWords 0x00 ∧ calendarValid s.dowBase dt = true ∧
      toEpoch dt = a.toNat ∧ dt.dayOfWeek = match s.dowBase with
        | .mondayOne => if w = 0 then 7 else w
        | .sundayZero => w

/-- R151 law 1: toEpoch undoes fromEpoch on EPOCH_MIN..EPOCH_MAX, under either day-of-week convention. -/
def Obligations.ToEpochOfFromEpoch : Prop :=
  ∀ (base : DowBase) (t : Nat), 946684800 ≤ t → t ≤ 4102444799 → toEpoch (fromEpoch base t) = t

/-- R151 law 2: fromEpoch undoes toEpoch on every calendar-valid DateTime, up to dayOfWeek, which becomes the day's own. -/
def Obligations.FromEpochOfToEpoch : Prop :=
  ∀ (base : DowBase) (dt : DateTime), calendarValid base dt = true →
    fromEpoch base (toEpoch dt) = { dt with dayOfWeek := dowOf base (dayCount dt) }

/-- R151 law 3: toEpoch is strictly monotonic on calendar-valid DateTimes in the order (year, month, dayOfMonth, hour, minute,
second). -/
def Obligations.ToEpochStrictlyMonotonic : Prop :=
  ∀ (base : DowBase) (d e : DateTime), calendarValid base d = true → calendarValid base e = true →
    List.Lex (· < ·) (chronoKey d) (chronoKey e) → toEpoch d < toEpoch e

/-- R150: the day of week of a day count: 2000-01-01 is a Saturday, each day is one weekday further, and the two conventions agree
but for Sunday, 7 in one and 0 in the other. -/
def Obligations.DayOfWeekOfDayCount : Prop :=
  dowOf .mondayOne 0 = 6 ∧
  (∀ n, dowOf .mondayOne (n + 1) = dowOf .mondayOne n % 7 + 1) ∧
  (∀ n, dowOf .sundayZero n = dowOf .mondayOne n % 7)

/-! ### Alarms (43_alarm.md) -/

/-- R170 to R172, R174, R177: ALARM1_ENCODE in arithmetic: each field's BCD byte, bit 7 of each register from its mode bit, and
DY/DT at bit 6 of the last. -/
def Obligations.Alarm1EncodeResult : Prop :=
  ∀ (s : State) (m sec mi h dd : Word), ArgsAre s [m, sec, mi, h, dd] →
    m.toNat ∈ [0x0F, 0x0E, 0x0C, 0x08, 0x00, 0x10] → sec.toNat ≤ 59 →
    AlarmFieldsInRange s.dowBase (m.toNat = 0x10) mi.toNat h.toNat dd.toNat →
    ∃ t v0 v1 v2 v3, exec .alarm1Encode s = .next t ∧ PureResult s t [v0, v1, v2, v3] 0x00 ∧
      v0.toNat = (bcdByte sec.toNat).toNat + 128 * (m.toNat % 2) ∧
      v1.toNat = (bcdByte mi.toNat).toNat + 128 * (m.toNat / 2 % 2) ∧
      v2.toNat = (bcdByte h.toNat).toNat + 128 * (m.toNat / 4 % 2) ∧
      v3.toNat = (bcdByte dd.toNat).toNat + 128 * (m.toNat / 8 % 2) + 64 * (m.toNat / 16 % 2)

/-- R170, R172, R174, R178: ALARM2_ENCODE in arithmetic. -/
def Obligations.Alarm2EncodeResult : Prop :=
  ∀ (s : State) (m mi h dd : Word), ArgsAre s [m, mi, h, dd] →
    m.toNat ∈ [0x0E, 0x0C, 0x08, 0x00, 0x10] →
    AlarmFieldsInRange s.dowBase (m.toNat = 0x10) mi.toNat h.toNat dd.toNat →
    ∃ t v0 v1 v2, exec .alarm2Encode s = .next t ∧ PureResult s t [v0, v1, v2] 0x00 ∧
      v0.toNat = (bcdByte mi.toNat).toNat + 128 * (m.toNat / 2 % 2) ∧
      v1.toNat = (bcdByte h.toNat).toNat + 128 * (m.toNat / 4 % 2) ∧
      v2.toNat = (bcdByte dd.toNat).toNat + 128 * (m.toNat / 8 % 2) + 64 * (m.toNat / 16 % 2)

/-- R175, R176, R180, R181: SET_ALARM1 and SET_ALARM2 make one atomic write of the alarm's bytes and then clear only their
channel's flag, and report which step failed. -/
def Obligations.SetAlarmSequence : Prop :=
  ∀ (s : State) (m a1 a2 a3 a4 : Word),
    (ArgsAre s [m, a1, a2, a3, a4] → m.toNat ∈ [0x0F, 0x0E, 0x0C, 0x08, 0x00, 0x10] → a1.toNat ≤ 59 →
      AlarmFieldsInRange s.dowBase (m.toNat = 0x10) a2.toNat a3.toNat a4.toNat →
      ∃ t ev code, exec .setAlarm1 s = .next t ∧ SequencedResult s t ev [] code ∧
        IsSetAlarm s.pc 0x07
          [bcdByte a1.toNat + BitVec.ofNat 8 (128 * (m.toNat % 2)),
            bcdByte a2.toNat + BitVec.ofNat 8 (128 * (m.toNat / 2 % 2)),
            bcdByte a3.toNat + BitVec.ofNat 8 (128 * (m.toNat / 4 % 2)),
            bcdByte a4.toNat + BitVec.ofNat 8 (128 * (m.toNat / 8 % 2) + 64 * (m.toNat / 16 % 2))] 0x01 ev code) ∧
    (ArgsAre s [m, a1, a2, a3] → m.toNat ∈ [0x0E, 0x0C, 0x08, 0x00, 0x10] →
      AlarmFieldsInRange s.dowBase (m.toNat = 0x10) a1.toNat a2.toNat a3.toNat →
      ∃ t ev code, exec .setAlarm2 s = .next t ∧ SequencedResult s t ev [] code ∧
        IsSetAlarm s.pc 0x0B
          [bcdByte a1.toNat + BitVec.ofNat 8 (128 * (m.toNat / 2 % 2)),
            bcdByte a2.toNat + BitVec.ofNat 8 (128 * (m.toNat / 4 % 2)),
            bcdByte a3.toNat + BitVec.ofNat 8 (128 * (m.toNat / 8 % 2) + 64 * (m.toNat / 16 % 2))] 0x02 ev code)

/-- R179, R182: ALARM_INT_ENABLE clears the channel's flag first, then in one RMW sets INTCN, on enabling and disabling alike, and
sets or clears the channel's enable bit. -/
def Obligations.AlarmIntEnableSequence : Prop :=
  ∀ (s : State) (c en : Word), ArgsAre s [c, en] → c.toNat = 1 ∨ c.toNat = 2 → en.toNat ≤ 1 →
    let bit : Byte := BitVec.ofNat 8 c.toNat
    ∃ t ev code, exec .alarmIntEnable s = .next t ∧ SequencedResult s t ev [] code ∧
      ((IsRmw s.pc 0x0F bit 0x00 ev .fail ∧ code = 0x01) ∨
        ∃ e1 e2 r, ev = e1 ++ e2 ∧ IsRmw s.pc 0x0F bit 0x00 e1 .ok ∧
          (if en.toNat = 1 then IsRmw s.pc 0x0E 0x00 (0x04 + bit) e2 r else IsRmw s.pc 0x0E bit 0x04 e2 r) ∧
          code = if r = .ok then 0x00 else 0x01)

/-- R183, R207, R227: GET_ALARM_FLAG, GET_OSF and GET_AGING are one one-byte read each, give the channel's flag bit, bit 7 of
0x0F, and the two's-complement value of 0x10, and leave ⊥ after a failed read. -/
def Obligations.SingleByteReadResults : Prop :=
  ∀ s : State,
    (∀ c : Word, ArgsAre s [c] → c.toNat = 1 ∨ c.toNat = 2 →
      ∃ t, exec .getAlarmFlag s = .next t ∧
        (SequencedResult s t [.rd s.pc 0x0F 1 .fail] [none] 0x01 ∨
          ∃ b : Byte, SequencedResult s t [.rd s.pc 0x0F 1 (.ok [b])]
            [some (if b.getLsbD (c.toNat - 1) then 1 else 0)] 0x00)) ∧
    (∃ t, exec .getOsf s = .next t ∧
      (SequencedResult s t [.rd s.pc 0x0F 1 .fail] [none] 0x01 ∨
        ∃ b : Byte, SequencedResult s t [.rd s.pc 0x0F 1 (.ok [b])] [some (if b.getLsbD 7 then 1 else 0)] 0x00)) ∧
    (∃ t, exec .getAging s = .next t ∧
      (SequencedResult s t [.rd s.pc 0x10 1 .fail] [none] 0x01 ∨
        ∃ b : Byte, SequencedResult s t [.rd s.pc 0x10 1 (.ok [b])] [some (b.signExtend 32)] 0x00))

/-! ### Control, temperature and aging (44_control.md, 45_temp_aging.md) -/

/-- R184, R201, R203, R204: CLEAR_ALARM_FLAG, SET_OSC_ENABLE, SET_SQUARE_WAVE and SET_32KHZ are one RMW each, of the bits their
rules name. -/
def Obligations.SingleRmwCommandResults : Prop :=
  ∀ (s : State) (a : Word), ArgsAre s [a] →
    let one (i : Instr) (addr : Nat) (clr set : Byte) : Prop :=
      ∃ t ev r, exec i s = .next t ∧ SequencedResult s t ev [] (if r = .ok then 0x00 else 0x01) ∧
        IsRmw s.pc addr clr set ev r
    (a = 1 → one .clearAlarmFlag 0x0F 0x01 0x00) ∧ (a = 2 → one .clearAlarmFlag 0x0F 0x02 0x00) ∧
    (a = 1 → one .setOscEnable 0x0E 0x80 0x00) ∧ (a = 0 → one .setOscEnable 0x0E 0x00 0x80) ∧
    (a = 0 → one .setSquareWave 0x0E 0x1C 0x00) ∧ (a = 1 → one .setSquareWave 0x0E 0x1C 0x08) ∧
    (a = 2 → one .setSquareWave 0x0E 0x1C 0x10) ∧ (a = 3 → one .setSquareWave 0x0E 0x1C 0x18) ∧
    (a = 4 → one .setSquareWave 0x0E 0x00 0x04) ∧
    (a = 1 → one .set32khz 0x0F 0x00 0x08) ∧ (a = 0 → one .set32khz 0x0F 0x08 0x00)

/-- R205, R206, R272: START_CONV checks BSY, writes CONV only where it was clear, and reports OK with RES0 = 1, BUSY with RES0 = 0
or TRANSPORT_FAIL with RES0 = ⊥. -/
def Obligations.StartConvSequence : Prop :=
  ∀ s : State, ∃ t ev r, exec .startConv s = .next t ∧ IsStartConv s.pc ev r ∧
    (r = .started → SequencedResult s t ev [some 1] 0x00) ∧
    (r = .busy → SequencedResult s t ev [some 0] 0x03) ∧
    (r = .failed → SequencedResult s t ev [none] 0x01)

/-- R220, R226: SET_AGING writes the offset's byte first, then makes the busy-checked trigger, and reports which step failed. -/
def Obligations.SetAgingSequence : Prop :=
  ∀ (s : State) (a : Word), ArgsAre s [a] → -128 ≤ a.toInt → a.toInt ≤ 127 →
    ∃ t ev code, exec .setAging s = .next t ∧ SequencedResult s t ev [] code ∧
      ((ev = [.wr s.pc 0x10 [a.setWidth 8] .fail] ∧ code = 0x01) ∨
        ∃ e1 r, ev = .wr s.pc 0x10 [a.setWidth 8] .ok :: e1 ∧ IsStartConv s.pc e1 r ∧
          ((r = .started ∧ code = 0x00) ∨ (r = .busy ∧ code = 0x03) ∨ (r = .failed ∧ code = 0x07)))

/-- R220 to R225: AGING_ENC, AGING_DEC and TEMP_DECODE on their whole domains: the low byte, the sign extension, and the quarter
degrees over 100. -/
def Obligations.AgingAndTemperatureCodecResults : Prop :=
  ∀ (s : State) (a b : Word), ArgsAre s [a] →
    (-128 ≤ a.toInt → a.toInt ≤ 127 → ∃ t v, exec .agingEnc s = .next t ∧ PureResult s t [v] 0x00 ∧
      (v.toNat : Int) = a.toInt % 256) ∧
    (a.toNat ≤ 0xFF → ∃ t v, exec .agingDec s = .next t ∧ PureResult s t [v] 0x00 ∧
      v.toInt = if a.toNat < 128 then (a.toNat : Int) else (a.toNat : Int) - 256) ∧
    (ArgsAre s [a, b] → a.toNat ≤ 0xFF → b.toNat ≤ 0xFF →
      ∃ t v0 v1, exec .tempDecode s = .next t ∧ PureResult s t [v0, v1] 0x00 ∧
        v0.toInt = (if a.toNat < 128 then (a.toNat : Int) else (a.toNat : Int) - 256) ∧ v1.toNat = b.toNat / 64 * 25)

/-- R221: agingDec, and the aging codec's two inverse laws. -/
def Obligations.AgingInverseLaws : Prop :=
  (∀ b : Byte, agingDec b = if b.getLsbD 7 then (b.toNat : Int) - 256 else (b.toNat : Int)) ∧
  (∀ v : Int, -128 ≤ v → v ≤ 127 → agingDec (agingEnc v) = v) ∧ (∀ b : Byte, agingEnc (agingDec b) = b)

/-- R222, R228: GET_TEMP reads the pair in one transaction and gives its integer degrees and quarter degrees over 100, or ⊥ in
both after a failed read. -/
def Obligations.GetTempResult : Prop :=
  ∀ s : State, ∃ t, exec .getTemp s = .next t ∧
    (SequencedResult s t [.rd s.pc 0x11 2 .fail] [none, none] 0x01 ∨
      ∃ msb lsb : Byte, SequencedResult s t [.rd s.pc 0x11 2 (.ok [msb, lsb])]
        [some (msb.signExtend 32), some (BitVec.ofNat 32 (lsb.toNat / 64 * 25))] 0x00)

/-! ### The configuration (00_scope.md) -/

/-- R6, R28: this hardware takes DOW_BASE = 1, and no step changes DOW_BASE or PROG. That they stand in State, and that reset leaves
them, is the model's choice (log 1, log 17). -/
def Obligations.ConfigurationStays : Prop :=
  State.reset.dowBase.toNat = 1 ∧
  (∀ s t : State, step s = .next t → t.dowBase = s.dowBase ∧ t.prog = s.prog) ∧
  ∀ s : State, (hostReset s).dowBase = s.dowBase ∧ (hostReset s).prog = s.prog
end

