-- ==== Sys2Proof/Laws/State.lean ====
section
/-!
SUPPORT. One lemma for each field of each update of the state, and what the register files hold after a write.
-/
namespace Sys2Proof.Machine

/-! ### setArg -/

@[simp] theorem setArg_res (s : State) (a : Fin 8) (v : Word) : (s.setArg a v).res = s.res := rfl
@[simp] theorem setArg_status (s : State) (a : Fin 8) (v : Word) : (s.setArg a v).status = s.status := rfl
@[simp] theorem setArg_fault (s : State) (a : Fin 8) (v : Word) : (s.setArg a v).fault = s.fault := rfl
@[simp] theorem setArg_pc (s : State) (a : Fin 8) (v : Word) : (s.setArg a v).pc = s.pc := rfl
@[simp] theorem setArg_hist (s : State) (a : Fin 8) (v : Word) : (s.setArg a v).hist = s.hist := rfl
@[simp] theorem setArg_periph (s : State) (a : Fin 8) (v : Word) : (s.setArg a v).periph = s.periph := rfl
@[simp] theorem setArg_prog (s : State) (a : Fin 8) (v : Word) : (s.setArg a v).prog = s.prog := rfl
@[simp] theorem setArg_dowBase (s : State) (a : Fin 8) (v : Word) : (s.setArg a v).dowBase = s.dowBase := rfl
@[simp] theorem setArg_draws (s : State) (a : Fin 8) (v : Word) : (s.setArg a v).draws = s.draws := rfl
@[simp] theorem setArg_drawCount (s : State) (a : Fin 8) (v : Word) : (s.setArg a v).drawCount = s.drawCount := rfl

/-! ### setRes -/

@[simp] theorem setRes_arg (s : State) (vals : List Word) : (s.setRes vals).arg = s.arg := rfl
@[simp] theorem setRes_status (s : State) (vals : List Word) : (s.setRes vals).status = s.status := rfl
@[simp] theorem setRes_fault (s : State) (vals : List Word) : (s.setRes vals).fault = s.fault := rfl
@[simp] theorem setRes_pc (s : State) (vals : List Word) : (s.setRes vals).pc = s.pc := rfl
@[simp] theorem setRes_hist (s : State) (vals : List Word) : (s.setRes vals).hist = s.hist := rfl
@[simp] theorem setRes_periph (s : State) (vals : List Word) : (s.setRes vals).periph = s.periph := rfl
@[simp] theorem setRes_prog (s : State) (vals : List Word) : (s.setRes vals).prog = s.prog := rfl
@[simp] theorem setRes_dowBase (s : State) (vals : List Word) : (s.setRes vals).dowBase = s.dowBase := rfl
@[simp] theorem setRes_draws (s : State) (vals : List Word) : (s.setRes vals).draws = s.draws := rfl
@[simp] theorem setRes_drawCount (s : State) (vals : List Word) : (s.setRes vals).drawCount = s.drawCount := rfl

/-! ### clearRes -/

@[simp] theorem clearRes_arg (s : State) (n : Nat) : (s.clearRes n).arg = s.arg := rfl
@[simp] theorem clearRes_status (s : State) (n : Nat) : (s.clearRes n).status = s.status := rfl
@[simp] theorem clearRes_fault (s : State) (n : Nat) : (s.clearRes n).fault = s.fault := rfl
@[simp] theorem clearRes_pc (s : State) (n : Nat) : (s.clearRes n).pc = s.pc := rfl
@[simp] theorem clearRes_hist (s : State) (n : Nat) : (s.clearRes n).hist = s.hist := rfl
@[simp] theorem clearRes_periph (s : State) (n : Nat) : (s.clearRes n).periph = s.periph := rfl
@[simp] theorem clearRes_prog (s : State) (n : Nat) : (s.clearRes n).prog = s.prog := rfl
@[simp] theorem clearRes_dowBase (s : State) (n : Nat) : (s.clearRes n).dowBase = s.dowBase := rfl
@[simp] theorem clearRes_draws (s : State) (n : Nat) : (s.clearRes n).draws = s.draws := rfl
@[simp] theorem clearRes_drawCount (s : State) (n : Nat) : (s.clearRes n).drawCount = s.drawCount := rfl

/-! ### advance -/

@[simp] theorem advance_arg (s : State) : (s.advance).arg = s.arg := rfl
@[simp] theorem advance_res (s : State) : (s.advance).res = s.res := rfl
@[simp] theorem advance_status (s : State) : (s.advance).status = s.status := rfl
@[simp] theorem advance_fault (s : State) : (s.advance).fault = s.fault := rfl
@[simp] theorem advance_hist (s : State) : (s.advance).hist = s.hist := rfl
@[simp] theorem advance_periph (s : State) : (s.advance).periph = s.periph := rfl
@[simp] theorem advance_prog (s : State) : (s.advance).prog = s.prog := rfl
@[simp] theorem advance_dowBase (s : State) : (s.advance).dowBase = s.dowBase := rfl
@[simp] theorem advance_draws (s : State) : (s.advance).draws = s.draws := rfl
@[simp] theorem advance_drawCount (s : State) : (s.advance).drawCount = s.drawCount := rfl

/-! ### finish -/

@[simp] theorem finish_arg (s : State) (c : StatusCode) : (s.finish c).arg = s.arg := rfl
@[simp] theorem finish_res (s : State) (c : StatusCode) : (s.finish c).res = s.res := rfl
@[simp] theorem finish_fault (s : State) (c : StatusCode) : (s.finish c).fault = s.fault := rfl
@[simp] theorem finish_hist (s : State) (c : StatusCode) : (s.finish c).hist = s.hist := rfl
@[simp] theorem finish_periph (s : State) (c : StatusCode) : (s.finish c).periph = s.periph := rfl
@[simp] theorem finish_prog (s : State) (c : StatusCode) : (s.finish c).prog = s.prog := rfl
@[simp] theorem finish_dowBase (s : State) (c : StatusCode) : (s.finish c).dowBase = s.dowBase := rfl
@[simp] theorem finish_draws (s : State) (c : StatusCode) : (s.finish c).draws = s.draws := rfl
@[simp] theorem finish_drawCount (s : State) (c : StatusCode) : (s.finish c).drawCount = s.drawCount := rfl

/-! ### What changes -/

@[simp] theorem advance_pc (s : State) : s.advance.pc = s.pc + 1 := rfl
@[simp] theorem finish_pc (s : State) (c : StatusCode) : (s.finish c).pc = s.pc + 1 := rfl
@[simp] theorem finish_status (s : State) (c : StatusCode) : (s.finish c).status = c.toByte := rfl

/-- Every outcome code is one of the table. -/
theorem toByte_legal (c : StatusCode) : StatusLegal c.toByte := by cases c <;> decide

/-! ### The register files -/

theorem argAt_setArg (s : State) (a : Fin 8) (v : Word) (k : Fin 8) :
    (s.setArg a v).argAt k = if k = a then some v else s.argAt k := by
  unfold State.argAt State.setArg
  simp only [Vector.getElem_set]
  by_cases h : k = a
  · simp [h]
  · simp [h, Fin.val_ne_of_ne (Ne.symm h)]

/-- A run of registers is written, the others are as before. -/
theorem writeFrom_getElem (vals : List (Option Word)) (f : RegFile) (k j : Nat) (hj : j < 8) :
    (RegFile.writeFrom f k vals)[j] = if h : k ≤ j ∧ j - k < vals.length then vals[j - k] else f[j] := by
  induction vals generalizing f k with
  | nil => simp [RegFile.writeFrom]
  | cons v t ih =>
    rw [RegFile.writeFrom, ih]
    by_cases h1 : k + 1 ≤ j
    · have h2 : j - k = (j - (k + 1)) + 1 := by omega
      have h3 : k ≠ j := by omega
      by_cases h4 : j - (k + 1) < t.length
      · have h5 : k ≤ j ∧ j - k < (v :: t).length := ⟨by omega, by simp; omega⟩
        rw [dif_pos ⟨h1, h4⟩, dif_pos h5]
        simp only [h2, List.getElem_cons_succ]
      · have h5 : ¬ (k ≤ j ∧ j - k < (v :: t).length) := by simp; omega
        rw [dif_neg (fun h => h4 h.2), dif_neg h5]
        simp [h3]
    · rw [dif_neg (fun h => h1 h.1)]
      by_cases h3 : k = j
      · subst h3
        simp
      · rw [dif_neg (by omega)]
        simp [h3]

theorem resWritten_setRes (s : State) (vals : List Word) : ResWritten s (s.setRes vals) (vals.map some) := by
  intro k
  have := writeFrom_getElem (vals.map some) s.res 0 k.val k.isLt
  simpa [State.resAt, State.setRes] using this

theorem resWritten_clearRes (s : State) (n : Nat) : ResWritten s (s.clearRes n) (List.replicate n none) := by
  intro k
  have := writeFrom_getElem (List.replicate n none) s.res 0 k.val k.isLt
  simpa [State.resAt, State.clearRes] using this

@[simp] theorem resWritten_nil (s t : State) : ResWritten s t [] ↔ ∀ k : Fin 8, t.resAt k = s.resAt k := by
  simp [ResWritten]

end Sys2Proof.Machine
end

