-- ==== Sys2Proof/Laws/Memory.lean ====
section
/-!
SUPPORT. The peripheral's register cells: read after write, every other register as before, and the canonical form kept.
-/
namespace Sys2Proof.Machine

theorem lookup_insert_self (m : Memory) (a : Nat) (b : Byte) : (m.insert a b).lookup a = some b := by
  induction m with
  | nil => simp [Memory.insert, Memory.lookup]
  | cons c t ih =>
    simp only [Memory.insert]
    split
    · simp [Memory.lookup]
    · split
      · simp [Memory.lookup]
      · rename_i h1 h2
        simp [Memory.lookup, Ne.symm h2, ih]

theorem lookup_insert_ne (m : Memory) (a x : Nat) (b : Byte) (h : x ≠ a) : (m.insert a b).lookup x = m.lookup x := by
  induction m with
  | nil => simp [Memory.insert, Memory.lookup, Ne.symm h]
  | cons c t ih =>
    simp only [Memory.insert]
    split
    · simp [Memory.lookup, Ne.symm h]
    · split
      · rename_i h1 h2
        simp [Memory.lookup, Ne.symm h, ← h2]
      · simp [Memory.lookup, ih]

theorem lookup_store_self (m : Memory) (a : Nat) (b : Byte) (h : a < Config.regCount) :
    (m.store a b).lookup a = some b := by
  simp [Memory.store, h, lookup_insert_self]

theorem lookup_store_ne (m : Memory) (a x : Nat) (b : Byte) (h : x ≠ a) : (m.store a b).lookup x = m.lookup x := by
  unfold Memory.store
  split
  · exact lookup_insert_ne m a x b h
  · rfl

/-- A register no cell of the list names is as before. -/
theorem lookup_storeCells_silent (cells : List Host.Cell) (m : Memory) (x : Nat) (h : ∀ c ∈ cells, c.1 ≠ x) :
    (m.storeCells cells).lookup x = m.lookup x := by
  induction cells generalizing m with
  | nil => rfl
  | cons c t ih =>
    rw [Memory.storeCells, ih _ (fun d hd => h d (List.mem_cons_of_mem _ hd))]
    exact lookup_store_ne m c.1 x c.2 (Ne.symm (h c List.mem_cons_self))

/-- A register outside the stored span is as before. -/
theorem lookup_storeBytes_outside (bytes : List Byte) (m : Memory) (start x : Nat)
    (h : x < start ∨ start + bytes.length ≤ x) : (m.storeBytes start bytes).lookup x = m.lookup x := by
  induction bytes generalizing m start with
  | nil => rfl
  | cons b t ih =>
    simp only [List.length_cons] at h
    rw [Memory.storeBytes, ih _ _ (by omega)]
    exact lookup_store_ne m start x b (by omega)

/-- A register inside the stored span holds its byte. -/
theorem lookup_storeBytes_inside (bytes : List Byte) (m : Memory) (start i : Nat) (h : i < bytes.length)
    (hb : start + bytes.length ≤ Config.regCount) : (m.storeBytes start bytes).lookup (start + i) = some bytes[i] := by
  induction bytes generalizing m start i with
  | nil => simp at h
  | cons b t ih =>
    simp only [List.length_cons] at h hb
    rw [Memory.storeBytes]
    cases i with
    | zero =>
      rw [lookup_storeBytes_outside _ _ _ _ (by omega)]
      exact lookup_store_self m start b (by omega)
    | succ j =>
      have := ih (m.store start b) (start + 1) j (by omega) (by omega)
      rw [Nat.add_assoc, Nat.add_comm 1 j] at this
      simpa using this

/-- The addresses of an insertion are the old ones and the new one. -/
theorem mem_insert {m : Memory} {a : Nat} {b : Byte} {c : Host.Cell} (h : c ∈ m.insert a b) : c = (a, b) ∨ c ∈ m := by
  induction m with
  | nil => simpa [Memory.insert] using h
  | cons d t ih =>
    simp only [Memory.insert] at h
    split at h
    · simpa using h
    · split at h
      · rcases List.mem_cons.mp h with h | h
        · exact Or.inl h
        · exact Or.inr (List.mem_cons_of_mem _ h)
      · rcases List.mem_cons.mp h with h | h
        · exact Or.inr (h ▸ List.mem_cons_self)
        · exact (ih h).imp_right (List.mem_cons_of_mem _)

theorem insert_wf {m : Memory} (hm : m.wf) (a : Nat) (b : Byte) (ha : a < Config.regCount) : (m.insert a b).wf := by
  obtain ⟨hs, hb⟩ := hm
  refine ⟨?_, fun c hc => ?_⟩
  · clear hb
    induction m with
    | nil => simp [Memory.insert]
    | cons d t ih =>
      rw [List.pairwise_cons] at hs
      simp only [Memory.insert]
      split
      · rename_i h
        refine List.pairwise_cons.mpr ⟨fun c hc => ?_, List.pairwise_cons.mpr hs⟩
        rcases List.mem_cons.mp hc with rfl | hc
        · exact h
        · exact Nat.lt_trans h (hs.1 c hc)
      · split
        · rename_i h1 h2
          exact List.pairwise_cons.mpr ⟨fun c hc => by have := hs.1 c hc; simp only; omega, hs.2⟩
        · rename_i h1 h2
          refine List.pairwise_cons.mpr ⟨fun c hc => ?_, ih hs.2⟩
          rcases mem_insert hc with rfl | hc
          · simp only; omega
          · exact hs.1 c hc
  · rcases mem_insert hc with rfl | hc
    · exact ha
    · exact hb c hc

theorem store_wf {m : Memory} (hm : m.wf) (a : Nat) (b : Byte) : (m.store a b).wf := by
  unfold Memory.store
  split
  · rename_i h
    exact insert_wf hm a b h
  · exact hm

theorem storeCells_wf {m : Memory} (hm : m.wf) (cells : List Host.Cell) : (m.storeCells cells).wf := by
  induction cells generalizing m with
  | nil => exact hm
  | cons c t ih => exact ih (store_wf hm c.1 c.2)

theorem storeBytes_wf {m : Memory} (hm : m.wf) (start : Nat) (bytes : List Byte) : (m.storeBytes start bytes).wf := by
  induction bytes generalizing m start with
  | nil => exact hm
  | cons b t ih => exact ih (store_wf hm start b) (start + 1)

end Sys2Proof.Machine
end

