-- ==== Sys2Proof/Laws/Port.lean ====
section
/-!
SUPPORT. Everything the transport port and the procedures over it can do, said once: which events they append, what they leave
unchanged, and which sequence of transactions they make.
-/
namespace Sys2Proof.Machine

/-- What a procedure that makes the transactions `ev` does to the state: HIST, the draws and the peripheral's registers move, and
the block's own registers do not. -/
structure PortMove (s t : State) (ev : List Event) : Prop where
  arg : t.arg = s.arg
  res : t.res = s.res
  status : t.status = s.status
  fault : t.fault = s.fault
  pc : t.pc = s.pc
  dowBase : t.dowBase = s.dowBase
  prog : t.prog = s.prog
  hist : t.hist = s.hist ++ ev
  draws : t.draws = s.draws.drop ev.length
  drawCount : t.drawCount = s.drawCount + ev.length
  wf : s.periph.wf → t.periph.wf
  issued : ∀ e ∈ ev, e.issuer = s.pc
  bounded : ∀ e ∈ ev, e.inBounds
  still : ev = [] → t.periph = s.periph
  replayed : (∀ j, j < ev.length → DrawQuiet (s.drawAt j)) → t.periph = replay s.periph ev
  untouched : ∀ a, (∀ p ∈ ev.map Event.shape, p.1 = true → a < p.2.1 ∨ p.2.1 + p.2.2 ≤ a) →
    (∀ j, j < ev.length → DrawSilentAt (s.drawAt j) a) → t.periph.lookup a = s.periph.lookup a

theorem replay_append (m : Memory) (e f : List Event) : replay m (e ++ f) = replay (replay m e) f := by
  induction e generalizing m with
  | nil => rfl
  | cons x t ih =>
    rcases x with _ | ⟨_, _, _, _ | _⟩ <;> exact ih _

theorem PortMove.refl (s : State) : PortMove s s [] := by
  constructor <;> simp [replay]

theorem PortMove.drawAt {s t : State} {ev : List Event} (h : PortMove s t ev) (j : Nat) :
    t.drawAt j = s.drawAt (ev.length + j) := by
  simp [State.drawAt, h.draws, h.drawCount, Nat.add_assoc]

theorem PortMove.trans {s t u : State} {e f : List Event} (h : PortMove s t e) (k : PortMove t u f) :
    PortMove s u (e ++ f) where
  arg := k.arg.trans h.arg
  res := k.res.trans h.res
  status := k.status.trans h.status
  fault := k.fault.trans h.fault
  pc := k.pc.trans h.pc
  dowBase := k.dowBase.trans h.dowBase
  prog := k.prog.trans h.prog
  hist := by rw [k.hist, h.hist, List.append_assoc]
  draws := by rw [k.draws, h.draws, List.drop_drop, List.length_append]
  drawCount := by rw [k.drawCount, h.drawCount, List.length_append, Nat.add_assoc]
  wf := fun w => k.wf (h.wf w)
  issued := fun x hx => (List.mem_append.mp hx).elim (h.issued x) fun hx => (k.issued x hx).trans h.pc
  bounded := fun x hx => (List.mem_append.mp hx).elim (h.bounded x) (k.bounded x)
  still := fun he => by
    obtain ⟨rfl, rfl⟩ := List.append_eq_nil_iff.mp he
    exact (k.still rfl).trans (h.still rfl)
  replayed := fun hq => by
    rw [replay_append, k.replayed fun j hj => ?_, h.replayed fun j hj => hq j (by rw [List.length_append]; omega)]
    rw [h.drawAt]
    exact hq _ (by rw [List.length_append]; omega)
  untouched := fun a hp hd => by
    simp only [List.map_append, List.mem_append] at hp
    rw [k.untouched a (fun p q => hp p (Or.inr q)) (fun j hj => ?_), h.untouched a (fun p q => hp p (Or.inl q)) fun j hj => ?_]
    · exact hd j (by rw [List.length_append]; omega)
    · rw [h.drawAt]
      exact hd _ (by rw [List.length_append]; omega)

theorem State.nextDraw_eq (s : State) : s.nextDraw = s.drawAt 0 := by
  unfold State.nextDraw State.drawAt
  cases s.draws <;> simp

/-- A read appends one event with what it returned; as many bytes as asked where it succeeded. -/
theorem txRead_portMove (start n : Nat) (s : State) (h1 : 1 ≤ n) (h2 : start + n ≤ 0x13) :
    PortMove s (txRead start n s).2 [.rd s.pc start n (txRead start n s).1] where
  arg := rfl
  res := rfl
  status := rfl
  fault := rfl
  pc := rfl
  dowBase := rfl
  prog := rfl
  hist := rfl
  draws := List.drop_one.symm
  drawCount := rfl
  wf := fun w => storeCells_wf w _
  issued := by simp [Event.issuer]
  bounded := by
    intro e he
    rw [List.mem_singleton.mp he]
    unfold txRead
    by_cases h : s.nextDraw.ok <;> simp [h, Event.inBounds, h1, h2]
  still := fun h => by cases h
  replayed := fun hq => by
    have hq := hq 0 (by simp)
    rw [← State.nextDraw_eq] at hq
    simp [txRead, State.actedPeriph, hq.1, Memory.storeCells, replay]
  untouched := fun a _ hd => by
    have hd := hd 0 (by simp)
    rw [← State.nextDraw_eq] at hd
    exact lookup_storeCells_silent _ _ _ hd.1

theorem txRead_result (start n : Nat) (s : State) :
    (txRead start n s).1 = .fail ∨ ∃ bytes, (txRead start n s).1 = .ok bytes ∧ bytes.length = n := by
  unfold txRead
  by_cases h : s.nextDraw.ok <;> simp [h]

/-- A write appends one event with its bytes and what it returned. -/
theorem txWrite_portMove (start : Nat) (bytes : List Byte) (s : State) (h1 : 1 ≤ bytes.length)
    (h2 : start + bytes.length ≤ 0x13) :
    PortMove s (txWrite start bytes s).2 [.wr s.pc start bytes (txWrite start bytes s).1] where
  arg := rfl
  res := rfl
  status := rfl
  fault := rfl
  pc := rfl
  dowBase := rfl
  prog := rfl
  hist := rfl
  draws := List.drop_one.symm
  drawCount := rfl
  wf := fun w => by
    refine storeCells_wf ?_ _
    split
    · exact storeBytes_wf (storeCells_wf w _) _ _
    · exact storeCells_wf w _
  issued := by simp [Event.issuer]
  bounded := by
    intro e he
    rw [List.mem_singleton.mp he]
    exact ⟨h1, h2⟩
  still := fun h => by cases h
  replayed := fun hq => by
    have hq := hq 0 (by simp)
    rw [← State.nextDraw_eq] at hq
    by_cases h : s.nextDraw.ok <;> simp [txWrite, State.actedPeriph, hq.1, hq.2, h, Memory.storeCells, replay]
  untouched := fun a hp hd => by
    have hd := hd 0 (by simp)
    rw [← State.nextDraw_eq] at hd
    have hp : a < start ∨ start + bytes.length ≤ a := by
      simpa [Event.shape] using hp
    refine (lookup_storeCells_silent _ _ _ hd.2).trans ?_
    split
    · rw [lookup_storeBytes_outside _ _ _ _ hp]
      exact lookup_storeCells_silent _ _ _ hd.1
    · exact lookup_storeCells_silent _ _ _ hd.1

/-- An RMW makes the events of its rule and nothing else (20_memory.md R58). -/
theorem rmw_cases (addr : Nat) (clr set : Byte) (s : State) (h : addr < 0x13) :
    ∃ ev, PortMove s (rmw addr clr set s).2 ev ∧ IsRmw s.pc addr clr set ev (rmw addr clr set s).1 := by
  have hm := txRead_portMove addr 1 s (by omega) (by omega)
  have hr := txRead_result addr 1 s
  unfold rmw
  generalize txRead addr 1 s = p at hm hr ⊢
  obtain ⟨r, s1⟩ := p
  rcases hr with rfl | ⟨bytes, rfl, hl⟩
  · exact ⟨_, hm, Or.inl ⟨rfl, rfl⟩⟩
  · obtain ⟨v, rfl⟩ := List.length_eq_one_iff.mp hl
    have hw := txWrite_portMove addr [rmwValue v clr set] s1 (by simp) (by simpa using h)
    rw [show s1.pc = s.pc from hm.pc] at hw
    exact ⟨_, hm.trans hw, Or.inr ⟨v, rfl⟩⟩

/-- `WriteDateTime` makes the events of its rule and nothing else (41_datetime.md R130). -/
theorem writeDateTime_cases (dt : DateTime) (s : State) :
    ∃ ev, PortMove s (writeDateTime dt s).2 ev ∧
      IsWriteDateTime s.pc (encodeBlock dt) ev (writeDateTime dt s).1.toByte := by
  have hw := txWrite_portMove 0x00 (encodeBlock dt) s (by simp [encodeBlock, wmask]) (by simp [encodeBlock, wmask])
  unfold writeDateTime
  generalize txWrite 0x00 (encodeBlock dt) s = p at hw ⊢
  obtain ⟨r, s1⟩ := p
  cases r with
  | fail => exact ⟨_, hw, Or.inl ⟨rfl, rfl⟩⟩
  | ok =>
    obtain ⟨e1, m1, h1⟩ := rmw_cases addrControl bitEOSC 0x00 s1 (by decide)
    rw [show s1.pc = s.pc from hw.pc] at h1
    dsimp only
    generalize rmw addrControl bitEOSC 0x00 s1 = p at m1 h1 ⊢
    obtain ⟨r, s2⟩ := p
    cases r with
    | fail => exact ⟨_, hw.trans m1, Or.inr (Or.inl ⟨e1, rfl, h1, rfl⟩)⟩
    | ok =>
      obtain ⟨e2, m2, h2⟩ := rmw_cases addrStatus bitOSF 0x00 s2 (by decide)
      rw [show s2.pc = s.pc from m1.pc.trans hw.pc] at h2
      dsimp only
      generalize rmw addrStatus bitOSF 0x00 s2 = p at m2 h2 ⊢
      obtain ⟨r, s3⟩ := p
      have hm : PortMove s s3 (.wr s.pc 0x00 (encodeBlock dt) .ok :: (e1 ++ e2)) := by
        simpa using hw.trans (m1.trans m2)
      cases r with
      | fail => exact ⟨_, hm, Or.inr (Or.inr ⟨e1, e2, rfl, h1, Or.inl ⟨h2, rfl⟩⟩)⟩
      | ok => exact ⟨_, hm, Or.inr (Or.inr ⟨e1, e2, rfl, h1, Or.inr ⟨h2, rfl⟩⟩)⟩

/-- How `StartConv()` ended, in the terms of the statements. -/
def ConvResult.toEnd : ConvResult → ConvEnd
  | .started => .started
  | .busy => .busy
  | .fail => .failed

theorem and_bitBSY (v : Byte) : v &&& bitBSY ≠ 0 ↔ v.getLsbD 2 = true := by
  revert v
  decide

/-- `StartConv()` makes the events of its rule and nothing else (44_control.md R205). -/
theorem convTrigger_cases (s : State) :
    ∃ ev, PortMove s (convTrigger s).2 ev ∧ IsStartConv s.pc ev (convTrigger s).1.toEnd := by
  have hm := txRead_portMove addrStatus 1 s (by omega) (by decide)
  have hr := txRead_result addrStatus 1 s
  unfold convTrigger
  generalize txRead addrStatus 1 s = p at hm hr ⊢
  obtain ⟨r, s1⟩ := p
  rcases hr with rfl | ⟨bytes, rfl, hl⟩
  · exact ⟨_, hm, Or.inl ⟨rfl, rfl⟩⟩
  · obtain ⟨v, rfl⟩ := List.length_eq_one_iff.mp hl
    simp only [List.getD_cons_zero]
    by_cases hb : v &&& bitBSY ≠ 0
    · rw [if_pos hb]
      exact ⟨_, hm, Or.inr (Or.inl ⟨v, (and_bitBSY v).mp hb, rfl, rfl⟩)⟩
    · rw [if_neg hb]
      have hb' : v.getLsbD 2 = false := by
        simpa using fun h => hb ((and_bitBSY v).mpr h)
      obtain ⟨e1, m1, h1⟩ := rmw_cases addrControl 0x00 bitCONV s1 (by decide)
      rw [show s1.pc = s.pc from hm.pc] at h1
      generalize rmw addrControl 0x00 bitCONV s1 = p at m1 h1 ⊢
      obtain ⟨r, s2⟩ := p
      cases r with
      | fail => exact ⟨_, hm.trans m1, Or.inr (Or.inr ⟨v, e1, hb', rfl, Or.inl ⟨h1, rfl⟩⟩)⟩
      | ok => exact ⟨_, hm.trans m1, Or.inr (Or.inr ⟨v, e1, hb', rfl, Or.inr ⟨h1, rfl⟩⟩)⟩

/-! ### What a sequence of transactions looks like beside its row of the table -/

/-- The events `ev` beside a row: a beginning of it, nothing after a failure, and where `complete` all of it and nothing failed. -/
structure TraceFits (ev : List Event) (row : List (Bool × Nat × Nat)) (complete : Prop) : Prop where
  begins : ev.map Event.shape <+: row
  whole : complete → ev.map Event.shape = row
  earlierSucceeded : ∀ e ∈ ev.dropLast, e.succeeded = true
  allSucceeded : complete → ∀ e ∈ ev, e.succeeded = true

theorem TraceFits.nil (c : Prop) : TraceFits [] [] c := by
  constructor <;> simp

/-- A whole row followed by the beginning of another. -/
theorem TraceFits.append {e f : List Event} {r q : List (Bool × Nat × Nat)} {c : Prop} (h : TraceFits e r True)
    (k : TraceFits f q c) : TraceFits (e ++ f) (r ++ q) c where
  begins := by
    rw [List.map_append, h.whole trivial]
    exact (List.prefix_append_right_inj r).mpr k.begins
  whole := fun hc => by rw [List.map_append, h.whole trivial, k.whole hc]
  earlierSucceeded := fun x hx => by
    by_cases hf : f = []
    · subst hf
      rw [List.append_nil] at hx
      exact h.earlierSucceeded x hx
    · rw [List.dropLast_append_of_ne_nil hf] at hx
      exact (List.mem_append.mp hx).elim (h.allSucceeded trivial x) (k.earlierSucceeded x)
  allSucceeded := fun hc x hx => (List.mem_append.mp hx).elim (h.allSucceeded trivial x) (k.allSucceeded hc x)

/-- A row that was not completed is the beginning of a longer one. -/
theorem TraceFits.stop {e : List Event} {r : List (Bool × Nat × Nat)} {c c' : Prop} (h : TraceFits e r c)
    (q : List (Bool × Nat × Nat)) (hc : ¬ c') : TraceFits e (r ++ q) c' where
  begins := h.begins.trans (List.prefix_append r q)
  whole := fun k => absurd k hc
  earlierSucceeded := h.earlierSucceeded
  allSucceeded := fun k => absurd k hc

theorem TraceFits.weaken {e : List Event} {r : List (Bool × Nat × Nat)} {c c' : Prop} (h : TraceFits e r c) (hc : c' → c) :
    TraceFits e r c' where
  begins := h.begins
  whole := fun k => h.whole (hc k)
  earlierSucceeded := h.earlierSucceeded
  allSucceeded := fun k => h.allSucceeded (hc k)

theorem TraceFits.single (e : Event) : TraceFits [e] [e.shape] (e.succeeded = true) := by
  constructor <;> simp

theorem IsRmw.fits {pc addr : Nat} {clr set : Byte} {ev : List Event} {r : WrResult} (h : IsRmw pc addr clr set ev r) :
    TraceFits ev (rmwShape addr) (r = .ok) := by
  rcases h with ⟨rfl, rfl⟩ | ⟨v, rfl⟩
  · exact (TraceFits.single _).stop [(true, addr, 1)] (by simp)
  · refine ((TraceFits.single (.rd pc addr 1 (.ok [v]))).weaken fun _ => rfl).append
      (q := [(true, addr, 1)]) ((TraceFits.single _).weaken ?_)
    rintro rfl
    rfl

theorem IsWriteDateTime.fits {pc : Nat} {bs : List Byte} {ev : List Event} {code : Byte} (h : IsWriteDateTime pc bs ev code)
    (hl : bs.length = 7) : TraceFits ev (transactionRow .setDatetime) (code = 0x00) := by
  have hs : ∀ r, (Event.wr pc 0x00 bs r).shape = (true, 0x00, 7) := fun r => by simp [Event.shape, hl]
  have hw := (TraceFits.single (.wr pc 0x00 bs .ok)).weaken (c' := True) fun _ => rfl
  rw [hs] at hw
  rcases h with ⟨rfl, rfl⟩ | ⟨e1, rfl, h1, rfl⟩ | ⟨e1, e2, rfl, h1, ⟨h2, rfl⟩ | ⟨h2, rfl⟩⟩
  · have := (TraceFits.single (.wr pc 0x00 bs .fail)).stop (c' := (0x01 : Byte) = 0x00) (rmwShape 0x0E ++ rmwShape 0x0F) (by decide)
    rwa [hs] at this
  · exact hw.append (h1.fits.stop (rmwShape 0x0F) (by decide))
  · exact hw.append ((h1.fits.weaken fun _ => rfl).append (h2.fits.weaken fun h => absurd h (by decide)))
  · exact hw.append ((h1.fits.weaken fun _ => rfl).append (h2.fits.weaken fun _ => rfl))

theorem IsSetAlarm.fits {pc start : Nat} {bs : List Byte} {flag : Byte} {ev : List Event} {code : Byte}
    (h : IsSetAlarm pc start bs flag ev code) : TraceFits ev ((true, start, bs.length) :: rmwShape 0x0F) (code = 0x00) := by
  have hw := (TraceFits.single (.wr pc start bs .ok)).weaken (c' := True) fun _ => rfl
  rcases h with ⟨rfl, rfl⟩ | ⟨e1, rfl, ⟨h1, rfl⟩ | ⟨h1, rfl⟩⟩
  · exact (TraceFits.single (.wr pc start bs .fail)).stop (c' := (0x01 : Byte) = 0x00) (rmwShape 0x0F) (by decide)
  · exact hw.append (h1.fits.weaken fun h => absurd h (by decide))
  · exact hw.append (h1.fits.weaken fun _ => rfl)

theorem IsStartConv.fits {pc : Nat} {ev : List Event} {r : ConvEnd} (h : IsStartConv pc ev r) :
    TraceFits ev ((false, 0x0F, 1) :: rmwShape 0x0E) (r = .started) := by
  have hr : ∀ v, TraceFits [.rd pc 0x0F 1 (.ok [v])] [(false, 0x0F, 1)] True := fun v =>
    (TraceFits.single (.rd pc 0x0F 1 (.ok [v]))).weaken fun _ => rfl
  rcases h with ⟨rfl, rfl⟩ | ⟨v, _, rfl, rfl⟩ | ⟨v, e1, _, rfl, ⟨h1, rfl⟩ | ⟨h1, rfl⟩⟩
  · exact (TraceFits.single (.rd pc 0x0F 1 .fail)).stop (rmwShape 0x0E) (by decide)
  · exact (hr v).stop (rmwShape 0x0E) (by decide)
  · exact (hr v).append (h1.fits.weaken fun h => absurd h (by decide))
  · exact (hr v).append (h1.fits.weaken fun _ => rfl)

end Sys2Proof.Machine
end

