-- ==== Sys2Proof/Laws/Checks.lean ====
section
/-!
SUPPORT. The check phase, each shared operation once in both directions: with its operands written it goes on with their values,
and with one of them ⊥ it raises UNWRITTEN_OPERAND (10_state.md R21, 00_scope.md R9); a domain test goes on or raises DOMAIN.
-/
namespace Sys2Proof.Machine

theorem raise_eq {s : State} {w : Word} (h : s.prog[s.pc]? = some w) (c : FaultCause) :
    raise c s = .next (faultedWith s c w) := by
  simp [raise, h, faultedWith]

theorem withArg_some {s : State} {i : Fin 8} {v : Word} (h : s.argAt i = some v) (k : Word → Out) : withArg s i k = k v := by
  simp [withArg, h]

theorem withArg_none {s : State} {i : Fin 8} (h : s.argAt i = none) (k : Word → Out) :
    withArg s i k = raise .unwrittenOperand s := by
  simp [withArg, h]

/-- A read whose continuation raises UNWRITTEN_OPERAND raises it whether or not its own register is written. -/
theorem withArg_raise {s : State} {i : Fin 8} {k : Word → Out} (h : ∀ v, k v = raise .unwrittenOperand s) :
    withArg s i k = raise .unwrittenOperand s := by
  unfold withArg
  split
  · exact h _
  · rfl

theorem withRes_some {s : State} {r : Fin 8} {v : Word} (h : s.resAt r = some v) (k : Word → Out) : withRes s r k = k v := by
  simp [withRes, h]

theorem withRes_none {s : State} {r : Fin 8} (h : s.resAt r = none) (k : Word → Out) :
    withRes s r k = raise .unwrittenOperand s := by
  simp [withRes, h]

theorem requireDomain_true {c : Bool} (h : c = true) (s : State) (k : Out) : requireDomain c s k = k := by
  simp [requireDomain, h]

theorem requireDomain_false {c : Bool} (h : c = false) (s : State) (k : Out) : requireDomain c s k = raise .domain s := by
  simp [requireDomain, h]

/-- The operands of a command that reads ARG0. -/
theorem argsAre_one {s : State} {a : Word} : ArgsAre s [a] ↔ s.argAt 0 = some a := by
  constructor
  · exact fun h => h 0 (by simp)
  · intro h k hk
    obtain ⟨k, hk8⟩ := k
    simp only [List.length_cons, List.length_nil] at hk
    interval_cases k
    exact h

/-- The operands of a command that reads ARG0 and ARG1. -/
theorem argsAre_two {s : State} {a b : Word} : ArgsAre s [a, b] ↔ s.argAt 0 = some a ∧ s.argAt 1 = some b := by
  constructor
  · exact fun h => ⟨h 0 (by simp), h 1 (by simp)⟩
  · rintro ⟨h0, h1⟩ k hk
    obtain ⟨k, hk8⟩ := k
    simp only [List.length_cons, List.length_nil] at hk
    interval_cases k
    · exact h0
    · exact h1

/-- Fewer operands are a beginning of the operands. -/
theorem argsAre_prefix {s : State} {vs ws : List Word} (h : ArgsAre s (vs ++ ws)) : ArgsAre s vs := by
  intro k hk
  have := h k (by rw [List.length_append]; omega)
  rw [List.getElem_append_left hk] at this
  exact this

theorem withArgs3_args {s : State} {a0 a1 a2 : Word} (h : ArgsAre s [a0, a1, a2]) (k : Word → Word → Word → Out) :
    withArgs3 s k = k a0 a1 a2 := by
  have h0 : s.argAt 0 = some a0 := h 0 (by simp)
  have h1 : s.argAt 1 = some a1 := h 1 (by simp)
  have h2 : s.argAt 2 = some a2 := h 2 (by simp)
  simp [withArgs3, withArg, h0, h1, h2]

theorem withArgs7_args {s : State} {a0 a1 a2 a3 a4 a5 a6 : Word} (h : ArgsAre s [a0, a1, a2, a3, a4, a5, a6])
    (k : Word → Word → Word → Word → Word → Word → Word → Out) : withArgs7 s k = k a0 a1 a2 a3 a4 a5 a6 := by
  have h3 : s.argAt 3 = some a3 := h 3 (by simp)
  have h4 : s.argAt 4 = some a4 := h 4 (by simp)
  have h5 : s.argAt 5 = some a5 := h 5 (by simp)
  have h6 : s.argAt 6 = some a6 := h 6 (by simp)
  rw [withArgs7, withArgs3_args (argsAre_prefix (ws := [a3, a4, a5, a6]) h)]
  simp [withArg, h3, h4, h5, h6]

theorem withArgs3_raise {s : State} {k : Word → Word → Word → Out} (h : ∀ a b c, k a b c = raise .unwrittenOperand s) :
    withArgs3 s k = raise .unwrittenOperand s :=
  withArg_raise fun a => withArg_raise fun b => withArg_raise fun c => h a b c

theorem withArgs3_none {s : State} {j : Fin 8} (hj : j.val < 3) (h : s.argAt j = none) (k : Word → Word → Word → Out) :
    withArgs3 s k = raise .unwrittenOperand s := by
  obtain ⟨j, hj8⟩ := j
  simp only at hj
  interval_cases j
  · exact withArg_none h _
  · exact withArg_raise fun _ => withArg_none h _
  · exact withArg_raise fun _ => withArg_raise fun _ => withArg_none h _

theorem withArgs7_none {s : State} {j : Fin 8} (hj : j.val < 7) (h : s.argAt j = none)
    (k : Word → Word → Word → Word → Word → Word → Word → Out) : withArgs7 s k = raise .unwrittenOperand s := by
  by_cases h3 : j.val < 3
  · exact withArgs3_none h3 h _
  · refine withArgs3_raise fun _ _ _ => ?_
    obtain ⟨j, hj8⟩ := j
    simp only at hj h3
    have : 3 ≤ j := by omega
    interval_cases j
    · exact withArg_none h _
    · exact withArg_raise fun _ => withArg_none h _
    · exact withArg_raise fun _ => withArg_raise fun _ => withArg_none h _
    · exact withArg_raise fun _ => withArg_raise fun _ => withArg_raise fun _ => withArg_none h _

theorem withDateTime_args {s : State} {a0 a1 a2 a3 a4 a5 a6 : Word} (h : ArgsAre s [a0, a1, a2, a3, a4, a5, a6])
    (k : DateTime → Out) : withDateTime s k = k (dateTimeOf a0 a1 a2 a3 a4 a5 a6) :=
  withArgs7_args h _

/-! ### The domain tests as the rules word them -/

theorem rangeValid_iff (base : DowBase) (dt : DateTime) :
    rangeValid base dt = true ↔ dt.second ≤ 59 ∧ dt.minute ≤ 59 ∧ dt.hour ≤ 23 ∧
      (base.toNat ≤ dt.dayOfWeek ∧ dt.dayOfWeek ≤ base.toNat + 6) ∧ (1 ≤ dt.dayOfMonth ∧ dt.dayOfMonth ≤ 31) ∧
      (1 ≤ dt.month ∧ dt.month ≤ 12) ∧ 2000 ≤ dt.year ∧ dt.year ≤ 2099 := by
  simp only [rangeValid, Bool.and_eq_true, decide_eq_true_eq]
  simp [Config.yearMin, Config.yearMax, and_assoc]

/-- The validity test is 41_datetime.md R121 as the statements word it. -/
theorem rangeValid_iff_fields (base : DowBase) (dt : DateTime) : rangeValid base dt = true ↔ FieldsInRange base dt := by
  rw [rangeValid_iff]
  simp [FieldsInRange, and_assoc]

theorem timeInRange_iff (s m h : Nat) : timeInRange s m h = true ↔ s ≤ 59 ∧ m ≤ 59 ∧ h ≤ 23 := by
  simp [timeInRange, and_assoc]

theorem isByte_iff (w : Word) : isByte w = true ↔ w.toNat ≤ 0xFF := by simp [isByte]

theorem isBoolean_iff (w : Word) : isBoolean w = true ↔ w.toNat ≤ 1 := by
  rw [show isBoolean w = true ↔ w.toNat = 0 ∨ w.toNat = 1 by simp [isBoolean, BitVec.toNat_eq]]
  omega

theorem isChannel_iff (w : Word) : isChannel w = true ↔ w.toNat = 1 ∨ w.toNat = 2 := by
  simp [isChannel, BitVec.toNat_eq]

theorem yearInRange_iff (w : Word) : yearInRange w = true ↔ 2000 ≤ w.toNat ∧ w.toNat ≤ 2099 := by
  simp only [yearInRange, Bool.and_eq_true, decide_eq_true_eq]
  simp [Config.yearMin, Config.yearMax]

theorem monthInRange_iff (w : Word) : monthInRange w = true ↔ 1 ≤ w.toNat ∧ w.toNat ≤ 12 := by
  simp [monthInRange]

theorem isAlarm1Mode_iff (m : Word) :
    isAlarm1Mode m = true ↔ m.toNat ∈ [0x0F, 0x0E, 0x0C, 0x08, 0x00, 0x10] := by
  simp [isAlarm1Mode, Alarm1Mode.value, BitVec.toNat_eq]

theorem isAlarm2Mode_iff (m : Word) : isAlarm2Mode m = true ↔ m.toNat ∈ [0x0E, 0x0C, 0x08, 0x00, 0x10] := by
  simp [isAlarm2Mode, Alarm2Mode.value, BitVec.toNat_eq]

/-- Among the legal mode values, M[4] is set in 0x10 alone. -/
theorem alarmMode_dayBit {m : Word} (h : m.toNat ∈ [0x0F, 0x0E, 0x0C, 0x08, 0x00, 0x10]) :
    m.getLsbD 4 = true ↔ m.toNat = 0x10 := by
  rw [← BitVec.testBit_toNat]
  generalize m.toNat = n at *
  fin_cases h <;> decide

theorem alarmFieldsInRange_iff (base : DowBase) {m : Word} {p : Prop} (hp : m.getLsbD 4 = true ↔ p) (mi h dd : Nat) :
    alarmFieldsInRange base m mi h dd = true ↔ AlarmFieldsInRange base p mi h dd := by
  have hd : dayDateInRange base m dd = true ↔
      (p ∧ base.toNat ≤ dd ∧ dd ≤ base.toNat + 6) ∨ (¬ p ∧ 1 ≤ dd ∧ dd ≤ 31) := by
    unfold dayDateInRange
    split
    · rename_i hb
      simp only [Bool.and_eq_true, decide_eq_true_eq, hp.mp hb, true_and, not_true, false_and, or_false]
    · rename_i hb
      simp only [Bool.and_eq_true, decide_eq_true_eq, hp.not.mp hb, false_and, not_false_iff, true_and, false_or]
  simp only [alarmFieldsInRange, Bool.and_eq_true, decide_eq_true_eq, hd, and_assoc]

/-- An aging operand is u32(v) with v in -128..127 (30_encoding.md R84). -/
theorem aging_range_iff (a : Word) :
    (-128 ≤ a.toInt && a.toInt ≤ 127) = true ↔ a.toNat ≤ 127 ∨ (2 ^ 32 - 128 ≤ a.toNat ∧ a.toNat < 2 ^ 32) := by
  have := a.isLt
  simp only [Bool.and_eq_true, decide_eq_true_eq, BitVec.toInt_eq_toNat_cond]
  split <;> omega

end Sys2Proof.Machine
end

