-- ==== Sys2Proof/Laws/Codec.lean ====
section
/-!
SUPPORT. The codecs in arithmetic: BCD bytes, masked fields, the register block, alarm bytes and aging bytes, each on its domain.
-/
namespace Sys2Proof.Machine

/-! ### BCD (40_bcd.md) -/

theorem bcdEnc_eq_bcdByte {d : Nat} (h : d ≤ 99) : bcdEnc d = bcdByte d := by
  interval_cases d <;> decide

theorem bcdByte_toNat {d : Nat} (h : d ≤ 99) : (bcdByte d).toNat = 16 * (d / 10) + d % 10 := by
  rw [bcdByte, BitVec.toNat_ofNat]
  omega

theorem bcdDec_eq (b : Byte) : bcdDec b = 10 * (b.toNat / 16) + b.toNat % 16 := by
  revert b
  decide

theorem bcdDec_bcdEnc {d : Nat} (h : d ≤ 99) : bcdDec (bcdEnc d) = d := by
  interval_cases d <;> decide

/-! ### The register block (41_datetime.md) -/

theorem bcdDec_mask128 (b : Byte) : bcdDec (b &&& 0x7F) = maskedBcd 128 b.toNat := by revert b; decide
theorem bcdDec_mask64 (b : Byte) : bcdDec (b &&& 0x3F) = maskedBcd 64 b.toNat := by revert b; decide
theorem bcdDec_mask32 (b : Byte) : bcdDec (b &&& 0x1F) = maskedBcd 32 b.toNat := by revert b; decide
theorem bcdDec_mask8 (b : Byte) : bcdDec (b &&& 0x07) = maskedBcd 8 b.toNat := by revert b; decide
theorem bcdDec_mask256 (b : Byte) : bcdDec (b &&& 0xFF) = maskedBcd 256 b.toNat := by revert b; decide

/-- A register block decodes to its masked fields, or to the canonical invalid DateTime. -/
theorem decodeBlock_eq (base : DowBase) (b0 b1 b2 b3 b4 b5 b6 : Byte) :
    decodeBlock base [b0, b1, b2, b3, b4, b5, b6] =
      if rangeValid base (blockDateTime b0.toNat b1.toNat b2.toNat b3.toNat b4.toNat b5.toNat b6.toNat) then
        (blockDateTime b0.toNat b1.toNat b2.toNat b3.toNat b4.toNat b5.toNat b6.toNat, true)
      else (invalidDT, false) := by
  simp only [decodeBlock, blockField, wmask, List.getD_cons_zero, List.getD_cons_succ, bcdDec_mask128, bcdDec_mask64,
    bcdDec_mask32, bcdDec_mask8, bcdDec_mask256]
  rfl

/-- A time of day decodes to its masked fields, or to zeros. -/
theorem decodeTime_eq (b0 b1 b2 : Byte) :
    decodeTime [b0, b1, b2] =
      if timeInRange (maskedBcd 128 b0.toNat) (maskedBcd 128 b1.toNat) (maskedBcd 64 b2.toNat) then
        ([maskedBcd 128 b0.toNat, maskedBcd 128 b1.toNat, maskedBcd 64 b2.toNat].map (BitVec.ofNat 32), .ok)
      else ([0, 0, 0], .invalidData) := by
  simp only [decodeTime, blockField, wmask, List.getD_cons_zero, List.getD_cons_succ, bcdDec_mask128, bcdDec_mask64]

/-- The masks of the block lose no bit of a field in range. -/
theorem bcdEnc_mask_field :
    (∀ d, d ≤ 59 → bcdEnc d &&& 0x7F = bcdByte d) ∧ (∀ d, d ≤ 31 → bcdEnc d &&& 0x3F = bcdByte d) ∧
    (∀ d, d ≤ 7 → bcdEnc d &&& 0x07 = bcdByte d) ∧ (∀ d, d ≤ 12 → bcdEnc d &&& 0x1F = bcdByte d) ∧
    (∀ d, d ≤ 99 → bcdEnc d &&& 0xFF = bcdByte d) := by
  refine ⟨?_, ?_, ?_, ?_, ?_⟩ <;> intro d h <;> interval_cases d <;> decide

/-- Under either convention a range-valid day of week is at most 7. -/
theorem dayOfWeek_le {base : DowBase} {dt : DateTime} (h : rangeValid base dt = true) : dt.dayOfWeek ≤ 7 := by
  have := ((rangeValid_iff base dt).mp h).2.2.2.1.2
  cases base <;> simp only [DowBase.toNat] at this <;> omega

/-- The register block of a range-valid DateTime is the BCD byte of each field (41_datetime.md R123). -/
theorem encodeBlock_eq {base : DowBase} {dt : DateTime} (h : rangeValid base dt = true) : encodeBlock dt = blockOf dt := by
  have hw := dayOfWeek_le h
  obtain ⟨h0, h1, h2, -, h4, h5, h6, h7⟩ := (rangeValid_iff base dt).mp h
  obtain ⟨m59, m31, m7, m12, m99⟩ := bcdEnc_mask_field
  simp only [encodeBlock, wmask, List.zipWith_cons_cons, List.zipWith_nil_right, blockOf]
  rw [m59 _ h0, m59 _ h1, m31 _ (by omega), m7 _ hw, m31 _ h4.2, m12 _ h5.2, m99 _ (by omega)]

/-! ### Alarm bytes (43_alarm.md) -/

/-- A BCD byte below 0x80 with bit 7 from a mode bit. -/
theorem bcdEnc_modeBit7 {d : Nat} (h : d ≤ 59) (m : Word) (i : Nat) :
    bcdEnc d ||| modeBit m i <<< 7 = bcdByte d + BitVec.ofNat 8 (128 * (m.toNat / 2 ^ i % 2)) := by
  have hb : m.getLsbD i = decide (m.toNat / 2 ^ i % 2 = 1) := by
    rw [← BitVec.testBit_toNat, Nat.testBit_eq_decide_div_mod_eq]
  rw [modeBit, hb]
  rcases Nat.mod_two_eq_zero_or_one (m.toNat / 2 ^ i) with h2 | h2 <;> rw [h2] <;> interval_cases d <;> decide

/-- A day/date register: the field with AxM4 at bit 7 and DY/DT at bit 6. -/
theorem dayDateByte_eq {dd : Nat} (h : dd ≤ 31) (m : Word) :
    dayDateByte m dd = bcdByte dd + BitVec.ofNat 8 (128 * (m.toNat / 8 % 2) + 64 * (m.toNat / 16 % 2)) := by
  have h3 : m.getLsbD 3 = decide (m.toNat / 8 % 2 = 1) := by
    rw [← BitVec.testBit_toNat, Nat.testBit_eq_decide_div_mod_eq]
  have h4 : m.getLsbD 4 = decide (m.toNat / 16 % 2 = 1) := by
    rw [← BitVec.testBit_toNat, Nat.testBit_eq_decide_div_mod_eq]
  rw [dayDateByte, modeBit, modeBit, h3, h4]
  rcases Nat.mod_two_eq_zero_or_one (m.toNat / 8) with h2 | h2 <;>
    rcases Nat.mod_two_eq_zero_or_one (m.toNat / 16) with h1 | h1 <;> rw [h1, h2] <;> interval_cases dd <;> decide

/-! ### Aging and temperature (45_temp_aging.md) -/

theorem agingDec_eq (b : Byte) : agingDec b = b.toInt := by revert b; decide

theorem u32_agingDec (b : Byte) : u32 (agingDec b) = b.signExtend 32 := by revert b; decide

theorem agingEnc_eq {v : Int} (h1 : -128 ≤ v) (h2 : v ≤ 127) : agingEnc v = BitVec.ofInt 8 v := by
  interval_cases v <;> decide

end Sys2Proof.Machine
end

