-- ==== Sys2Proof/Laws/Calendar.lean ====
section
/-!
SUPPORT. The calendar functions (42_epoch.md): what the year and month searches find, and how the day counts grow.
-/
namespace Sys2Proof.Machine

/-! ### The search for the largest index -/

theorem largestUpTo_le (p : Nat → Bool) (n : Nat) : largestUpTo p n ≤ n := by
  induction n with
  | zero => exact Nat.le_refl 0
  | succ n ih =>
    rw [largestUpTo]
    split
    · exact Nat.le_refl _
    · omega

theorem largestUpTo_holds {p : Nat → Bool} (h : p 0 = true) (n : Nat) : p (largestUpTo p n) = true := by
  induction n with
  | zero => exact h
  | succ n ih =>
    rw [largestUpTo]
    split
    · assumption
    · exact ih

theorem largestUpTo_max {p : Nat → Bool} {n k : Nat} (h1 : largestUpTo p n < k) (h2 : k ≤ n) : p k = false := by
  induction n with
  | zero => omega
  | succ n ih =>
    rw [largestUpTo] at h1
    by_cases hp : p (n + 1) = true
    · rw [if_pos hp] at h1
      omega
    · rw [if_neg hp] at h1
      rcases Nat.lt_or_ge n k with h | h
      · rw [show k = n + 1 by omega]
        simpa using hp
      · exact ih h1 h

/-! ### The day counts -/

/-- A year has 365 days, and one more where its number is a multiple of 4 (42_epoch.md R143, R145). -/
theorem daysBeforeYear_succ {y : Nat} (h : 2000 ≤ y) :
    daysBeforeYear (y + 1) = daysBeforeYear y + 365 + if isLeap y then 1 else 0 := by
  simp only [daysBeforeYear, isLeap, beq_iff_eq]
  split <;> omega

/-- A month ends where the next begins (42_epoch.md R140, R142, R146, R147). -/
theorem daysBeforeMonth_succ {y m : Nat} (h1 : 1 ≤ m) (h2 : m ≤ 11) :
    daysBeforeMonth y (m + 1) = daysBeforeMonth y m + daysInMonth y m := by
  unfold daysBeforeMonth daysInMonth
  cases isLeap y <;> interval_cases m <;> rfl

/-- December is the rest of the year. -/
theorem daysBeforeMonth_december (y : Nat) :
    daysBeforeMonth y 12 + daysInMonth y 12 = 365 + if isLeap y then 1 else 0 := by
  unfold daysBeforeMonth daysInMonth
  cases isLeap y <;> rfl

theorem daysBeforeMonth_january (y : Nat) : daysBeforeMonth y 1 = 0 := by
  unfold daysBeforeMonth
  cases isLeap y <;> rfl

theorem daysInMonth_le {y m : Nat} (h1 : 1 ≤ m) (h2 : m ≤ 12) : 28 ≤ daysInMonth y m ∧ daysInMonth y m ≤ 31 := by
  unfold daysInMonth
  cases isLeap y <;> interval_cases m <;> decide

end Sys2Proof.Machine
end

