-- ==== Sys2Proof/Laws/Encoding.lean ====
section
/-!
SUPPORT. The fields of an assembled word are the ones it was assembled from, and the bits its format's mask fixes
(30_encoding.md R81, R82, R88).
-/
namespace Sys2Proof

theorem fin8_testBit (a : Fin 8) (i : Nat) (h : 3 ≤ i) : a.val.testBit i = false :=
  Nat.testBit_lt_two_pow (Nat.lt_of_lt_of_le a.isLt (Nat.pow_le_pow_right (n := 2) (by omega) h))

/-- An assembled word bit by bit: opcode, a, r, z, imm (30_encoding.md R81). -/
theorem assembleWord_bit (imm : Nat) (r a : Fin 8) (op : Byte) (i : Nat) (hi : i < 32) :
    (assembleWord imm r a op).getLsbD i =
      if i < 8 then op.getLsbD i else if i < 11 then a.val.testBit (i - 8) else if i < 14 then r.val.testBit (i - 11)
      else if i < 16 then false else imm.testBit (i - 16) := by
  have ha := fin8_testBit a (i - 8)
  have hr := fin8_testBit r (i - 11)
  simp only [assembleWord, BitVec.getLsbD_or, BitVec.getLsbD_shiftLeft, BitVec.getLsbD_ofNat, BitVec.getLsbD_setWidth]
  interval_cases i <;> simp_all

theorem fieldOp_assembleWord (imm : Nat) (r a : Fin 8) (op : Byte) : fieldOp (assembleWord imm r a op) = op := by
  apply BitVec.eq_of_getLsbD_eq
  intro i hi
  rw [fieldOp, BitVec.getLsbD_extractLsb', assembleWord_bit _ _ _ _ _ (by omega)]
  simp [hi]

theorem fieldA_assembleWord (imm : Nat) (r a : Fin 8) (op : Byte) : fieldA (assembleWord imm r a op) = a := by
  have h : (assembleWord imm r a op).extractLsb' 8 3 = BitVec.ofFin a := by
    apply BitVec.eq_of_getLsbD_eq
    intro i hi
    rw [BitVec.getLsbD_extractLsb', assembleWord_bit _ _ _ _ _ (by omega)]
    simp [hi, show 8 + i < 11 by omega]
  simp [fieldA, h]

theorem fieldR_assembleWord (imm : Nat) (r a : Fin 8) (op : Byte) : fieldR (assembleWord imm r a op) = r := by
  have h : (assembleWord imm r a op).extractLsb' 11 3 = BitVec.ofFin r := by
    apply BitVec.eq_of_getLsbD_eq
    intro i hi
    rw [BitVec.getLsbD_extractLsb', assembleWord_bit _ _ _ _ _ (by omega)]
    rw [if_neg (by omega), if_neg (by omega), if_pos (by omega)]
    simp [hi]
  simp [fieldR, h]

theorem fieldImm_assembleWord (imm : Nat) (r a : Fin 8) (op : Byte) (h : imm < 65536) :
    fieldImm (assembleWord imm r a op) = imm := by
  have h : (assembleWord imm r a op).extractLsb' 16 16 = BitVec.ofNat 16 imm := by
    apply BitVec.eq_of_getLsbD_eq
    intro i hi
    rw [BitVec.getLsbD_extractLsb', assembleWord_bit _ _ _ _ _ (by omega), BitVec.getLsbD_ofNat]
    rw [if_neg (by omega), if_neg (by omega), if_neg (by omega), if_neg (by omega)]
    simp
  simp [fieldImm, h]; omega

/-- A format's must-be-zero bits above the opcode (30_encoding.md R82). -/
theorem mask_bit (f : Format) (i : Nat) (hi : i < 32) : f.mask.getLsbD i =
    match f with
    | .z => true
    | .i => i < 8 || (11 ≤ i && i < 16)
    | .m => i < 8 || 14 ≤ i := by
  cases f <;> (revert i; decide)

theorem assembleWord_maskI (imm : Nat) (a : Fin 8) (op : Byte) :
    assembleWord imm 0 a op &&& Format.mask .i = (op.setWidth 32) := by
  apply BitVec.eq_of_getLsbD_eq
  intro i hi
  rw [BitVec.getLsbD_and, assembleWord_bit _ _ _ _ _ hi, mask_bit _ _ hi, BitVec.getLsbD_setWidth]
  have := fin8_testBit a (i - 8)
  interval_cases i <;> simp_all

theorem assembleWord_maskM (r a : Fin 8) (op : Byte) :
    assembleWord 0 r a op &&& Format.mask .m = (op.setWidth 32) := by
  apply BitVec.eq_of_getLsbD_eq
  intro i hi
  rw [BitVec.getLsbD_and, assembleWord_bit _ _ _ _ _ hi, mask_bit _ _ hi, BitVec.getLsbD_setWidth]
  interval_cases i <;> simp_all

end Sys2Proof
end

