-- ==== Sys2Proof/Laws/Exec.lean ====
section
/-!
SUPPORT. Everything a command can do, said once: it records a fault, or it is a finished operand move, or it completed with the
events, results and code of its rule (`exec_cases`). Provers cite this and do not unfold `exec`.
-/
namespace Sys2Proof.Machine

/-! ### The check phase -/

/-- A fault was recorded about the command at pc, and nothing else changed. -/
def Raised (s t : State) : Prop := ∃ cause w, s.prog[s.pc]? = some w ∧ t = faultedWith s cause w

theorem raise_next {c : FaultCause} {s t : State} (h : raise c s = .next t) : Raised s t := by
  unfold raise at h
  split at h
  · cases h
    exact ⟨c, _, ‹_›, rfl⟩
  · cases h

theorem withArg_next {s t : State} {i : Fin 8} {k : Word → Out} (h : withArg s i k = .next t) :
    Raised s t ∨ ∃ v, s.argAt i = some v ∧ k v = .next t := by
  unfold withArg at h
  split at h
  · exact Or.inr ⟨_, ‹_›, h⟩
  · exact Or.inl (raise_next h)

theorem withRes_next {s t : State} {r : Fin 8} {k : Word → Out} (h : withRes s r k = .next t) :
    Raised s t ∨ ∃ v, s.resAt r = some v ∧ k v = .next t := by
  unfold withRes at h
  split at h
  · exact Or.inr ⟨_, ‹_›, h⟩
  · exact Or.inl (raise_next h)

theorem requireDomain_next {s t : State} {c : Bool} {k : Out} (h : requireDomain c s k = .next t) :
    Raised s t ∨ (c = true ∧ k = .next t) := by
  unfold requireDomain at h
  split at h
  · exact Or.inr ⟨‹_›, h⟩
  · exact Or.inl (raise_next h)

theorem withArgs3_next {s t : State} {k : Word → Word → Word → Out} (h : withArgs3 s k = .next t) :
    Raised s t ∨ ∃ a0 a1 a2, ArgsAre s [a0, a1, a2] ∧ k a0 a1 a2 = .next t := by
  rcases withArg_next h with h | ⟨a0, h0, h⟩
  · exact Or.inl h
  rcases withArg_next h with h | ⟨a1, h1, h⟩
  · exact Or.inl h
  rcases withArg_next h with h | ⟨a2, h2, h⟩
  · exact Or.inl h
  refine Or.inr ⟨a0, a1, a2, fun j hj => ?_, h⟩
  obtain ⟨j, hj'⟩ := j
  simp only [List.length_cons, List.length_nil] at hj
  interval_cases j <;> simp_all

theorem withArgs7_next {s t : State} {k : Word → Word → Word → Word → Word → Word → Word → Out}
    (h : withArgs7 s k = .next t) :
    Raised s t ∨ ∃ a0 a1 a2 a3 a4 a5 a6, ArgsAre s [a0, a1, a2, a3, a4, a5, a6] ∧ k a0 a1 a2 a3 a4 a5 a6 = .next t := by
  rcases withArgs3_next h with h | ⟨a0, a1, a2, h012, h⟩
  · exact Or.inl h
  rcases withArg_next h with h | ⟨a3, h3, h⟩
  · exact Or.inl h
  rcases withArg_next h with h | ⟨a4, h4, h⟩
  · exact Or.inl h
  rcases withArg_next h with h | ⟨a5, h5, h⟩
  · exact Or.inl h
  rcases withArg_next h with h | ⟨a6, h6, h⟩
  · exact Or.inl h
  refine Or.inr ⟨a0, a1, a2, a3, a4, a5, a6, fun j hj => ?_, h⟩
  have h0 := h012 0 (by simp)
  have h1 := h012 1 (by simp)
  have h2 := h012 2 (by simp)
  obtain ⟨j, hj'⟩ := j
  simp only [List.length_cons, List.length_nil] at hj
  interval_cases j <;> simp_all

theorem withDateTime_next {s t : State} {k : DateTime → Out} (h : withDateTime s k = .next t) :
    Raised s t ∨ ∃ dt, k dt = .next t := by
  rcases withArgs7_next h with h | ⟨_, _, _, _, _, _, _, _, h⟩
  · exact Or.inl h
  · exact Or.inr ⟨_, h⟩

theorem withValidDateTime_next {s t : State} {k : DateTime → Out} (h : withValidDateTime s k = .next t) :
    Raised s t ∨ ∃ dt, rangeValid s.dowBase dt = true ∧ k dt = .next t := by
  rcases withDateTime_next h with h | ⟨dt, h⟩
  · exact Or.inl h
  · exact (requireDomain_next h).imp_right fun h => ⟨dt, h⟩

theorem withYearMonth_next {s t : State} {k : Nat → Nat → Out} (h : withYearMonth s k = .next t) :
    Raised s t ∨ ∃ y m, k y m = .next t := by
  rcases withArg_next h with h | ⟨y, _, h⟩
  · exact Or.inl h
  rcases withArg_next h with h | ⟨m, _, h⟩
  · exact Or.inl h
  exact (requireDomain_next h).imp_right fun h => ⟨_, _, h.2⟩

theorem withAlarm1_next {s t : State} {k : List Byte → Out} (h : withAlarm1 s k = .next t) :
    Raised s t ∨ ∃ bs : List Byte, bs.length = 4 ∧ k bs = .next t := by
  rcases withArgs3_next h with h | ⟨m, sec, mi, _, h⟩
  · exact Or.inl h
  rcases withArg_next h with h | ⟨hr, _, h⟩
  · exact Or.inl h
  rcases withArg_next h with h | ⟨dd, _, h⟩
  · exact Or.inl h
  exact (requireDomain_next h).imp_right fun h => ⟨_, rfl, h.2⟩

theorem withAlarm2_next {s t : State} {k : List Byte → Out} (h : withAlarm2 s k = .next t) :
    Raised s t ∨ ∃ bs : List Byte, bs.length = 3 ∧ k bs = .next t := by
  rcases withArgs3_next h with h | ⟨m, mi, hr, _, h⟩
  · exact Or.inl h
  rcases withArg_next h with h | ⟨dd, _, h⟩
  · exact Or.inl h
  exact (requireDomain_next h).imp_right fun h => ⟨_, rfl, h.2⟩

theorem withChannel_next {s t : State} {k : Nat → Out} (h : withChannel s k = .next t) :
    Raised s t ∨ ∃ c, k c = .next t := by
  rcases withArg_next h with h | ⟨c, _, h⟩
  · exact Or.inl h
  · exact (requireDomain_next h).imp_right fun h => ⟨_, h.2⟩

theorem withAging_next {s t : State} {k : Int → Out} (h : withAging s k = .next t) : Raised s t ∨ ∃ v, k v = .next t := by
  rcases withArg_next h with h | ⟨c, _, h⟩
  · exact Or.inl h
  · exact (requireDomain_next h).imp_right fun h => ⟨_, h.2⟩

/-! ### The effect phase -/

/-- The command's RES registers were all written: each with a u32, or, after TRANSPORT_FAIL, each with ⊥
(10_state.md R22, 60_exceptions.md R270). -/
def FillsResults (i : Instr) (vals : List (Option Word)) (code : StatusCode) : Prop :=
  vals.length = resWrites i ∧ ∀ v ∈ vals, (v = none ↔ code = .transportFail)

theorem FillsResults.words {i : Instr} {vals : List Word} {code : StatusCode} (h : vals.length = resWrites i)
    (hc : code ≠ .transportFail) : FillsResults i (vals.map some) code :=
  ⟨by simpa using h, by simp [hc]⟩

theorem FillsResults.cleared (i : Instr) : FillsResults i (List.replicate (resWrites i) none) .transportFail :=
  ⟨by simp, by simp⟩

/-- A command that writes no RES register. -/
theorem FillsResults.nothing {i : Instr} (h : resWrites i = 0) (code : StatusCode) : FillsResults i [] code :=
  ⟨h.symm, by simp⟩

/-- A finished command other than an operand move: the transactions `ev`, the contents `vals` in RES0.., the code in STATUS. -/
def Completed (i : Instr) (s t : State) : Prop :=
  ∃ ev mid vals code, PortMove s mid ev ∧ t = State.finish { mid with res := RegFile.writeFrom mid.res 0 vals } code ∧
    FillsResults i vals code ∧ code ≠ .none ∧ TraceFits ev (transactionRow i) (code = .ok) ∧ isMove i = false

/-- A finished operand move: nothing but ARG[a] and pc changes. -/
def Moved (i : Instr) (s t : State) : Prop :=
  (i = .nop ∧ t = s.advance) ∨
  ∃ a v, ((∃ imm, i = .ldi a imm) ∨ (∃ imm, i = .ldhi a imm) ∨ ∃ r, i = .mov a r) ∧ t = (s.setArg a v).advance

/-- A pure command's finish, in the terms of the statements. -/
theorem pureResult_finish (s : State) (vals : List Word) (code : StatusCode) :
    PureResult s ((s.setRes vals).finish code) vals code.toByte :=
  ⟨resWritten_setRes s vals, rfl, rfl, rfl, rfl, rfl, rfl, rfl, rfl, rfl, rfl⟩

/-- A sequenced command's finish after its transactions, in the terms of the statements. -/
theorem PortMove.sequenced {s mid : State} {ev : List Event} (h : PortMove s mid ev) (vals : List (Option Word))
    (code : StatusCode) :
    SequencedResult s (State.finish { mid with res := RegFile.writeFrom mid.res 0 vals } code) ev vals code.toByte := by
  refine ⟨h.hist, fun k => ?_, rfl, congrArg (· + 1) h.pc, h.arg, h.fault, h.dowBase, h.prog, h.draws, h.drawCount⟩
  have := writeFrom_getElem vals mid.res 0 k.val k.isLt
  simpa [State.resAt, h.res] using this

/-- A finished operand move, in the terms of the statements. -/
theorem moveResult_setArg (s : State) (a : Fin 8) (v : Word) : MoveResult s (s.setArg a v).advance a v :=
  ⟨fun k => argAt_setArg s a v k, rfl, rfl, rfl, rfl, rfl, rfl, rfl, rfl, rfl, rfl⟩

theorem completed_pure {i : Instr} {s t : State} {vals : List Word} {code : StatusCode}
    (h : (Host.Outcome.next ((s.setRes vals).finish code) : Out) = .next t) (hv : vals.length = resWrites i)
    (hc : code ≠ .none ∧ code ≠ .transportFail) (hr : transactionRow i = []) (hm : isMove i = false) : Completed i s t := by
  cases h
  exact ⟨[], s, vals.map some, code, PortMove.refl s, rfl, .words hv hc.2, hc.1, by rw [hr]; exact TraceFits.nil _, hm⟩

/-- A command whose port work ended in `mid` and which then wrote `vals` and `code`. -/
theorem completed_of_move {i : Instr} {s mid : State} {ev : List Event} (h : PortMove s mid ev)
    (vals : List (Option Word)) (code : StatusCode) (hv : FillsResults i vals code) (hc : code ≠ .none)
    (hf : TraceFits ev (transactionRow i) (code = .ok)) (hm : isMove i = false) :
    Completed i s (State.finish { mid with res := RegFile.writeFrom mid.res 0 vals } code) :=
  ⟨ev, mid, vals, code, h, rfl, hv, hc, hf, hm⟩

/-- A command of one RMW. -/
theorem completed_rmw {i : Instr} {s : State} (addr : Nat) (clr set : Byte) (ha : addr < 0x13)
    (hr : transactionRow i = rmwShape addr) (hw : resWrites i = 0) (hm : isMove i = false) :
    Completed i s (finishWr .transportFail (rmw addr clr set s)) := by
  obtain ⟨ev, h, hi⟩ := rmw_cases addr clr set s ha
  unfold finishWr
  generalize rmw addr clr set s = p at h hi ⊢
  obtain ⟨r, s1⟩ := p
  have hf := hi.fits
  rw [← hr] at hf
  cases r
  · exact completed_of_move h [] .ok (.nothing hw _) (by decide) (hf.weaken fun _ => rfl) hm
  · exact completed_of_move h [] .transportFail (.nothing hw _) (by decide) (hf.weaken fun h => absurd h (by decide)) hm

/-- A command of one read, with the RES registers it clears after a failed read. -/
theorem completed_read {i : Instr} {s : State} (start n : Nat) (hn : 1 ≤ n) (hb : start + n ≤ 0x13)
    (hr : transactionRow i = [(false, start, n)]) (hm : isMove i = false)
    (vals : List Byte → List Word) (code : List Byte → StatusCode) (hv : ∀ bs, (vals bs).length = resWrites i)
    (hc : ∀ bs, code bs ≠ .none ∧ code bs ≠ .transportFail) :
    Completed i s (match txRead start n s with
      | (.fail, s1) => (s1.clearRes (resWrites i)).finish .transportFail
      | (.ok bytes, s1) => (s1.setRes (vals bytes)).finish (code bytes)) := by
  have h := txRead_portMove start n s hn hb
  generalize txRead start n s = p at h ⊢
  obtain ⟨r, s1⟩ := p
  have hf := TraceFits.single (.rd s.pc start n r)
  cases r with
  | fail =>
    exact completed_of_move h (List.replicate (resWrites i) none) .transportFail (.cleared i) (by decide)
      (by rw [hr]; exact hf.weaken fun h => absurd h (by decide)) hm
  | ok bytes =>
    exact completed_of_move h ((vals bytes).map some) (code bytes) (.words (hv bytes) (hc bytes).2) (hc bytes).1
      (by rw [hr]; exact hf.weaken fun _ => rfl) hm

theorem completed_setDatetime (dt : DateTime) (s : State) : Completed .setDatetime s (s.finishWriteDateTime dt) := by
  obtain ⟨ev, h, hi⟩ := writeDateTime_cases dt s
  have hf := hi.fits rfl
  refine completed_of_move h [] _ (.nothing rfl _) ?_ (hf.weaken fun h => by rw [h]; rfl) rfl
  intro hc
  rw [hc] at hi
  rcases hi with ⟨_, h⟩ | ⟨_, _, _, h⟩ | ⟨_, _, _, _, ⟨_, h⟩ | ⟨_, h⟩⟩ <;> exact absurd h (by decide)

theorem completed_setTime (a b c : Nat) (s : State) : Completed .setTime s (setTimeEffect a b c s) := by
  have h := txRead_portMove 0x00 7 s (by omega) (by omega)
  unfold setTimeEffect
  generalize txRead 0x00 7 s = p at h ⊢
  obtain ⟨r, s1⟩ := p
  have hf := TraceFits.single (.rd s.pc 0x00 7 r)
  cases r with
  | fail => exact completed_of_move h [] .transportFail (.nothing rfl _) (by decide) (hf.stop _ (by decide)) rfl
  | ok bytes =>
    dsimp only
    split
    · generalize hd : ({ (decodeBlock s.dowBase bytes).1 with second := a, minute := b, hour := c } : DateTime) = dt
      obtain ⟨ev, m, vals, code, h2, ht, hv, hc, hf2, _⟩ := completed_setDatetime dt s1
      refine ⟨_, m, vals, code, h.trans h2, ht, hv, hc, ?_, rfl⟩
      exact (hf.weaken fun _ => rfl).append hf2
    · exact completed_of_move h [] .invalidData (.nothing rfl _) (by decide) (hf.stop _ (by decide)) rfl

theorem completed_setAlarm {i : Instr} (s : State) (start c : Nat) (bs : List Byte) (h1 : 1 ≤ bs.length)
    (h2 : start + bs.length ≤ 0x13) (hr : transactionRow i = (true, start, bs.length) :: rmwShape 0x0F)
    (hw : resWrites i = 0) (hm : isMove i = false) : Completed i s (setAlarmEffect start c bs s) := by
  have h := txWrite_portMove start bs s h1 h2
  unfold setAlarmEffect
  generalize txWrite start bs s = p at h ⊢
  obtain ⟨r, s1⟩ := p
  have hf := TraceFits.single (.wr s.pc start bs r)
  cases r with
  | fail =>
    exact completed_of_move h [] .transportFail (.nothing hw _) (by decide) (by rw [hr]; exact hf.stop _ (by decide)) hm
  | ok =>
    obtain ⟨e1, m1, hi⟩ := rmw_cases addrStatus (chbit c) 0x00 s1 (by decide)
    dsimp only [finishWr]
    generalize rmw addrStatus (chbit c) 0x00 s1 = p at m1 hi ⊢
    obtain ⟨r, s2⟩ := p
    have hf := (hf.weaken (c' := True) fun _ => rfl).append hi.fits
    cases r
    · exact completed_of_move (h.trans m1) [] .ok (.nothing hw _) (by decide) (by rw [hr]; exact hf.weaken fun _ => rfl) hm
    · exact completed_of_move (h.trans m1) [] .flagClearFail (.nothing hw _) (by decide)
        (by rw [hr]; exact hf.weaken fun h => absurd h (by decide)) hm

theorem completed_alarmIntEnable (c : Nat) (en : Bool) (s : State) :
    Completed .alarmIntEnable s (alarmIntEnableEffect c en s) := by
  obtain ⟨e1, m1, h1⟩ := rmw_cases addrStatus (chbit c) 0x00 s (by decide)
  unfold alarmIntEnableEffect
  generalize rmw addrStatus (chbit c) 0x00 s = p at m1 h1 ⊢
  obtain ⟨r, s1⟩ := p
  cases r with
  | fail => exact completed_of_move m1 [] .transportFail (.nothing rfl _) (by decide) (h1.fits.stop _ (by decide)) rfl
  | ok =>
    have h2 : ∃ e2 clr set, PortMove s1 (if en then rmw addrControl 0x00 (bitINTCN ||| chbit c) s1
          else rmw addrControl (chbit c) bitINTCN s1).2 e2 ∧
        IsRmw s1.pc addrControl clr set e2 (if en then rmw addrControl 0x00 (bitINTCN ||| chbit c) s1
          else rmw addrControl (chbit c) bitINTCN s1).1 := by
      cases en
      · obtain ⟨e2, h⟩ := rmw_cases addrControl (chbit c) bitINTCN s1 (by decide)
        exact ⟨e2, _, _, h⟩
      · obtain ⟨e2, h⟩ := rmw_cases addrControl 0x00 (bitINTCN ||| chbit c) s1 (by decide)
        exact ⟨e2, _, _, h⟩
    obtain ⟨e2, clr, set, m2, h2⟩ := h2
    dsimp only [finishWr]
    generalize (if en then rmw addrControl 0x00 (bitINTCN ||| chbit c) s1
      else rmw addrControl (chbit c) bitINTCN s1) = p at m2 h2 ⊢
    obtain ⟨r, s2⟩ := p
    have hf := (h1.fits.weaken (c' := True) fun _ => rfl).append h2.fits
    cases r
    · exact completed_of_move (m1.trans m2) [] .ok (.nothing rfl _) (by decide) (hf.weaken fun _ => rfl) rfl
    · exact completed_of_move (m1.trans m2) [] .transportFail (.nothing rfl _) (by decide)
        (hf.weaken fun h => absurd h (by decide)) rfl

theorem completed_startConv (s : State) : ∃ t, execStartConv s = .next t ∧ Completed .startConv s t := by
  obtain ⟨ev, h, hi⟩ := convTrigger_cases s
  unfold execStartConv
  generalize convTrigger s = p at h hi ⊢
  obtain ⟨r, s1⟩ := p
  refine ⟨_, rfl, ?_⟩
  have hf := hi.fits
  cases r
  · exact completed_of_move h [some 1] .ok (.words (vals := [1]) rfl (by decide)) (by decide) (hf.weaken fun _ => rfl) rfl
  · exact completed_of_move h [some 0] .busy (.words (vals := [0]) rfl (by decide)) (by decide) (hf.weaken fun h => absurd h (by decide)) rfl
  · exact completed_of_move h [none] .transportFail (.cleared .startConv) (by decide) (hf.weaken fun h => absurd h (by decide)) rfl

theorem completed_setAging (v : Int) (s : State) : Completed .setAging s (setAgingEffect v s) := by
  have h := txWrite_portMove 0x10 [agingEnc v] s (by simp) (by simp)
  unfold setAgingEffect
  generalize txWrite 0x10 [agingEnc v] s = p at h ⊢
  obtain ⟨r, s1⟩ := p
  have hf := TraceFits.single (.wr s.pc 0x10 [agingEnc v] r)
  cases r with
  | fail => exact completed_of_move h [] .transportFail (.nothing rfl _) (by decide) (hf.stop _ (by decide)) rfl
  | ok =>
    obtain ⟨e1, m1, hi⟩ := convTrigger_cases s1
    dsimp only
    generalize convTrigger s1 = p at m1 hi ⊢
    obtain ⟨r, s2⟩ := p
    have hf := (hf.weaken (c' := True) fun _ => rfl).append hi.fits
    cases r
    · exact completed_of_move (h.trans m1) [] .ok (.nothing rfl _) (by decide) (hf.weaken fun _ => rfl) rfl
    · exact completed_of_move (h.trans m1) [] .busy (.nothing rfl _) (by decide)
        (hf.weaken fun h => absurd h (by decide)) rfl
    · exact completed_of_move (h.trans m1) [] .convFail (.nothing rfl _) (by decide)
        (hf.weaken fun h => absurd h (by decide)) rfl

/-! ### Every command -/

theorem decodeTime_length (bs : List Byte) : (decodeTime bs).1.length = 3 := by
  unfold decodeTime
  dsimp only
  split <;> rfl

theorem decodeTime_code (bs : List Byte) : (decodeTime bs).2 ≠ .none ∧ (decodeTime bs).2 ≠ .transportFail := by
  unfold decodeTime
  dsimp only
  split <;> simp

theorem validityCode_ne (b : Bool) : validityCode b ≠ .none ∧ validityCode b ≠ .transportFail := by cases b <;> decide

/-- What a command can do where `exec` answers a next state. -/
theorem exec_cases {i : Instr} {s t : State} (h : exec i s = .next t) : Raised s t ∨ Moved i s t ∨ Completed i s t := by
  cases i <;> simp only [exec] at h
  case nop =>
    cases h
    exact Or.inr (Or.inl (Or.inl ⟨rfl, rfl⟩))
  case ldi a imm =>
    cases h
    exact Or.inr (Or.inl (Or.inr ⟨a, _, Or.inl ⟨imm, rfl⟩, rfl⟩))
  case ldhi a imm =>
    refine (withArg_next h).imp_right fun ⟨v, _, h⟩ => ?_
    cases h
    exact Or.inl (Or.inr ⟨a, _, Or.inr (Or.inl ⟨imm, rfl⟩), rfl⟩)
  case mov a r =>
    refine (withRes_next h).imp_right fun ⟨v, _, h⟩ => ?_
    cases h
    exact Or.inl (Or.inr ⟨a, _, Or.inr (Or.inr ⟨r, rfl⟩), rfl⟩)
  case bcdEnc =>
    rcases withArg_next h with h | ⟨d, _, h⟩
    · exact Or.inl h
    exact (requireDomain_next h).imp_right fun h => Or.inr (completed_pure h.2 (by simp [resWrites]) (by decide) rfl rfl)
  case bcdDec =>
    rcases withArg_next h with h | ⟨d, _, h⟩
    · exact Or.inl h
    exact (requireDomain_next h).imp_right fun h => Or.inr (completed_pure h.2 (by simp [resWrites]) (by decide) rfl rfl)
  case dtValidate =>
    refine (withDateTime_next h).imp_right fun ⟨dt, h⟩ => Or.inr ?_
    split at h
    · exact completed_pure h (by simp [resWrites]) (by decide) rfl rfl
    · exact completed_pure h (by simp [resWrites]) (by decide) rfl rfl
  case dtEncode =>
    refine (withValidDateTime_next h).imp_right fun ⟨dt, _, h⟩ => Or.inr ?_
    exact completed_pure h (by simp [resWrites, encodeBlock, wmask]) (by decide) rfl rfl
  case dtDecode =>
    rcases withArgs7_next h with h | ⟨_, _, _, _, _, _, _, _, h⟩
    · exact Or.inl h
    refine (requireDomain_next h).imp_right fun h => Or.inr ?_
    exact completed_pure h.2 (by simp [resWrites, DateTime.toWords]) (validityCode_ne _) rfl rfl
  case timeDecode =>
    rcases withArgs3_next h with h | ⟨_, _, _, _, h⟩
    · exact Or.inl h
    refine (requireDomain_next h).imp_right fun h => Or.inr ?_
    exact completed_pure h.2 (by rw [decodeTime_length]; decide) (decodeTime_code _) rfl rfl
  case setDatetime =>
    refine (withValidDateTime_next h).imp_right fun ⟨dt, _, h⟩ => Or.inr ?_
    cases h
    exact completed_setDatetime dt s
  case getDatetime =>
    cases h
    exact Or.inr (Or.inr (completed_read 0x00 7 (by omega) (by omega) rfl rfl
      (fun bs => (decodeBlock s.dowBase bs).1.toWords) (fun bs => validityCode (decodeBlock s.dowBase bs).2)
      (fun bs => by simp [resWrites, DateTime.toWords]) (fun bs => validityCode_ne _)))
  case getTime =>
    cases h
    exact Or.inr (Or.inr (completed_read 0x00 3 (by omega) (by omega) rfl rfl
      (fun bs => (decodeTime bs).1) (fun bs => (decodeTime bs).2)
      (fun bs => by rw [decodeTime_length]; decide) decodeTime_code))
  case setTime =>
    rcases withArgs3_next h with h | ⟨_, _, _, _, h⟩
    · exact Or.inl h
    refine (requireDomain_next h).imp_right fun h => Or.inr ?_
    cases h.2
    exact completed_setTime _ _ _ s
  case isLeap =>
    rcases withArg_next h with h | ⟨d, _, h⟩
    · exact Or.inl h
    exact (requireDomain_next h).imp_right fun h => Or.inr (completed_pure h.2 (by simp [resWrites]) (by decide) rfl rfl)
  case daysInMonth =>
    refine (withYearMonth_next h).imp_right fun ⟨y, m, h⟩ => Or.inr ?_
    exact completed_pure h (by simp [resWrites]) (by decide) rfl rfl
  case daysBeforeMonth =>
    refine (withYearMonth_next h).imp_right fun ⟨y, m, h⟩ => Or.inr ?_
    exact completed_pure h (by simp [resWrites]) (by decide) rfl rfl
  case daysBeforeYear =>
    rcases withArg_next h with h | ⟨d, _, h⟩
    · exact Or.inl h
    exact (requireDomain_next h).imp_right fun h => Or.inr (completed_pure h.2 (by simp [resWrites]) (by decide) rfl rfl)
  case toEpoch =>
    refine (withValidDateTime_next h).imp_right fun ⟨dt, _, h⟩ => Or.inr ?_
    exact completed_pure h (by simp [resWrites]) (by decide) rfl rfl
  case fromEpoch =>
    rcases withArg_next h with h | ⟨d, _, h⟩
    · exact Or.inl h
    refine (requireDomain_next h).imp_right fun h => Or.inr ?_
    exact completed_pure h.2 (by simp [resWrites, DateTime.toWords]) (by decide) rfl rfl
  case alarm1Encode =>
    refine (withAlarm1_next h).imp_right fun ⟨bs, hl, h⟩ => Or.inr ?_
    exact completed_pure h (by simp [resWrites, hl]) (by decide) rfl rfl
  case alarm2Encode =>
    refine (withAlarm2_next h).imp_right fun ⟨bs, hl, h⟩ => Or.inr ?_
    exact completed_pure h (by simp [resWrites, hl]) (by decide) rfl rfl
  case setAlarm1 =>
    refine (withAlarm1_next h).imp_right fun ⟨bs, hl, h⟩ => Or.inr ?_
    cases h
    exact completed_setAlarm s 0x07 1 bs (by omega) (by omega) (by rw [hl]; rfl) rfl rfl
  case setAlarm2 =>
    refine (withAlarm2_next h).imp_right fun ⟨bs, hl, h⟩ => Or.inr ?_
    cases h
    exact completed_setAlarm s 0x0B 2 bs (by omega) (by omega) (by rw [hl]; rfl) rfl rfl
  case alarmIntEnable =>
    rcases withArg_next h with h | ⟨c, _, h⟩
    · exact Or.inl h
    rcases withArg_next h with h | ⟨en, _, h⟩
    · exact Or.inl h
    refine (requireDomain_next h).imp_right fun h => Or.inr ?_
    cases h.2
    exact completed_alarmIntEnable _ _ s
  case getAlarmFlag =>
    refine (withChannel_next h).imp_right fun ⟨c, h⟩ => Or.inr ?_
    cases h
    exact completed_read addrStatus 1 (by omega) (by decide) rfl rfl
      (fun bs => [zext32 ((bs.getD 0 0 >>> (c - 1)) &&& 1)]) (fun _ => .ok) (fun _ => by simp [resWrites]) (fun _ => by decide)
  case clearAlarmFlag =>
    refine (withChannel_next h).imp_right fun ⟨c, h⟩ => Or.inr ?_
    cases h
    exact completed_rmw _ _ _ (by decide) rfl rfl rfl
  case setOscEnable =>
    rcases withArg_next h with h | ⟨en, _, h⟩
    · exact Or.inl h
    refine (requireDomain_next h).imp_right fun h => Or.inr ?_
    cases h.2
    split <;> exact completed_rmw _ _ _ (by decide) rfl rfl rfl
  case setSquareWave =>
    rcases withArg_next h with h | ⟨q, _, h⟩
    · exact Or.inl h
    refine (requireDomain_next h).imp_right fun h => Or.inr ?_
    cases h.2
    split <;> exact completed_rmw _ _ _ (by decide) rfl rfl rfl
  case set32khz =>
    rcases withArg_next h with h | ⟨en, _, h⟩
    · exact Or.inl h
    refine (requireDomain_next h).imp_right fun h => Or.inr ?_
    cases h.2
    split <;> exact completed_rmw _ _ _ (by decide) rfl rfl rfl
  case startConv =>
    obtain ⟨u, hu, hc⟩ := completed_startConv s
    rw [hu] at h
    cases h
    exact Or.inr (Or.inr hc)
  case getOsf =>
    cases h
    exact Or.inr (Or.inr (completed_read addrStatus 1 (by omega) (by decide) rfl rfl
      (fun bs => [zext32 (bs.getD 0 0 >>> 7)]) (fun _ => .ok) (fun _ => by simp [resWrites]) (fun _ => by decide)))
  case agingEnc =>
    refine (withAging_next h).imp_right fun ⟨v, h⟩ => Or.inr ?_
    exact completed_pure h (by simp [resWrites]) (by decide) rfl rfl
  case agingDec =>
    rcases withArg_next h with h | ⟨d, _, h⟩
    · exact Or.inl h
    exact (requireDomain_next h).imp_right fun h => Or.inr (completed_pure h.2 (by simp [resWrites]) (by decide) rfl rfl)
  case tempDecode =>
    rcases withArg_next h with h | ⟨a, _, h⟩
    · exact Or.inl h
    rcases withArg_next h with h | ⟨b, _, h⟩
    · exact Or.inl h
    refine (requireDomain_next h).imp_right fun h => Or.inr ?_
    exact completed_pure h.2 (by simp [resWrites, tempWords]) (by decide) rfl rfl
  case setAging =>
    refine (withAging_next h).imp_right fun ⟨v, h⟩ => Or.inr ?_
    cases h
    exact completed_setAging v s
  case getAging =>
    cases h
    exact Or.inr (Or.inr (completed_read 0x10 1 (by omega) (by decide) rfl rfl
      (fun bs => [u32 (agingDec (bs.getD 0 0))]) (fun _ => .ok) (fun _ => by simp [resWrites]) (fun _ => by decide)))
  case getTemp =>
    cases h
    exact Or.inr (Or.inr (completed_read 0x11 2 (by omega) (by decide) rfl rfl
      (fun bs => tempWords (bs.getD 0 0) (bs.getD 1 0)) (fun _ => .ok) (fun _ => by simp [resWrites, tempWords])
      (fun _ => by decide)))

end Sys2Proof.Machine
end

