-- ==== Sys2Proof/Laws/PerInstr.lean ====
section
/-!
SUPPORT. A statement about every command as syntax: the bits its format fixes are its opcode and zeros (30_encoding.md R82, R88).
-/
namespace Sys2Proof.Laws.FixedBits
open Sys2Proof

/-- The encoder leaves every must-be-zero bit of the command's format zero and puts the opcode in bits 7:0. -/
def Statement (i : Instr) : Prop := encode i &&& (formatOf i).mask = (opcode i).setWidth 32

theorem or3_and (p q r m : BitVec 32) : (p ||| q ||| r) &&& m = (p &&& m) ||| (q &&& m) ||| (r &&& m) := by
  apply BitVec.eq_of_getLsbD_eq
  intro b _
  simp only [BitVec.getLsbD_and, BitVec.getLsbD_or]
  cases p.getLsbD b <;> cases q.getLsbD b <;> cases r.getLsbD b <;> cases m.getLsbD b <;> rfl

/-- A format-I word, whatever its immediate. -/
theorem formatI (imm : Nat) (a : Fin 8) (op : BitVec 8) : assembleWord imm 0 a op &&& 0x0000F8FF = op.setWidth 32 := by
  have ha : BitVec.ofNat 32 a.val <<< 8 &&& 0x0000F8FF = 0 := by revert a; decide
  have hx : BitVec.ofNat 32 imm <<< 16 &&& 0x0000F8FF = 0 := by
    apply BitVec.eq_of_getLsbD_eq
    intro b hb
    interval_cases b <;> simp
  have ho : op.setWidth 32 &&& 0x0000F8FF = op.setWidth 32 := by revert op; decide
  have hz : BitVec.ofNat 32 imm <<< 16 ||| BitVec.ofNat 32 (0 : Fin 8).val <<< 11 = BitVec.ofNat 32 imm <<< 16 := by
    apply BitVec.eq_of_getLsbD_eq
    simp
  rw [assembleWord, hz, or3_and, ha, hx, ho]
  simp

theorem nop : Statement .nop := rfl

theorem ldi (a : Fin 8) (imm : Nat) : Statement (.ldi a imm) := formatI _ a _

theorem ldhi (a : Fin 8) (imm : Nat) : Statement (.ldhi a imm) := formatI _ a _

theorem mov (a r : Fin 8) : Statement (.mov a r) := by
  revert a r
  unfold Statement
  decide

theorem bcdEnc : Statement .bcdEnc := rfl

theorem bcdDec : Statement .bcdDec := rfl

theorem dtValidate : Statement .dtValidate := rfl

theorem dtEncode : Statement .dtEncode := rfl

theorem dtDecode : Statement .dtDecode := rfl

theorem timeDecode : Statement .timeDecode := rfl

theorem setDatetime : Statement .setDatetime := rfl

theorem getDatetime : Statement .getDatetime := rfl

theorem getTime : Statement .getTime := rfl

theorem setTime : Statement .setTime := rfl

theorem isLeap : Statement .isLeap := rfl

theorem daysInMonth : Statement .daysInMonth := rfl

theorem daysBeforeMonth : Statement .daysBeforeMonth := rfl

theorem daysBeforeYear : Statement .daysBeforeYear := rfl

theorem toEpoch : Statement .toEpoch := rfl

theorem fromEpoch : Statement .fromEpoch := rfl

theorem alarm1Encode : Statement .alarm1Encode := rfl

theorem alarm2Encode : Statement .alarm2Encode := rfl

theorem setAlarm1 : Statement .setAlarm1 := rfl

theorem setAlarm2 : Statement .setAlarm2 := rfl

theorem alarmIntEnable : Statement .alarmIntEnable := rfl

theorem getAlarmFlag : Statement .getAlarmFlag := rfl

theorem clearAlarmFlag : Statement .clearAlarmFlag := rfl

theorem setOscEnable : Statement .setOscEnable := rfl

theorem setSquareWave : Statement .setSquareWave := rfl

theorem set32khz : Statement .set32khz := rfl

theorem startConv : Statement .startConv := rfl

theorem getOsf : Statement .getOsf := rfl

theorem agingEnc : Statement .agingEnc := rfl

theorem agingDec : Statement .agingDec := rfl

theorem tempDecode : Statement .tempDecode := rfl

theorem setAging : Statement .setAging := rfl

theorem getAging : Statement .getAging := rfl

theorem getTemp : Statement .getTemp := rfl

end Sys2Proof.Laws.FixedBits
end

