-- ==== Sys2Proof/Tests/Slice0.lean ====
section
/-!
SUPPORT. Tests of one step or one word each, with the results spec/95_test_vectors.md and the cited rules give, and a witness for
the hypotheses of every obligation that has some.
-/
namespace Sys2Proof.Tests
open Sys2Proof Sys2Proof.Machine

/-! ### Well-formedness (30_encoding.md R83, R88) -/

theorem test_ldi_refuses_wide_immediate : (Instr.ldi 0 65536).wellFormed = false := by decide
theorem test_ldhi_refuses_wide_immediate : (Instr.ldhi 7 65536).wellFormed = false := by decide
theorem test_ldi_takes_widest_immediate : (Instr.ldi 0 65535).wellFormed = true := by decide

/-! ### Decoding: words written out from 30_encoding.md R81, R82, R85, R90 -/

theorem test_decode_moves :
    decode 0x00000000 = .ok .nop ∧ decode 0x07E80601 = .ok (.ldi 6 2024) ∧ decode 0xFFFF0002 = .ok (.ldhi 0 0xFFFF) ∧
    decode 0x00002B03 = .ok (.mov 3 5) ∧ decode 0x00003807 = .error (.unassignedOpcode 0x07) := by decide
theorem test_decode_bits :
    decode 0b10000000000000010000010100000001 = .ok (.ldi 5 0x8001) ∧
    decode 0b00000000000000000011010000000011 = .ok (.mov 4 6) := by decide
theorem test_decode_bcd :
    decode 0x00000010 = .ok .bcdEnc ∧ decode 0x00000011 = .ok .bcdDec := by decide
theorem test_decode_datetimePure :
    decode 0x00000020 = .ok .dtValidate ∧ decode 0x00000021 = .ok .dtEncode ∧ decode 0x00000022 = .ok .dtDecode ∧
    decode 0x00000023 = .ok .timeDecode := by decide
theorem test_decode_datetimeSequenced :
    decode 0x00000028 = .ok .setDatetime ∧ decode 0x00000029 = .ok .getDatetime ∧ decode 0x0000002A = .ok .getTime ∧
    decode 0x0000002B = .ok .setTime := by decide
theorem test_decode_calendar :
    decode 0x00000030 = .ok .isLeap ∧ decode 0x00000031 = .ok .daysInMonth ∧
    decode 0x00000032 = .ok .daysBeforeMonth ∧ decode 0x00000033 = .ok .daysBeforeYear ∧
    decode 0x00000034 = .ok .toEpoch ∧ decode 0x00000035 = .ok .fromEpoch := by decide
theorem test_decode_alarmPure :
    decode 0x00000040 = .ok .alarm1Encode ∧ decode 0x00000041 = .ok .alarm2Encode := by decide
theorem test_decode_alarmSequenced :
    decode 0x00000048 = .ok .setAlarm1 ∧ decode 0x00000049 = .ok .setAlarm2 ∧
    decode 0x0000004A = .ok .alarmIntEnable ∧ decode 0x0000004B = .ok .getAlarmFlag ∧
    decode 0x0000004C = .ok .clearAlarmFlag := by decide
theorem test_decode_control :
    decode 0x00000050 = .ok .setOscEnable ∧ decode 0x00000051 = .ok .setSquareWave ∧
    decode 0x00000052 = .ok .set32khz ∧ decode 0x00000053 = .ok .startConv ∧
    decode 0x00000054 = .ok .getOsf := by decide
theorem test_decode_agingTemp :
    decode 0x00000060 = .ok .agingEnc ∧ decode 0x00000061 = .ok .agingDec ∧ decode 0x00000062 = .ok .tempDecode ∧
    decode 0x00000068 = .ok .setAging ∧ decode 0x00000069 = .ok .getAging ∧
    decode 0x0000006A = .ok .getTemp := by decide

/-- 95_test_vectors.md §2.7: bits that must be zero. -/
theorem test_illegal_reserved_bits :
    [0x00004010, 0x00000110, 0x00001010, 0x00010010, 0x00004001, 0x00000801, 0x00010003, 0x00004003].all
      (fun w : Word => match decode w with | .error (.nonzeroReserved _) => true | _ => false) = true := by decide

/-- 95_test_vectors.md §2.7: unassigned opcodes. -/
theorem test_illegal_opcodes :
    [0x04, 0x12, 0x24, 0x2C, 0x36, 0x42, 0x4D, 0x55, 0x63, 0x6B, 0xFF].all
      (fun w : Word => match decode w with | .error (.unassignedOpcode _) => true | _ => false) = true := by decide

/-- The table numbers a word's bits from its least significant bit, and bits above `nbits` are 0. -/
theorem test_table_word :
    decodeTableWord 32 0x07E80601 = some (.ldi 6 2024) ∧ decodeTableWord 8 0x34 = some .toEpoch ∧
    decodeTableWord 32 0x00004010 = none := by decide

/-! ### Small states -/

/-- Registers holding the given values, the others ⊥. -/
def regs (vals : List Nat) : RegFile := RegFile.writeFrom (Vector.replicate 8 none) 0 (vals.map fun v => some (BitVec.ofNat 32 v))

/-- After reset, with operands loaded and one command in the stream. -/
def at1 (w : Word) (args : List Nat) : State := { State.reset with arg := regs args, prog := [w] }

/-- The same with the other day-of-week convention, DOW_BASE = 0 (00_scope.md R6). -/
def at1Sunday (w : Word) (args : List Nat) : State := { at1 w args with dowBase := .sundayZero }

/-- The same on SimPeripheral: cells of the image, transactions that fail (95_test_vectors.md). -/
def sim1 (w : Word) (args : List Nat) (cells : List (Nat × Nat)) (fails : List Nat) : State :=
  (at1 w args).withSim ((List.range 19).map fun a => BitVec.ofNat 8 ((cells.lookup a).getD 0)) fails 6

/-- The next state. -/
def nextOf : Out → Option State
  | .next t => some t
  | _ => none

/-- STATUS and the first n RES registers after a step. -/
def outcome (n : Nat) (s : State) : Option (Nat × List (Option Nat)) :=
  (nextOf (step s)).map fun t => (t.status.toNat, (t.res.toList.take n).map (Option.map BitVec.toNat))

/-- STATUS, how many events there were, and the given registers of the peripheral after a step. -/
def simOutcome (addrs : List Nat) (s : State) : Option (Nat × Nat × List (Option Nat)) :=
  (nextOf (step s)).map fun t => (t.status.toNat, t.hist.length, addrs.map fun a => (t.periph.lookup a).map BitVec.toNat)

/-- The fault a step recorded. -/
def faultOf (s : State) : Option (FaultCause × Nat × Nat) :=
  ((nextOf (step s)).bind fun t => t.fault).map fun r => (r.cause, r.fpc, r.fword.toNat)

/-! ### Operand moves (46_operand.md, 95_test_vectors.md §2.7) -/

theorem test_nop : nextOf (step (at1 0x00000000 [7])) = some { at1 0x00000000 [7] with pc := 1 } := by decide
theorem test_ldi : ((nextOf (step (at1 0x07E80601 []))).map fun t => (t.argAt 6, t.status)) = some (some 2024, 0xFF) := by decide
/-- DESIGN CHOICE (log 12): an ill-formed immediate is cut to 16 bits, in the meaning and in the encoder alike. -/
theorem test_ill_formed_immediate_cut :
    ((nextOf (exec (.ldi 0 0x12345) (at1 0 []))).map fun t => t.argAt 0) = some (some 0x2345) ∧
    encode (.ldi 0 0x12345) = encode (.ldi 0 0x2345) := by decide
theorem test_ldhi :
    ((nextOf (step (at1 0xFFFF0002 [0xFFFB]))).map fun t => t.argAt 0) = some (some 0xFFFFFFFB) := by decide
theorem test_ldhi_unwritten : faultOf (at1 0x00010302 [1, 2, 3]) = some (.unwrittenOperand, 0, 0x00010302) := by decide
theorem test_mov :
    ((nextOf (step { at1 0x00002B03 [] with res := regs [1, 2, 3, 4, 5, 6] })).map fun t => (t.argAt 3, t.argAt 5)) =
      some (some 6, none) := by decide
theorem test_mov_unwritten : faultOf (at1 0x00003803 [1]) = some (.unwrittenOperand, 0, 0x00003803) := by decide

/-! ### BCD (40_bcd.md, §2.1) -/

theorem test_bcd_enc : outcome 1 (at1 0x10 [59]) = some (0, [some 0x59]) := by decide
theorem test_bcd_enc_domain : faultOf (at1 0x10 [100]) = some (.domain, 0, 0x10) := by decide
theorem test_bcd_dec : outcome 1 (at1 0x11 [0x1A]) = some (0, [some 20]) := by decide
theorem test_bcd_dec_domain : faultOf (at1 0x11 [0x100]) = some (.domain, 0, 0x11) := by decide

/-! ### Date/time, pure (41_datetime.md, §2.2) -/

theorem test_dt_validate : outcome 1 (at1 0x20 [0, 0, 0, 1, 31, 2, 2023]) = some (0, [some 1]) := by decide
theorem test_dt_validate_invalid : outcome 1 (at1 0x20 [0, 0, 0, 1, 1, 1, 2100]) = some (2, [some 0]) := by decide
theorem test_dt_encode :
    outcome 7 (at1 0x21 [59, 59, 23, 7, 31, 12, 2099]) =
      some (0, [some 0x59, some 0x59, some 0x23, some 0x07, some 0x31, some 0x12, some 0x99]) := by decide
theorem test_dt_encode_domain : faultOf (at1 0x21 [0, 0, 24, 1, 1, 1, 2000]) = some (.domain, 0, 0x21) := by decide
theorem test_dt_decode_masks :
    outcome 7 (at1 0x22 [0x45, 0x30, 0x49, 0x03, 0x15, 0x86, 0x22]) =
      some (0, [some 45, some 30, some 9, some 3, some 15, some 6, some 2022]) := by decide
theorem test_dt_decode_invalid :
    outcome 7 (at1 0x22 [0, 0x75, 0x12, 4, 0x29, 2, 0x24]) =
      some (2, [some 0, some 0, some 0, some 0, some 0, some 0, some 0]) := by decide
theorem test_time_decode_masks :
    outcome 4 (at1 0x23 [0xD9, 0x59, 0xE3]) = some (0, [some 59, some 59, some 23, none]) := by decide
theorem test_time_decode_invalid : outcome 3 (at1 0x23 [0x60, 0, 0]) = some (2, [some 0, some 0, some 0]) := by decide

/-! ### Calendar and epoch (42_epoch.md, §2.3) -/

theorem test_is_leap : outcome 1 (at1 0x30 [2096]) = some (0, [some 1]) := by decide
theorem test_is_leap_domain : faultOf (at1 0x30 [2100]) = some (.domain, 0, 0x30) := by decide
theorem test_days_in_month : outcome 1 (at1 0x31 [2024, 2]) = some (0, [some 29]) := by decide
theorem test_days_in_month_domain : faultOf (at1 0x31 [2024, 13]) = some (.domain, 0, 0x31) := by decide
theorem test_days_before_month_leap : outcome 1 (at1 0x32 [2024, 12]) = some (0, [some 335]) := by decide
theorem test_days_before_month : outcome 1 (at1 0x32 [2023, 3]) = some (0, [some 59]) := by decide
theorem test_days_before_year : outcome 1 (at1 0x33 [2099]) = some (0, [some 36160]) := by decide
theorem test_days_before_year_2001 : outcome 1 (at1 0x33 [2001]) = some (0, [some 366]) := by decide
theorem test_to_epoch : outcome 1 (at1 0x34 [0, 0, 12, 4, 29, 2, 2024]) = some (0, [some 1709208000]) := by decide
theorem test_to_epoch_max :
    outcome 1 (at1 0x34 [59, 59, 23, 4, 31, 12, 2099]) = some (0, [some 4102444799]) := by decide
theorem test_from_epoch_leap_year_end :
    outcome 7 (at1 0x35 [978307199]) =
      some (0, [some 59, some 59, some 23, some 7, some 31, some 12, some 2000]) := by decide
theorem test_from_epoch_max :
    outcome 8 (at1 0x35 [4102444799]) =
      some (0, [some 59, some 59, some 23, some 4, some 31, some 12, some 2099, none]) := by decide

/-! ### The other configuration, DOW_BASE = 0: expected results from 41_datetime.md R121, 42_epoch.md R150, 43_alarm.md R174 -/

theorem test_reset_dow_base : State.reset.dowBase.toNat = 1 := rfl
theorem test_dt_validate_sunday_zero :
    outcome 1 (at1Sunday 0x20 [0, 0, 0, 0, 1, 1, 2000]) = some (0, [some 1]) ∧
    outcome 1 (at1Sunday 0x20 [0, 0, 0, 7, 1, 1, 2000]) = some (2, [some 0]) := by decide
theorem test_from_epoch_sunday_zero :
    outcome 7 (at1Sunday 0x35 [978307199]) =
      some (0, [some 59, some 59, some 23, some 0, some 31, some 12, some 2000]) := by decide
theorem test_alarm2_encode_sunday_zero :
    outcome 3 (at1Sunday 0x41 [0x10, 59, 23, 0]) = some (0, [some 0x59, some 0x23, some 0x40]) ∧
    faultOf (at1Sunday 0x41 [0x10, 59, 23, 7]) = some (.domain, 0, 0x41) := by decide

/-! ### Alarms, pure (43_alarm.md, §2.4) -/

theorem test_alarm1_encode :
    outcome 4 (at1 0x40 [0x0E, 30, 0, 0, 1]) = some (0, [some 0x30, some 0x80, some 0x80, some 0x81]) := by decide
theorem test_alarm1_encode_day :
    outcome 4 (at1 0x40 [0x10, 59, 59, 23, 7]) = some (0, [some 0x59, some 0x59, some 0x23, some 0x47]) := by decide
theorem test_alarm2_encode :
    outcome 3 (at1 0x41 [0x0E, 59, 23, 31]) = some (0, [some 0xD9, some 0xA3, some 0xB1]) := by decide
theorem test_alarm2_encode_domain : faultOf (at1 0x41 [0x0F, 0, 0, 1]) = some (.domain, 0, 0x41) := by decide

/-! ### Aging and temperature, pure (45_temp_aging.md, §2.6) -/

theorem test_aging_enc : outcome 1 (at1 0x60 [0xFFFFFF80]) = some (0, [some 0x80]) := by decide
theorem test_aging_enc_domain : faultOf (at1 0x60 [0xFFFFFF7F]) = some (.domain, 0, 0x60) := by decide
theorem test_aging_dec : outcome 1 (at1 0x61 [0xFB]) = some (0, [some 0xFFFFFFFB]) := by decide
theorem test_aging_dec_positive : outcome 1 (at1 0x61 [0x7F]) = some (0, [some 127]) := by decide
theorem test_temp_decode : outcome 2 (at1 0x62 [0xE0, 0x40]) = some (0, [some 0xFFFFFFE0, some 25]) := by decide
theorem test_temp_decode_ignores_low_bits :
    outcome 2 (at1 0x62 [0x7F, 0xFF]) = some (0, [some 127, some 75]) := by decide

/-! ### Sequenced commands on SimPeripheral (§2.2 to §2.6) -/

theorem test_set_datetime :
    simOutcome [0, 2, 3, 4, 5, 6, 0x0E, 0x0F] (sim1 0x28 [0, 0, 12, 4, 29, 2, 2024] [(0x0E, 0x9C), (0x0F, 0x88)] []) =
      some (0, 5, [some 0, some 0x12, some 4, some 0x29, some 2, some 0x24, some 0x1C, some 0x08]) := by decide
theorem test_set_datetime_osf_fails :
    simOutcome [6, 0x0E, 0x0F] (sim1 0x28 [0, 0, 12, 4, 29, 2, 2024] [(0x0E, 0x9C), (0x0F, 0x88)] [4]) =
      some (5, 5, [some 0x24, some 0x1C, some 0x88]) := by decide
theorem test_get_datetime :
    outcome 7 (sim1 0x29 [] [(1, 0), (2, 0x12), (3, 4), (4, 0x29), (5, 2), (6, 0x24), (0x0E, 0x1C), (0x0F, 0x08)] []) =
      some (0, [some 0, some 0, some 12, some 4, some 29, some 2, some 2024]) := by decide
theorem test_get_datetime_fails :
    outcome 7 (sim1 0x29 [] [(1, 0), (2, 0x12), (3, 4), (4, 0x29), (5, 2), (6, 0x24), (0x0E, 0x1C), (0x0F, 0x08)] [0]) =
      some (1, [none, none, none, none, none, none, none]) := by decide
theorem test_get_time :
    outcome 4 (sim1 0x2A [] [(0, 0x30), (1, 0x15), (2, 0x08)] []) =
      some (0, [some 30, some 15, some 8, none]) := by decide
theorem test_get_time_invalid :
    outcome 3 (sim1 0x2A [] [(2, 0x24)] []) = some (2, [some 0, some 0, some 0]) := by decide
theorem test_set_time :
    simOutcome [0, 1, 2, 3, 4, 5, 6] (sim1 0x2B [30, 45, 23] [(1, 0), (2, 0x12), (3, 4), (4, 0x29), (5, 2), (6, 0x24), (0x0E, 0x1C), (0x0F, 0x08)] []) =
      some (0, 6, [some 0x30, some 0x45, some 0x23, some 4, some 0x29, some 2, some 0x24]) := by decide
theorem test_set_time_invalid :
    simOutcome [0, 1, 2] (sim1 0x2B [0, 0, 8] [(1, 0x75), (2, 0x12), (3, 4), (4, 0x29), (5, 2), (6, 0x24)] []) =
      some (2, 1, [some 0, some 0x75, some 0x12]) := by decide
theorem test_set_alarm1 :
    simOutcome [7, 8, 9, 10, 0x0F] (sim1 0x48 [0x0E, 30, 0, 0, 1] [(0x0F, 0x03)] []) =
      some (0, 3, [some 0x30, some 0x80, some 0x80, some 0x81, some 0x02]) := by decide
theorem test_set_alarm1_flag_fails :
    simOutcome [7, 10, 0x0F] (sim1 0x48 [0x0E, 30, 0, 0, 1] [(0x0F, 0x03)] [1]) =
      some (6, 2, [some 0x30, some 0x81, some 0x03]) := by decide
theorem test_set_alarm2 :
    simOutcome [11, 12, 13, 0x0F] (sim1 0x49 [0x08, 15, 6, 1] [(0x0F, 0x83)] []) =
      some (0, 3, [some 0x15, some 0x06, some 0x81, some 0x81]) := by decide
theorem test_alarm_int_enable :
    simOutcome [0x0E, 0x0F] (sim1 0x4A [2, 1] [(0x0E, 0x1C), (0x0F, 0x03)] []) =
      some (0, 4, [some 0x1E, some 0x01]) := by decide
theorem test_alarm_int_disable_keeps_intcn :
    simOutcome [0x0E, 0x0F] (sim1 0x4A [1, 0] [(0x0E, 0x07), (0x0F, 0x03)] []) =
      some (0, 4, [some 0x06, some 0x02]) := by decide
theorem test_get_alarm_flag_2 : outcome 1 (sim1 0x4B [2] [(0x0F, 0x82)] []) = some (0, [some 1]) := by decide
theorem test_get_alarm_flag_1 : outcome 1 (sim1 0x4B [1] [(0x0F, 0x82)] []) = some (0, [some 0]) := by decide
theorem test_clear_alarm_flag :
    simOutcome [0x0F] (sim1 0x4C [1] [(0x0F, 0x8B)] []) = some (0, 2, [some 0x8A]) := by decide
theorem test_clear_alarm_flag_fails :
    simOutcome [0x0F] (sim1 0x4C [2] [(0x0F, 0x83)] [1]) = some (1, 2, [some 0x83]) := by decide
theorem test_set_osc_enable :
    simOutcome [0x0E] (sim1 0x50 [1] [(0x0E, 0x9C)] []) = some (0, 2, [some 0x1C]) := by decide
theorem test_set_osc_disable :
    simOutcome [0x0E] (sim1 0x50 [0] [(0x0E, 0x1C)] []) = some (0, 2, [some 0x9C]) := by decide
theorem test_set_square_wave :
    simOutcome [0x0E] (sim1 0x51 [1] [(0x0E, 0x05)] []) = some (0, 2, [some 0x09]) := by decide
theorem test_set_square_wave_off :
    simOutcome [0x0E] (sim1 0x51 [4] [(0x0E, 0x18)] []) = some (0, 2, [some 0x1C]) := by decide
theorem test_set_32khz : simOutcome [0x0F] (sim1 0x52 [1] [(0x0F, 0x80)] []) = some (0, 2, [some 0x88]) := by decide
theorem test_clear_32khz : simOutcome [0x0F] (sim1 0x52 [0] [(0x0F, 0x8B)] []) = some (0, 2, [some 0x83]) := by decide
theorem test_start_conv : simOutcome [0x0E] (sim1 0x53 [] [(0x0E, 0x1C)] []) = some (0, 3, [some 0x3C]) := by decide
theorem test_start_conv_busy :
    outcome 1 (sim1 0x53 [] [(0x0E, 0x1C), (0x0F, 0x04)] []) = some (3, [some 0]) := by decide
theorem test_get_osf : outcome 1 (sim1 0x54 [] [(0x0F, 0x88)] []) = some (0, [some 1]) := by decide
theorem test_get_osf_clear : outcome 1 (sim1 0x54 [] [(0x0F, 0x7F)] []) = some (0, [some 0]) := by decide
theorem test_set_aging :
    simOutcome [0x10, 0x0E] (sim1 0x68 [0xFFFFFFFB] [(0x0E, 0x1C)] []) = some (0, 4, [some 0xFB, some 0x3C]) := by decide
theorem test_set_aging_conv_fails :
    simOutcome [0x10, 0x0E] (sim1 0x68 [0xFFFFFFFB] [(0x0E, 0x1C)] [3]) = some (7, 4, [some 0xFB, some 0x1C]) := by decide
theorem test_get_aging : outcome 1 (sim1 0x69 [] [(0x10, 0xFB)] []) = some (0, [some 0xFFFFFFFB]) := by decide
theorem test_get_temp :
    outcome 3 (sim1 0x6A [] [(0x11, 0xE0), (0x12, 0x40)] []) = some (0, [some 0xFFFFFFE0, some 25, none]) := by decide
theorem test_get_temp_fails : outcome 2 (sim1 0x6A [] [(0x11, 0xE0)] [0]) = some (1, [none, none]) := by decide

/-! ### Faults, the end of a run, reset (60_exceptions.md, 70_reset_and_hazards.md, §2.8) -/

theorem test_decode_before_operands : faultOf (at1 0x00004034 []) = some (.illegalCommand, 0, 0x00004034) := by decide
theorem test_unwritten_before_domain :
    faultOf { at1 0x34 [0, 0, 0] with arg := (regs [0, 0, 0, 0, 1, 1, 2100]).set 3 none } = some (.unwrittenOperand, 0, 0x34) := by
  decide
theorem test_one_domain_fault : faultOf (at1 0x34 [0, 0, 0, 0, 1, 1, 2100]) = some (.domain, 0, 0x34) := by decide
theorem test_fault_changes_nothing_else :
    nextOf (step (at1 0x10 [100])) = some { at1 0x10 [100] with fault := some ⟨.domain, 0, 0x10⟩ } := by decide
theorem test_fault_codes :
    [FaultCause.illegalCommand, .unwrittenOperand, .domain].map FaultCause.code = [1, 2, 3] := by decide
theorem test_reset_runs_nothing : step State.reset = .fault .runEnded := rfl
theorem test_observation : (observe State.reset).map (·.status) = some 0xFF := by decide
theorem test_with_fetch_word : outcome 1 ((at1 0 [2024]).withFetchWord 32 0x30) = some (0, [some 1]) := by decide
theorem test_start_run_keeps_peripheral :
    (startRun [0x54] (sim1 0 [] [(0x0F, 0x88)] [])).periph = (sim1 0 [] [(0x0F, 0x88)] []).periph := rfl

/-! ### The assembler (30_encoding.md R88, R89, R90) -/

theorem test_assemble_line : assembleLine "LDI a6, 2024".toList = some [.ldi 6 2024] := by decide
theorem test_assemble_mov : assembleLine "MOV a3,r5 ; comment".toList = some [.mov 3 5] := by decide
/-- DESIGN CHOICE (log 13): number forms the rules leave open. -/
theorem test_assemble_number_forms :
    parseNumber "0xfF".toList = some 255 ∧ parseNumber "0XFF".toList = none ∧
    assembleLine "MOVR 0x1".toList = some [.mov 0 0] ∧
    assembleLine "LDDT 0x1, 2, 3, 4, 5, 6, 7".toList =
      some [.ldi 0 1, .ldi 1 2, .ldi 2 3, .ldi 3 4, .ldi 4 5, .ldi 5 6, .ldi 6 7] := by decide
theorem test_assemble_li : expandLI 0 (-5) = some [.ldi 0 0xFFFB, .ldhi 0 0xFFFF] ∧ expandLI 0 65535 = some [.ldi 0 65535] := by
  decide
theorem test_assemble_li_range : expandLI 0 4294967296 = none ∧ expandLI 0 (-2147483649) = none := by decide
theorem test_assemble_movr : (expandMOVR 7).map (·.map encode) =
    some [0x00000003, 0x00000903, 0x00001203, 0x00001B03, 0x00002403, 0x00002D03, 0x00003603] := by decide
theorem test_assemble_lddt : (expandLDDT [0, 0, 12, 4, 29, 2, 2024]).map (·.map encode) =
    some [0x00000001, 0x00000101, 0x000C0201, 0x00040301, 0x001D0401, 0x00020501, 0x07E80601] := by decide
theorem test_plain_commands : plainCommands.length = 35 ∧ plainCommands.all (fun i => formatOf i = .z) = true := by decide

/-! ### Witnesses: a concrete state and operands for the hypotheses of each obligation, at boundary values -/

theorem witness_DecodeOfEncode : (Instr.ldi 7 65535).wellFormed = true ∧ (Instr.mov 7 7).wellFormed = true := by decide

theorem witness_LegalWordHasOneSpelling : decode 0xFFFF0702 = .ok (.ldhi 7 0xFFFF) := by decide

theorem witness_PseudoInstructionExpansions :
    (-2 ^ 31 ≤ (-2147483648 : Int) ∧ (-2147483648 : Int) < 2 ^ 32) ∧ (-2 ^ 31 ≤ (4294967295 : Int) ∧ (4294967295 : Int) < 2 ^ 32) ∧
    (1 ≤ 8 ∧ 8 ≤ 8) ∧ (65535 ≤ 65535) := by decide

theorem witness_StepRunsDecodedCommand :
    (at1 0x54 []).fault = none ∧ (at1 0x54 []).prog[(at1 0x54 []).pc]? = some 0x54 ∧ decode 0x54 = .ok .getOsf := by decide

theorem witness_IllegalWordRecordsFault :
    (at1 0xFF []).fault = none ∧ (at1 0xFF []).prog[(at1 0xFF []).pc]? = some 0xFF ∧
    decode 0xFF = .error (.unassignedOpcode 0xFF) := by decide

theorem witness_FaultedStateRunsNoCommand :
    { at1 0x10 [100] with fault := some ⟨.domain, 0, 0x10⟩ }.fault = some ⟨.domain, 0, 0x10⟩ := rfl

theorem witness_RunEndsAtEndOfStream : EndedNormally State.reset ∧ EndedNormally { at1 0x00 [] with pc := 1 } := by decide

/-- A step that completes and a step that faults. -/
theorem witness_StepCompletesOrFaults :
    (∃ t, step (at1 0x10 [99]) = .next t ∧ t.fault = none) ∧ ∃ t, step (at1 0x10 [100]) = .next t ∧ t.fault ≠ none :=
  ⟨⟨_, rfl, rfl⟩, ⟨_, rfl, by decide⟩⟩

theorem witness_UnwrittenOperandRecordsFault :
    ((at1 0x0702 []).prog[0]? = some 0x0702 ∧ ReadsUnwritten (.ldhi 7 0) (at1 0x0702 [])) ∧
    ((at1 0x3803 []).prog[0]? = some 0x3803 ∧ ReadsUnwritten (.mov 0 7) (at1 0x3803 [])) ∧
    ((at1 0x34 [0, 0, 0, 1, 1, 1]).prog[0]? = some 0x34 ∧ ReadsUnwritten .toEpoch (at1 0x34 [0, 0, 0, 1, 1, 1])) ∧
    ((at1 0x10 []).prog[0]? = some 0x10 ∧ ReadsUnwritten .bcdEnc (at1 0x10 [])) :=
  ⟨⟨rfl, rfl⟩, ⟨rfl, rfl⟩, ⟨rfl, ⟨6, by decide, rfl⟩⟩, ⟨rfl, ⟨0, by decide, rfl⟩⟩⟩

/-- Operands in the domain, at its edge, and operands outside it. -/
theorem witness_DomainFaultExactlyByTable :
    (¬ ReadsUnwritten .setAging (at1 0x68 [0xFFFFFF80]) ∧ InDomain .mondayOne .setAging (argValue (at1 0x68 [0xFFFFFF80]))) ∧
    (¬ ReadsUnwritten .setAging (at1 0x68 [0xFFFFFF7F]) ∧ ¬ InDomain .mondayOne .setAging (argValue (at1 0x68 [0xFFFFFF7F])) ∧
      (at1 0x68 [0xFFFFFF7F]).prog[0]? = some 0x68) ∧
    (InDomain .mondayOne .alarm1Encode (argValue (at1 0x40 [0x10, 59, 59, 23, 7])) ∧
      ¬ InDomain .mondayOne .alarm1Encode (argValue (at1 0x40 [0x10, 59, 59, 23, 8]))) := by
  unfold ReadsUnwritten InDomain argsRead
  decide

theorem witness_OnlyMovesWriteArg : ∃ t, exec (.ldi 7 1) (at1 0 []) = .next t := ⟨_, rfl⟩

theorem witness_OnlyNamedResultsWritten : 
    (∃ t, exec .tempDecode (at1 0x62 [1, 2]) = .next t ∧ t.pc = 1) ∧ (∃ t, exec .tempDecode (at1 0x62 [1, 256]) = .next t ∧ t.pc = 0) ∧
    (∃ t, exec .getTemp (sim1 0x6A [] [] [0]) = .next t ∧ t.status = 0x01) ∧ resWrites .getTemp = 2 :=
  ⟨⟨_, rfl, rfl⟩, ⟨_, rfl, rfl⟩, ⟨_, rfl, rfl⟩, rfl⟩

/-- A command that writes STATUS, an operand move, and a command that faults. -/
theorem witness_StatusWrittenOnCompletion :
    (∃ t, exec .bcdEnc (at1 0x10 [99]) = .next t ∧ t.pc = 1 ∧ isMove .bcdEnc = false) ∧
    (∃ t, exec .nop (at1 0 []) = .next t ∧ isMove .nop = true) ∧ ∃ t, exec .bcdEnc (at1 0x10 [100]) = .next t ∧ t.pc = 0 :=
  ⟨⟨_, rfl, rfl, rfl⟩, ⟨_, rfl, rfl⟩, ⟨_, rfl, rfl⟩⟩

/-- Two six-transaction commands on SimPeripheral: one that reports OK and one that stops at a failure. -/
def setTimeOk : State := sim1 0x2B [59, 59, 23] [(3, 4), (4, 0x29), (5, 2)] []
def setTimeFails : State := sim1 0x2B [59, 59, 23] [(3, 4), (4, 0x29), (5, 2)] [4]

theorem witness_TransactionsFollowTable :
    (∃ t, exec .setTime setTimeOk = .next t ∧ t.pc = setTimeOk.pc + 1 ∧ t.status = 0x00) ∧
    isMove .setTime = false := ⟨⟨_, rfl, rfl, rfl⟩, rfl⟩

theorem witness_DateTimeBlockWrittenWhole : ∃ t, exec .setTime setTimeOk = .next t := ⟨_, rfl⟩

theorem witness_CommandStopsAtFirstFailure : ∃ t, exec .setTime setTimeFails = .next t ∧ t.status = 0x05 := ⟨_, rfl, rfl⟩

theorem witness_EveryRunEnds : (at1 0x10 [99]).pc ≤ (at1 0x10 [99]).prog.length := by decide

theorem witness_StepKeepsInvariant : Inv (at1 0x54 []) ∧ ∃ t, step (at1 0x54 []) = .next t :=
  ⟨⟨by decide, by decide, by decide, (fun _ h => nomatch h), (fun _ h => nomatch h), (fun _ h => nomatch h), by decide⟩,
    ⟨_, rfl⟩⟩

theorem witness_NothingReadsStatusOrHistory : ∃ t, exec .setTime setTimeOk = .next t := ⟨_, rfl⟩

/-- Spans at both ends of the register space. -/
theorem witness_PortAdmitsEveryAnswer :
    (1 ≤ [(0xFF : Byte)].length ∧ 0x12 + [(0xFF : Byte)].length ≤ 0x13) ∧
    (1 ≤ (List.replicate 19 (0 : Byte)).length ∧ 0x00 + (List.replicate 19 (0 : Byte)).length ≤ 0x13) := by decide

theorem witness_SimPeripheralTransactions :
    (∃ rest, (sim1 0 [] [] []).draws = simDraw true :: rest) ∧ (∃ rest, (sim1 0 [] [] [0]).draws = simDraw false :: rest) ∧
    (sim1 0 [] [(0x12, 5)] []).periph.lookup 0x12 = some 5 ∧ 0x12 + [(0xFF : Byte)].length ≤ 0x13 :=
  ⟨⟨_, rfl⟩, ⟨_, rfl⟩, by decide, by decide⟩

theorem witness_OtherRegistersUntouched :
    ((∃ t, exec .toEpoch (at1 0x34 [0, 0, 0, 1, 1, 1, 2000]) = .next t) ∧ transactionRow .toEpoch = []) ∧
    (∃ t, exec .setOscEnable (sim1 0x50 [1] [] []) = .next t ∧ t.drawCount = 2) ∧ ¬ WritesTo .setOscEnable 0x0F ∧
    ∀ j, j < 2 → DrawSilentAt ((sim1 0x50 [1] [] []).drawAt j) 0x0F :=
  ⟨⟨⟨_, rfl⟩, rfl⟩, ⟨_, rfl, rfl⟩, by unfold WritesTo; decide, by decide⟩

theorem witness_SimPeripheralHoldsWrittenBytes :
    (∃ t, exec .setTime setTimeFails = .next t ∧ t.drawCount = 5) ∧ ∀ j, j < 5 → DrawQuiet (setTimeFails.drawAt j) :=
  ⟨⟨_, rfl, rfl⟩, by decide⟩

theorem witness_ReadModifyWriteKeepsUnnamedBits : (0x12 : Nat) < 0x13 := by decide

theorem witness_OperandMoveResults :
    (65535 < 65536) ∧ (at1 0 [0xFFFF]).argAt 0 = some 0xFFFF ∧ { at1 0 [] with res := regs [5] }.resAt 0 = some 5 := by decide

theorem witness_BcdCommandResults :
    (ArgsAre (at1 0x10 [99]) [99] ∧ (99 : Word).toNat ≤ 99) ∧ (ArgsAre (at1 0x11 [0xFF]) [0xFF] ∧ (0xFF : Word).toNat ≤ 0xFF) := by
  decide

theorem witness_BcdInverseLaws : (99 ≤ 99) ∧ ((0x99 : Byte).toNat / 16 ≤ 9 ∧ (0x99 : Byte).toNat % 16 ≤ 9) := by decide

/-- Range-valid at the top of every field, out of range by the year alone, and both sides of the day of week where DOW_BASE is 0. -/
theorem witness_DtValidateResult :
    (ArgsAre (at1 0x20 [59, 59, 23, 7, 31, 12, 2099]) [59, 59, 23, 7, 31, 12, 2099] ∧
      FieldsInRange (at1 0 []).dowBase (dateTimeOf 59 59 23 7 31 12 2099)) ∧
    (ArgsAre (at1 0x20 [59, 59, 23, 7, 31, 12, 2100]) [59, 59, 23, 7, 31, 12, 2100] ∧
      ¬ FieldsInRange (at1 0 []).dowBase (dateTimeOf 59 59 23 7 31 12 2100)) ∧
    (ArgsAre (at1Sunday 0x20 [0, 0, 0, 0, 1, 1, 2000]) [0, 0, 0, 0, 1, 1, 2000] ∧
      FieldsInRange (at1Sunday 0 []).dowBase (dateTimeOf 0 0 0 0 1 1 2000) ∧
      ¬ FieldsInRange (at1Sunday 0 []).dowBase (dateTimeOf 0 0 0 7 1 1 2000)) := by decide

theorem witness_DtEncodeResult :
    ArgsAre (at1 0x21 [0, 0, 0, 1, 1, 1, 2000]) [0, 0, 0, 1, 1, 1, 2000] ∧ FieldsInRange (at1 0 []).dowBase (dateTimeOf 0 0 0 1 1 1 2000) := by
  decide

/-- A block at the top of every field, one out of range, a time at its top and one out of range. -/
theorem witness_DecodeCommandResults :
    (ArgsAre (at1 0x22 [0xD9, 0xD9, 0x23, 0xFF, 0x31, 0x12, 0x99]) [0xD9, 0xD9, 0x23, 0xFF, 0x31, 0x12, 0x99] ∧
      (∀ a ∈ [0xD9, 0xD9, 0x23, 0xFF, 0x31, 0x12, (0x99 : Word)], a.toNat ≤ 0xFF) ∧
      FieldsInRange (at1 0 []).dowBase (blockDateTime 0xD9 0xD9 0x23 0xFF 0x31 0x12 0x99)) ∧ ¬ FieldsInRange (at1 0 []).dowBase (blockDateTime 0 0 0 1 1 1 0xA0) ∧
    (ArgsAre (at1 0x23 [0x59, 0x59, 0x23]) [0x59, 0x59, 0x23] ∧ (∀ a ∈ [0x59, 0x59, (0x23 : Word)], a.toNat ≤ 0xFF) ∧
      (maskedBcd 128 0x59 ≤ 59 ∧ maskedBcd 128 0x59 ≤ 59 ∧ maskedBcd 64 0x23 ≤ 23) ∧ ¬ maskedBcd 64 0x24 ≤ 23) :=
  ⟨⟨by decide, by simp, by decide⟩, by decide, by decide, by simp, by decide, by decide⟩

theorem witness_RegisterBlockRoundTrip :
    rangeValid .mondayOne ⟨59, 59, 23, 7, 31, 12, 2099⟩ = true ∧ rangeValid .sundayZero ⟨0, 0, 0, 0, 31, 2, 2000⟩ = true := by
  decide

theorem witness_NoPartiallyValidResult :
    (∃ t, exec .getDatetime (sim1 0x29 [] [] [0]) = .next t ∧ t.pc = 1) ∧
    (∃ t, exec .timeDecode (at1 0x23 [0x60, 0, 0]) = .next t ∧ t.pc = 1) ∧
    ∃ t, exec .fromEpoch (at1 0x35 [946684800]) = .next t ∧ t.pc = 1 := ⟨⟨_, rfl, rfl⟩, ⟨_, rfl, rfl⟩, ⟨_, rfl, rfl⟩⟩

theorem witness_IllegalWordsAreThoseOfTheRule :
    ((at1 0x4D []).fault = none ∧ (at1 0x4D []).prog[0]? = some 0x4D ∧ IllegalWord 0x4D) ∧ IllegalWord 0x8001 ∧
    IllegalWord 0x80000003 ∧ IllegalWord 0x0100 :=
  ⟨⟨rfl, rfl, Or.inl (by decide)⟩, Or.inr (Or.inl ⟨by decide, 15, by decide, by decide, by decide⟩),
    Or.inr (Or.inr (Or.inl ⟨by decide, 31, by decide, by decide, by decide⟩)),
    Or.inr (Or.inr (Or.inr ⟨by decide, by decide, by decide, 8, by decide, by decide, by decide⟩))⟩

theorem witness_SetThenGetDatetime :
    ArgsAre (sim1 0x28 [59, 59, 23, 7, 31, 12, 2099] [] []) [59, 59, 23, 7, 31, 12, 2099] ∧
    FieldsInRange (at1 0 []).dowBase (dateTimeOf 59 59 23 7 31 12 2099) ∧
    ∀ j, j < 6 → (sim1 0x28 [59, 59, 23, 7, 31, 12, 2099] [] []).drawAt j = simDraw true := by decide

theorem witness_ResetEventValues : { State.reset with fault := some ⟨.domain, 0, 0x10⟩ }.fault ≠ none := by decide

theorem witness_SetDatetimeSequence :
    ArgsAre (at1 0x28 [59, 59, 23, 7, 31, 12, 2099]) [59, 59, 23, 7, 31, 12, 2099] ∧
    FieldsInRange (at1 0 []).dowBase (dateTimeOf 59 59 23 7 31 12 2099) := by decide

theorem witness_SetTimeSequence :
    ArgsAre (at1 0x2B [59, 59, 23]) [59, 59, 23] ∧ (59 : Word).toNat ≤ 59 ∧ (23 : Word).toNat ≤ 23 := by decide

/-- Both ends of the year range, in leap and common years, and both ends of the month range. -/
theorem witness_CalendarCommandResults :
    (ArgsAre (at1 0x31 [2000, 1]) [2000] ∧ ArgsAre (at1 0x31 [2000, 1]) [2000, 1]) ∧
    (ArgsAre (at1 0x31 [2099, 12]) [2099] ∧ ArgsAre (at1 0x31 [2099, 12]) [2099, 12]) ∧
    2000 ≤ (2000 : Word).toNat ∧ (2099 : Word).toNat ≤ 2099 ∧ 1 ≤ (1 : Word).toNat ∧ (12 : Word).toNat ≤ 12 := by decide

theorem witness_ToEpochResult :
    ArgsAre (at1 0x34 [59, 59, 23, 7, 31, 2, 2023]) [59, 59, 23, 7, 31, 2, 2023] ∧
    FieldsInRange (at1 0 []).dowBase (dateTimeOf 59 59 23 7 31 2 2023) := by decide

theorem witness_FromEpochResult :
    ((at1Sunday 0x35 [4102444799]).dowBase = .sundayZero ∧ ArgsAre (at1Sunday 0x35 [4102444799]) [4102444799]) ∧
    ArgsAre (at1 0x35 [4102444799]) [4102444799] ∧ 946684800 ≤ (4102444799 : Word).toNat ∧
    (4102444799 : Word).toNat ≤ 4102444799 := by decide

theorem witness_ToEpochOfFromEpoch :
    (946684800 ≤ 946684800 ∧ 946684800 ≤ 4102444799) ∧ (946684800 ≤ 4102444799 ∧ 4102444799 ≤ 4102444799) := by decide

theorem witness_FromEpochOfToEpoch :
    calendarValid .mondayOne ⟨59, 59, 23, 7, 29, 2, 2096⟩ = true ∧ calendarValid .sundayZero ⟨0, 0, 0, 0, 31, 12, 2099⟩ = true := by
  decide

theorem witness_ToEpochStrictlyMonotonic :
    calendarValid .mondayOne ⟨59, 59, 23, 7, 29, 2, 2024⟩ = true ∧ calendarValid .mondayOne ⟨0, 0, 0, 1, 1, 3, 2024⟩ = true ∧
    List.Lex (· < ·) (chronoKey ⟨59, 59, 23, 7, 29, 2, 2024⟩) (chronoKey ⟨0, 0, 0, 1, 1, 3, 2024⟩) :=
  ⟨by decide, by decide, .cons (.rel (by decide))⟩

theorem witness_Alarm1EncodeResult :
    (ArgsAre (at1 0x40 [0x10, 59, 59, 23, 7]) [0x10, 59, 59, 23, 7] ∧ (0x10 : Word).toNat ∈ [0x0F, 0x0E, 0x0C, 0x08, 0x00, 0x10] ∧
      AlarmFieldsInRange (at1 0 []).dowBase ((0x10 : Word).toNat = 0x10) 59 23 7) ∧
    (ArgsAre (at1 0x40 [0x0F, 59, 59, 23, 31]) [0x0F, 59, 59, 23, 31] ∧
      AlarmFieldsInRange (at1 0 []).dowBase ((0x0F : Word).toNat = 0x10) 59 23 31) := by decide

theorem witness_Alarm2EncodeResult :
    ArgsAre (at1 0x41 [0x10, 59, 23, 7]) [0x10, 59, 23, 7] ∧ (0x10 : Word).toNat ∈ [0x0E, 0x0C, 0x08, 0x00, 0x10] ∧
    AlarmFieldsInRange (at1 0 []).dowBase ((0x10 : Word).toNat = 0x10) 59 23 7 := by decide

theorem witness_SetAlarmSequence :
    (ArgsAre (at1 0x48 [0x00, 59, 59, 23, 31]) [0x00, 59, 59, 23, 31] ∧
      AlarmFieldsInRange (at1 0 []).dowBase ((0x00 : Word).toNat = 0x10) 59 23 31) ∧
    (ArgsAre (at1 0x49 [0x10, 59, 23, 1]) [0x10, 59, 23, 1] ∧
      AlarmFieldsInRange (at1 0 []).dowBase ((0x10 : Word).toNat = 0x10) 59 23 1) ∧
    (ArgsAre (at1Sunday 0x49 [0x10, 59, 23, 0]) [0x10, 59, 23, 0] ∧
      AlarmFieldsInRange (at1Sunday 0 []).dowBase ((0x10 : Word).toNat = 0x10) 59 23 0) := by
  decide

theorem witness_AlarmIntEnableSequence :
    ArgsAre (at1 0x4A [2, 1]) [2, 1] ∧ ((2 : Word).toNat = 1 ∨ (2 : Word).toNat = 2) ∧ (1 : Word).toNat ≤ 1 := by decide

theorem witness_SingleByteReadResults :
    (ArgsAre (at1 0x4B [1]) [1] ∧ ((1 : Word).toNat = 1 ∨ (1 : Word).toNat = 2)) ∧
    (ArgsAre (at1 0x4B [2]) [2] ∧ ((2 : Word).toNat = 1 ∨ (2 : Word).toNat = 2)) := by decide

theorem witness_SingleRmwCommandResults :
    ArgsAre (at1 0x51 [0]) [0] ∧ ArgsAre (at1 0x51 [1]) [1] ∧ ArgsAre (at1 0x51 [2]) [2] ∧ ArgsAre (at1 0x51 [3]) [3] ∧
    ArgsAre (at1 0x51 [4]) [4] := by decide

theorem witness_SetAgingSequence :
    (ArgsAre (at1 0x68 [0xFFFFFF80]) [0xFFFFFF80] ∧ -128 ≤ (0xFFFFFF80 : Word).toInt ∧ (0xFFFFFF80 : Word).toInt ≤ 127) ∧
    (ArgsAre (at1 0x68 [127]) [127] ∧ -128 ≤ (127 : Word).toInt ∧ (127 : Word).toInt ≤ 127) := by decide

theorem witness_AgingAndTemperatureCodecResults :
    (ArgsAre (at1 0x60 [0xFFFFFF80]) [0xFFFFFF80] ∧ -128 ≤ (0xFFFFFF80 : Word).toInt ∧ (0xFFFFFF80 : Word).toInt ≤ 127) ∧
    (ArgsAre (at1 0x62 [0xFF, 0xFF]) [0xFF] ∧ ArgsAre (at1 0x62 [0xFF, 0xFF]) [0xFF, 0xFF] ∧ (0xFF : Word).toNat ≤ 0xFF) := by
  decide

theorem witness_AgingInverseLaws : (-128 : Int) ≤ -128 ∧ (-128 : Int) ≤ 127 := by decide

theorem witness_ConfigurationStays :
    (∃ t, step (at1Sunday 0x20 [0, 0, 0, 0, 1, 1, 2000]) = .next t) ∧ (at1Sunday 0 []).dowBase ≠ State.reset.dowBase :=
  ⟨⟨_, rfl⟩, by decide⟩

end Sys2Proof.Tests
end

section
/-!
What a step can do, said once (`step_cases`), and that the configuration DOW_BASE and the command stream PROG stay
(00_scope.md R6, 10_state.md R28).
-/
namespace Sys2Proof.Machine

/-- What a step can do where it answers a next state: the word at pc is a command, which runs, or it is illegal, and
ILLEGAL_COMMAND is raised (30_encoding.md R87, 60_exceptions.md R263). -/
theorem step_cases {s t : State} (h : step s = .next t) :
    ∃ w, fetch s = .word w ∧
      ((∃ i, decode w = .ok i ∧ exec i s = .next t) ∨
        ∃ e, decode w = .error e ∧ raise .illegalCommand s = .next t) := by
  unfold step at h
  split at h
  · cases h
  · rename_i w hw
    split at h
    · exact ⟨w, hw, .inl ⟨_, ‹_›, h⟩⟩
    · exact ⟨w, hw, .inr ⟨_, ‹_›, h⟩⟩

/-- The configuration of the run is the same in both states: DOW_BASE and PROG. -/
def SameConfig (s t : State) : Prop := t.dowBase = s.dowBase ∧ t.prog = s.prog

theorem Raised.sameConfig {s t : State} (h : Raised s t) : SameConfig s t := by
  obtain ⟨_, _, _, rfl⟩ := h
  exact ⟨rfl, rfl⟩

theorem Moved.sameConfig {i : Instr} {s t : State} (h : Moved i s t) : SameConfig s t := by
  obtain ⟨_, rfl⟩ | ⟨_, _, _, rfl⟩ := h <;> exact ⟨rfl, rfl⟩

/-- The transactions keep the configuration, and neither the results nor the code of the command touches it. -/
theorem Completed.sameConfig {i : Instr} {s t : State} (h : Completed i s t) : SameConfig s t := by
  obtain ⟨_, _, _, _, hmove, rfl, _⟩ := h
  exact ⟨hmove.dowBase, hmove.prog⟩

theorem exec_sameConfig {i : Instr} {s t : State} (h : exec i s = .next t) : SameConfig s t := by
  rcases exec_cases h with hraised | hmoved | hcompleted
  · exact hraised.sameConfig
  · exact hmoved.sameConfig
  · exact hcompleted.sameConfig

theorem step_sameConfig {s t : State} (h : step s = .next t) : SameConfig s t := by
  obtain ⟨_, _, ⟨_, _, hexec⟩ | ⟨_, _, hraise⟩⟩ := step_cases h
  · exact exec_sameConfig hexec
  · exact (raise_next hraise).sameConfig

theorem hostReset_sameConfig (s : State) : SameConfig s (hostReset s) := ⟨rfl, rfl⟩

/-- Settles O60: what every command keeps by `exec_cases`, carried to the step, and what the reset event puts back. -/
theorem configurationStays : Obligations.ConfigurationStays :=
  ⟨rfl, fun _ _ h => step_sameConfig h, hostReset_sameConfig⟩

end Sys2Proof.Machine
end

section
/-!
The step and the fault record (60_exceptions.md R262, R263): a step runs the command at pc, an illegal word and an unwritten
operand record their fault, and nothing else changes.
-/
namespace Sys2Proof.Machine

/-- The fetch finds a word exactly where no fault is recorded and the word stands at pc. -/
theorem fetch_eq_word_iff (s : State) (w : Word) : fetch s = .word w ↔ s.fault = none ∧ s.prog[s.pc]? = some w := by
  unfold fetch
  split
  · simp [*]
  · split
    · simp [*]
    · split <;> simp [*]

/-- Settles O6: the fetch finds the word, and the step then runs what it decodes to. -/
theorem stepRunsDecodedCommand : Obligations.StepRunsDecodedCommand := by
  intro s w i hfault hword hdecode
  have hfetch := (fetch_eq_word_iff s w).mpr ⟨hfault, hword⟩
  simp [step, hfetch, hdecode]

/-- Settles O7: the step raises before it looks at an operand. -/
theorem illegalWordRecordsFault : Obligations.IllegalWordRecordsFault := by
  intro s w e hfault hword hdecode
  have hfetch := (fetch_eq_word_iff s w).mpr ⟨hfault, hword⟩
  simp [step, hfetch, hdecode, raise_eq hword]

/-! ### Reading ⊥ in the check phase -/

theorem withArgs1_none {s : State} {j : Fin 8} (hj : j.val < 1) (h : s.argAt j = none) (k : Word → Out) :
    withArg s 0 k = raise .unwrittenOperand s := by
  obtain rfl : j = 0 := Fin.ext (Nat.lt_one_iff.mp hj)
  exact withArg_none h k

theorem withArgs2_none {s : State} {j : Fin 8} (hj : j.val < 2) (h : s.argAt j = none) (k : Word → Word → Out) :
    (withArg s 0 fun a => withArg s 1 fun b => k a b) = raise .unwrittenOperand s := by
  obtain hj | rfl : j.val < 1 ∨ j = 1 := by omega
  · exact withArgs1_none hj h _
  · exact withArg_raise fun _ => withArg_none h _

theorem withAlarm2_none {s : State} {j : Fin 8} (hj : j.val < 4) (h : s.argAt j = none) (k : List Byte → Out) :
    withAlarm2 s k = raise .unwrittenOperand s := by
  obtain hj | rfl : j.val < 3 ∨ j = 3 := by omega
  · exact withArgs3_none hj h _
  · exact withArgs3_raise fun _ _ _ => withArg_none h _

theorem withAlarm1_none {s : State} {j : Fin 8} (hj : j.val < 5) (h : s.argAt j = none) (k : List Byte → Out) :
    withAlarm1 s k = raise .unwrittenOperand s := by
  obtain hj | rfl | rfl : j.val < 3 ∨ j = 3 ∨ j = 4 := by omega
  · exact withArgs3_none hj h _
  · exact withArgs3_raise fun _ _ _ => withArg_none h _
  · exact withArgs3_raise fun _ _ _ => withArg_raise fun _ => withArg_none h _

/-- Every command reads its operands before its domain test, so ⊥ in one of them raises UNWRITTEN_OPERAND (60_exceptions.md
R264). The cases are grouped by how many of ARG0, ARG1, .. the command reads. -/
theorem exec_unwritten {i : Instr} {s : State} (h : ReadsUnwritten i s) : exec i s = raise .unwrittenOperand s := by
  cases i <;> unfold exec
  case ldhi => exact withArg_none h _
  case mov => exact withRes_none h _
  all_goals obtain ⟨j, hj, hnone⟩ := h
  case nop | ldi | getDatetime | getTime | startConv | getOsf | getAging | getTemp => exact absurd hj (Nat.not_lt_zero _)
  case bcdEnc | bcdDec | isLeap | daysBeforeYear | fromEpoch | getAlarmFlag | clearAlarmFlag | setOscEnable | setSquareWave
      | set32khz | agingEnc | agingDec | setAging => exact withArgs1_none hj hnone _
  case daysInMonth | daysBeforeMonth | alarmIntEnable | tempDecode => exact withArgs2_none hj hnone _
  case timeDecode | setTime => exact withArgs3_none hj hnone _
  case alarm2Encode | setAlarm2 => exact withAlarm2_none hj hnone _
  case alarm1Encode | setAlarm1 => exact withAlarm1_none hj hnone _
  case dtValidate | dtEncode | dtDecode | setDatetime | toEpoch => exact withArgs7_none hj hnone _

/-- Settles O11: the check phase raises, and the word at pc goes into the record. -/
theorem unwrittenOperandRecordsFault : Obligations.UnwrittenOperandRecordsFault := by
  intro i s w hword hunwritten
  rw [exec_unwritten hunwritten, raise_eq hword]

end Sys2Proof.Machine
end

section
/-!
Every step keeps the invariant (10_state.md R24, R25, R27, 20_memory.md R54, R62): a fault records the command at pc, and a
command that finishes moves pc past the events it issued.
-/
namespace Sys2Proof.Machine

/-- A fault record is about the command at pc, and nothing else of the invariant is touched. -/
theorem Inv.raised {s t : State} (hs : Inv s) (h : Raised s t) : Inv t := by
  obtain ⟨cause, w, hword, rfl⟩ := h
  exact {
    periphWf := hs.periphWf
    statusLegal := hs.statusLegal
    pcInStream := hs.pcInStream
    faultAtPc := by
      rintro _ ⟨⟩
      exact ⟨rfl, hword⟩
    histInBounds := hs.histInBounds
    histEarlier := hs.histEarlier
    histOrdered := hs.histOrdered }

/-- What a finished operand move leaves unchanged besides pc, which it advances (46_operand.md). -/
theorem Moved.frame {i : Instr} {s t : State} (h : Moved i s t) :
    t.pc = s.pc + 1 ∧ t.res = s.res ∧ t.status = s.status ∧ t.fault = s.fault ∧ t.prog = s.prog ∧ NoTransaction s t := by
  obtain ⟨_, rfl⟩ | ⟨_, _, _, rfl⟩ := h <;> exact ⟨rfl, rfl, rfl, rfl, rfl, rfl, rfl, rfl, rfl⟩

theorem Inv.moved {i : Instr} {s t : State} (hs : Inv s) (hfault : s.fault = none) (hpc : s.pc < s.prog.length)
    (h : Moved i s t) : Inv t := by
  obtain ⟨hpc', _, hstatus, hfault', hprog, hhist, hperiph, _⟩ := h.frame
  exact {
    periphWf := hperiph ▸ hs.periphWf
    statusLegal := hstatus ▸ hs.statusLegal
    pcInStream := by rw [hpc', hprog]; exact hpc
    faultAtPc := by simp [hfault', hfault]
    histInBounds := hhist ▸ hs.histInBounds
    histEarlier := by
      rw [hhist, hpc']
      exact fun e he => Nat.lt_succ_of_lt (hs.histEarlier e he)
    histOrdered := hhist ▸ hs.histOrdered }

/-- The transactions are in bounds and issued at the old pc, after all events before them (20_memory.md R54, R62). -/
theorem Inv.completed {i : Instr} {s t : State} (hs : Inv s) (hfault : s.fault = none) (hpc : s.pc < s.prog.length)
    (h : Completed i s t) : Inv t := by
  obtain ⟨ev, mid, vals, code, hmove, rfl, -⟩ := h
  exact {
    periphWf := hmove.wf hs.periphWf
    statusLegal := toByte_legal code
    pcInStream := by simpa [hmove.pc, hmove.prog] using hpc
    faultAtPc := by simp [hmove.fault, hfault]
    histInBounds := by
      simp only [finish_hist, hmove.hist, List.forall_mem_append]
      exact ⟨hs.histInBounds, hmove.bounded⟩
    histEarlier := by
      simp only [finish_hist, finish_pc, hmove.hist, hmove.pc, List.forall_mem_append]
      exact ⟨fun e he => Nat.lt_succ_of_lt (hs.histEarlier e he), fun e he => Nat.lt_succ_of_le (hmove.issued e he).le⟩
    histOrdered := by
      simp only [finish_hist, hmove.hist, List.pairwise_append]
      refine ⟨hs.histOrdered, List.pairwise_of_forall_mem_list fun e he f hf => ?_, fun e he f hf => ?_⟩
      · exact (hmove.issued e he).le.trans (hmove.issued f hf).ge
      · exact (hs.histEarlier e he).le.trans (hmove.issued f hf).ge }

/-- Settles O20: a step records a fault, or with no fault recorded runs a command inside the stream, and each of the three ends
of a command keeps the invariant. -/
theorem stepKeepsInvariant : Obligations.StepKeepsInvariant := by
  intro s t hs hstep
  obtain ⟨w, hfetch, ⟨i, _, hexec⟩ | ⟨_, _, hraise⟩⟩ := step_cases hstep
  · obtain ⟨hfault, hword⟩ := (fetch_eq_word_iff s w).mp hfetch
    have hpc : s.pc < s.prog.length := (List.getElem?_eq_some_iff.mp hword).1
    rcases exec_cases hexec with hraised | hmoved | hcompleted
    · exact hs.raised hraised
    · exact hs.moved hfault hpc hmoved
    · exact hs.completed hfault hpc hcompleted
  · exact hs.raised (raise_next hraise)

end Sys2Proof.Machine
end

section
/-!
What a command writes and which transactions it makes (10_state.md R20, R22, R23, R38), each read off the three ends of a
command that `exec_cases` names.
-/
namespace Sys2Proof.Machine

theorem toByte_eq_ok_iff (c : StatusCode) : c.toByte = 0x00 ↔ c = .ok := by cases c <;> decide

theorem toByte_eq_transportFail_iff (c : StatusCode) : c.toByte = 0x01 ↔ c = .transportFail := by cases c <;> decide

/-- The outcome codes are the eight numbers 0 to 7; 0xFF says that no command has completed yet (10_state.md R24). -/
theorem toByte_le {c : StatusCode} (h : c ≠ .none) : c.toByte.toNat ≤ 0x07 := by
  cases c
  case none => exact absurd rfl h
  all_goals decide

theorem Moved.isMove {i : Instr} {s t : State} (h : Moved i s t) : isMove i = true := by
  obtain ⟨rfl, _⟩ | ⟨_, _, ⟨_, rfl⟩ | ⟨_, rfl⟩ | ⟨_, rfl⟩, _⟩ := h <;> rfl

theorem resWrites_of_isMove {i : Instr} (h : isMove i = true) : resWrites i = 0 := by
  cases i
  case nop | ldi | ldhi | mov => rfl
  all_goals cases h

theorem Completed.pc {i : Instr} {s t : State} (h : Completed i s t) : t.pc = s.pc + 1 := by
  obtain ⟨_, _, _, _, hmove, rfl, -⟩ := h
  simp [hmove.pc]

/-- Settles O13: a fault and a completed command leave ARG, and an operand move sets one register of it. -/
theorem onlyMovesWriteArg : Obligations.OnlyMovesWriteArg := by
  refine ⟨by decide, fun i s t hexec => ?_⟩
  rcases exec_cases hexec with ⟨_, _, _, rfl⟩ | (⟨_, rfl⟩ | ⟨a, v, hi, rfl⟩) | ⟨_, _, _, _, hmove, rfl, -⟩
  · exact .inl rfl
  · exact .inl rfl
  · refine .inr ⟨a, hi, fun k hk => ?_⟩
    exact (argAt_setArg s a v k).trans (if_neg hk)
  · exact .inl hmove.arg

/-- The results of a completed command: the RES registers it names, all ⊥ exactly on TRANSPORT_FAIL (60_exceptions.md R270). -/
theorem Completed.results {i : Instr} {s t : State} (h : Completed i s t) :
    (∀ k : Fin 8, resWrites i ≤ k.val → t.resAt k = s.resAt k) ∧
    ∀ k : Fin 8, k.val < resWrites i → (t.resAt k = none ↔ t.status = 0x01) := by
  obtain ⟨ev, mid, vals, code, hmove, rfl, ⟨hlength, hfills⟩, -⟩ := h
  obtain ⟨-, hres, -⟩ := hmove.sequenced vals code
  rw [← hlength]
  refine ⟨fun k hk => ?_, fun k hk => ?_⟩
  · rw [hres, dif_neg (Nat.not_lt.mpr hk)]
  · rw [hres, dif_pos hk, finish_status, toByte_eq_transportFail_iff]
    exact hfills _ (List.getElem_mem hk)

/-- Settles O14: a fault and an operand move leave RES, and a completed command fills the registers it names. -/
theorem onlyNamedResultsWritten : Obligations.OnlyNamedResultsWritten := by
  intro i s t hexec
  rcases exec_cases hexec with ⟨_, _, _, rfl⟩ | hmoved | hcompleted
  · exact ⟨fun _ _ => rfl, fun _ => rfl, fun hpc => absurd hpc (Nat.ne_add_one s.pc)⟩
  · obtain ⟨_, hres, -⟩ := hmoved.frame
    refine ⟨fun k _ => by simp [State.resAt, hres], fun _ => hres, fun _ k hk => ?_⟩
    rw [resWrites_of_isMove hmoved.isMove] at hk
    exact absurd hk (Nat.not_lt_zero _)
  · obtain ⟨hothers, hnamed⟩ := hcompleted.results
    exact ⟨hothers, fun hpc => absurd (hcompleted.pc ▸ hpc) (Nat.succ_ne_self _), fun _ => hnamed⟩

/-- Settles O15: only a completed command writes STATUS, and it never writes the code of reset. -/
theorem statusWrittenOnCompletion : Obligations.StatusWrittenOnCompletion := by
  intro i s t hexec
  rcases exec_cases hexec with ⟨_, _, _, rfl⟩ | hmoved | hcompleted
  · exact ⟨fun hpc => absurd hpc (Nat.ne_add_one s.pc), fun _ => rfl⟩
  · obtain ⟨_, _, hstatus, -⟩ := hmoved.frame
    exact ⟨fun _ hm => by simp [hmoved.isMove] at hm, fun _ => hstatus⟩
  · have hpc := hcompleted.pc
    obtain ⟨ev, mid, vals, code, _, rfl, _, hcode, _, hm⟩ := hcompleted
    exact ⟨fun _ _ => toByte_le hcode, fun h => absurd (hpc.symm.trans (h.resolve_left (by simp [hm]))) (Nat.succ_ne_self _)⟩

/-- Settles O16: a completed command's events fit its row, and a fault and an operand move make none. -/
theorem transactionsFollowTable : Obligations.TransactionsFollowTable := by
  intro i s t hexec
  rcases exec_cases hexec with ⟨_, _, _, rfl⟩ | hmoved | ⟨ev, mid, vals, code, hmove, rfl, _, _, hfits, _⟩
  · exact ⟨[], (List.append_nil _).symm, List.nil_prefix, by simp, fun hpc => absurd hpc (Nat.ne_add_one s.pc)⟩
  · obtain ⟨_, _, _, _, _, hhist, -⟩ := hmoved.frame
    exact ⟨[], by simpa using hhist, List.nil_prefix, by simp, fun _ hm => by simp [hmoved.isMove] at hm⟩
  · exact ⟨ev, hmove.hist, hfits.begins, hmove.issued, fun _ _ hok => hfits.whole ((toByte_eq_ok_iff code).mp hok)⟩

/-- A completed command's writes are writes of its row, so it leaves every register its row does not write and no draw names. -/
theorem Completed.untouched {i : Instr} {s t : State} (h : Completed i s t) (a : Nat) (ha : ¬ WritesTo i a)
    (hdraws : ∀ j, j < t.drawCount - s.drawCount → DrawSilentAt (s.drawAt j) a) :
    t.periph.lookup a = s.periph.lookup a := by
  obtain ⟨ev, mid, vals, code, hmove, rfl, _, _, hfits, _⟩ := h
  refine hmove.untouched a (fun p hp hwrite => ?_) fun j hj => hdraws j ?_
  · by_contra hin
    exact ha ⟨p, hfits.begins.subset hp, hwrite, by omega, by omega⟩
  · simpa [hmove.drawCount] using hj

theorem Completed.periph_of_no_row {i : Instr} {s t : State} (h : Completed i s t) (hrow : transactionRow i = []) :
    t.periph = s.periph := by
  obtain ⟨ev, mid, vals, code, hmove, rfl, _, _, hfits, _⟩ := h
  have hbegins := hfits.begins
  rw [hrow, List.prefix_nil, List.map_eq_nil_iff] at hbegins
  exact hmove.still hbegins

/-- Settles O26: a fault and an operand move make no transaction, and a completed command writes inside its row. -/
theorem otherRegistersUntouched : Obligations.OtherRegistersUntouched := by
  intro i s t hexec
  rcases exec_cases hexec with ⟨_, _, _, rfl⟩ | hmoved | hcompleted
  · exact ⟨fun _ => rfl, fun _ _ _ => rfl⟩
  · obtain ⟨_, _, _, _, _, _, hperiph, -⟩ := hmoved.frame
    exact ⟨fun _ => hperiph, fun _ _ _ => by rw [hperiph]⟩
  · exact ⟨hcompleted.periph_of_no_row, hcompleted.untouched⟩

end Sys2Proof.Machine
end

section
/-!
No command reads STATUS or HIST (10_state.md R23, R29): what a command answers, as a function of the STATUS and HIST it starts
with, either hands both on or writes a STATUS of its own, and appends the same events to whatever HIST it was given.
-/
namespace Sys2Proof.Machine

/-- The state with `h` before its own events. -/
def State.after (t : State) (h : List Event) : State := { t with hist := h ++ t.hist }

/-- The state with `h` before its own events, and with the STATUS `st`. -/
def State.seen (t : State) (st : Byte) (h : List Event) : State := { t.after h with status := st }

@[simp] theorem seen_argAt (t : State) (st : Byte) (h : List Event) (i : Fin 8) : (t.seen st h).argAt i = t.argAt i := rfl
@[simp] theorem seen_resAt (t : State) (st : Byte) (h : List Event) (i : Fin 8) : (t.seen st h).resAt i = t.resAt i := rfl
@[simp] theorem seen_dowBase (t : State) (st : Byte) (h : List Event) : (t.seen st h).dowBase = t.dowBase := rfl
@[simp] theorem seen_finish (t : State) (st : Byte) (h : List Event) (c : StatusCode) :
    (t.seen st h).finish c = (t.finish c).after h := rfl

/-- A state is its own fields seen with its STATUS and HIST before no events. -/
theorem seen_of_empty_hist (s : State) (st : Byte) (h : List Event) :
    State.seen { s with hist := [] } st h = { s with status := st, hist := h } := by
  simp [State.seen, State.after]

/-! ### The port and the procedures over it -/

theorem txRead_seen (start n : Nat) (s : State) (st : Byte) (h : List Event) :
    txRead start n (s.seen st h) = ((txRead start n s).1, (txRead start n s).2.seen st h) := by
  simp only [txRead, State.seen, State.after, List.append_assoc]
  rfl

theorem txWrite_seen (start : Nat) (bytes : List Byte) (s : State) (st : Byte) (h : List Event) :
    txWrite start bytes (s.seen st h) = ((txWrite start bytes s).1, (txWrite start bytes s).2.seen st h) := by
  simp only [txWrite, State.seen, State.after, List.append_assoc]
  rfl

theorem rmw_seen (addr : Nat) (clr set : Byte) (s : State) (st : Byte) (h : List Event) :
    rmw addr clr set (s.seen st h) = ((rmw addr clr set s).1, (rmw addr clr set s).2.seen st h) := by
  unfold rmw
  rw [txRead_seen]
  obtain ⟨_ | _, s1⟩ := txRead addr 1 s
  · exact txWrite_seen ..
  · rfl

theorem finishWr_seen (c : StatusCode) (p : WrResult × State) (st : Byte) (h : List Event) :
    finishWr c (p.1, p.2.seen st h) = (finishWr c p).after h := by
  obtain ⟨_ | _, s1⟩ := p <;> rfl

theorem finishWr_rmw_seen (c : StatusCode) (addr : Nat) (clr set : Byte) (s : State) (st : Byte) (h : List Event) :
    finishWr c (rmw addr clr set (s.seen st h)) = (finishWr c (rmw addr clr set s)).after h := by
  rw [rmw_seen, finishWr_seen]

theorem convTrigger_seen (s : State) (st : Byte) (h : List Event) :
    convTrigger (s.seen st h) = ((convTrigger s).1, (convTrigger s).2.seen st h) := by
  unfold convTrigger
  rw [txRead_seen]
  obtain ⟨bytes | _, s1⟩ := txRead addrStatus 1 s
  · dsimp only
    split
    · rfl
    · rw [rmw_seen]
      obtain ⟨_ | _, s2⟩ := rmw addrControl 0x00 bitCONV s1 <;> rfl
  · rfl

theorem writeDateTime_seen (dt : DateTime) (s : State) (st : Byte) (h : List Event) :
    writeDateTime dt (s.seen st h) = ((writeDateTime dt s).1, (writeDateTime dt s).2.seen st h) := by
  unfold writeDateTime
  rw [txWrite_seen]
  obtain ⟨_ | _, s1⟩ := txWrite 0x00 (encodeBlock dt) s
  · dsimp only
    rw [rmw_seen]
    obtain ⟨_ | _, s2⟩ := rmw addrControl bitEOSC 0x00 s1
    · dsimp only
      rw [rmw_seen]
      obtain ⟨_ | _, s3⟩ := rmw addrStatus bitOSF 0x00 s2 <;> rfl
    · rfl
  · rfl

/-! ### The effect phases -/

theorem finishWriteDateTime_seen (dt : DateTime) (s : State) (st : Byte) (h : List Event) :
    (s.seen st h).finishWriteDateTime dt = (s.finishWriteDateTime dt).after h := by
  simp [State.finishWriteDateTime, writeDateTime_seen]

theorem setTimeEffect_seen (second minute hour : Nat) (s : State) (st : Byte) (h : List Event) :
    setTimeEffect second minute hour (s.seen st h) = (setTimeEffect second minute hour s).after h := by
  unfold setTimeEffect
  rw [txRead_seen, seen_dowBase]
  obtain ⟨bytes | _, s1⟩ := txRead 0x00 7 s
  · dsimp only
    split
    · exact finishWriteDateTime_seen ..
    · rfl
  · rfl

theorem setAlarmEffect_seen (start c : Nat) (bs : List Byte) (s : State) (st : Byte) (h : List Event) :
    setAlarmEffect start c bs (s.seen st h) = (setAlarmEffect start c bs s).after h := by
  unfold setAlarmEffect
  rw [txWrite_seen]
  obtain ⟨_ | _, s1⟩ := txWrite start bs s
  · exact finishWr_rmw_seen ..
  · rfl

theorem alarmIntEnableEffect_seen (c : Nat) (en : Bool) (s : State) (st : Byte) (h : List Event) :
    alarmIntEnableEffect c en (s.seen st h) = (alarmIntEnableEffect c en s).after h := by
  unfold alarmIntEnableEffect
  rw [rmw_seen]
  obtain ⟨_ | _, s1⟩ := rmw addrStatus (chbit c) 0x00 s
  · cases en <;> exact finishWr_rmw_seen ..
  · rfl

theorem setAgingEffect_seen (v : Int) (s : State) (st : Byte) (h : List Event) :
    setAgingEffect v (s.seen st h) = (setAgingEffect v s).after h := by
  unfold setAgingEffect
  rw [txWrite_seen]
  obtain ⟨_ | _, s1⟩ := txWrite 0x10 [agingEnc v] s
  · dsimp only
    rw [convTrigger_seen]
    obtain ⟨_ | _ | _, s2⟩ := convTrigger s1 <;> rfl
  · rfl

/-! ### Outcomes as functions of STATUS and HIST -/

/-- The outcome, as a function of the STATUS and HIST a command starts with, depends on them only by handing them on: it is one
and the same host fault, or one and the same next state with them in it, or that state with a STATUS of its own. -/
def Blind (f : Byte → List Event → Out) : Prop :=
  (∃ r, ∀ st h, f st h = .fault r) ∨ (∃ t : State, ∀ st h, f st h = .next (t.seen st h)) ∨
    ∃ t : State, ∀ st h, f st h = .next (t.after h)

/-- A finished command that wrote STATUS. -/
theorem Blind.written {f : Byte → List Event → State} {t : State} (hf : ∀ st h, f st h = t.after h) :
    Blind fun st h => .next (f st h) :=
  .inr (.inr ⟨t, fun st h => congrArg Host.Outcome.next (hf st h)⟩)

/-- A pure command's end. -/
theorem Blind.pure {s : State} (vals : List Word) (code : StatusCode) :
    Blind fun st h => .next (((s.seen st h).setRes vals).finish code) :=
  .written (t := (s.setRes vals).finish code) fun _ _ => rfl

/-- A command of one read. -/
theorem Blind.read {s : State} (start n k : Nat) (vals : List Byte → List Word) (code : List Byte → StatusCode) :
    Blind fun st h => .next (match txRead start n (s.seen st h) with
      | (.fail, s1) => (s1.clearRes k).finish .transportFail
      | (.ok bytes, s1) => (s1.setRes (vals bytes)).finish (code bytes)) := by
  simp only [txRead_seen]
  obtain ⟨bytes | _, s1⟩ := txRead start n s
  · exact .pure (vals bytes) (code bytes)
  · exact .written (t := (s1.clearRes k).finish .transportFail) fun _ _ => rfl

theorem Blind.raise {s : State} (c : FaultCause) : Blind fun st h => raise c (s.seen st h) := by
  cases hword : s.prog[s.pc]? with
  | none => exact .inl ⟨.noCommandAtPc, fun st h => by simp [Machine.raise, State.seen, State.after, hword]⟩
  | some w => exact .inr (.inl ⟨faultedWith s c w, fun st h => raise_eq (s := s.seen st h) hword c⟩)

theorem Blind.withArg {s : State} {i : Fin 8} {k : Byte → List Event → Word → Out} (hk : ∀ v, Blind fun st h => k st h v) :
    Blind fun st h => withArg (s.seen st h) i (k st h) := by
  simp only [Machine.withArg, seen_argAt]
  cases s.argAt i with
  | none => exact .raise .unwrittenOperand
  | some v => exact hk v

theorem Blind.withRes {s : State} {r : Fin 8} {k : Byte → List Event → Word → Out} (hk : ∀ v, Blind fun st h => k st h v) :
    Blind fun st h => withRes (s.seen st h) r (k st h) := by
  simp only [Machine.withRes, seen_resAt]
  cases s.resAt r with
  | none => exact .raise .unwrittenOperand
  | some v => exact hk v

theorem Blind.requireDomain {s : State} {c : Bool} {k : Byte → List Event → Out} (hk : Blind k) :
    Blind fun st h => requireDomain c (s.seen st h) (k st h) := by
  cases c
  · exact .raise .domain
  · exact hk

theorem Blind.withArgs3 {s : State} {k : Byte → List Event → Word → Word → Word → Out}
    (hk : ∀ a0 a1 a2, Blind fun st h => k st h a0 a1 a2) : Blind fun st h => withArgs3 (s.seen st h) (k st h) :=
  .withArg fun a0 => .withArg fun a1 => .withArg fun a2 => hk a0 a1 a2

theorem Blind.withArgs7 {s : State} {k : Byte → List Event → Word → Word → Word → Word → Word → Word → Word → Out}
    (hk : ∀ a0 a1 a2 a3 a4 a5 a6, Blind fun st h => k st h a0 a1 a2 a3 a4 a5 a6) :
    Blind fun st h => withArgs7 (s.seen st h) (k st h) :=
  .withArgs3 fun a0 a1 a2 => .withArg fun a3 => .withArg fun a4 => .withArg fun a5 => .withArg fun a6 =>
    hk a0 a1 a2 a3 a4 a5 a6

theorem Blind.withDateTime {s : State} {k : Byte → List Event → DateTime → Out} (hk : ∀ dt, Blind fun st h => k st h dt) :
    Blind fun st h => withDateTime (s.seen st h) (k st h) :=
  .withArgs7 fun _ _ _ _ _ _ _ => hk _

theorem Blind.withValidDateTime {s : State} {k : Byte → List Event → DateTime → Out}
    (hk : ∀ dt, Blind fun st h => k st h dt) : Blind fun st h => withValidDateTime (s.seen st h) (k st h) :=
  .withDateTime fun dt => .requireDomain (c := rangeValid s.dowBase dt) (hk dt)

theorem Blind.withYearMonth {s : State} {k : Byte → List Event → Nat → Nat → Out}
    (hk : ∀ y m, Blind fun st h => k st h y m) : Blind fun st h => withYearMonth (s.seen st h) (k st h) :=
  .withArg fun _ => .withArg fun _ => .requireDomain (hk _ _)

theorem Blind.withAlarm1 {s : State} {k : Byte → List Event → List Byte → Out} (hk : ∀ bs, Blind fun st h => k st h bs) :
    Blind fun st h => withAlarm1 (s.seen st h) (k st h) := by
  simp only [Machine.withAlarm1, seen_dowBase]
  exact .withArgs3 fun _ _ _ => .withArg fun _ => .withArg fun _ => .requireDomain (hk _)

theorem Blind.withAlarm2 {s : State} {k : Byte → List Event → List Byte → Out} (hk : ∀ bs, Blind fun st h => k st h bs) :
    Blind fun st h => withAlarm2 (s.seen st h) (k st h) := by
  simp only [Machine.withAlarm2, seen_dowBase]
  exact .withArgs3 fun _ _ _ => .withArg fun _ => .requireDomain (hk _)

theorem Blind.withChannel {s : State} {k : Byte → List Event → Nat → Out} (hk : ∀ c, Blind fun st h => k st h c) :
    Blind fun st h => withChannel (s.seen st h) (k st h) :=
  .withArg fun _ => .requireDomain (hk _)

theorem Blind.withAging {s : State} {k : Byte → List Event → Int → Out} (hk : ∀ v, Blind fun st h => k st h v) :
    Blind fun st h => withAging (s.seen st h) (k st h) :=
  .withArg fun _ => .requireDomain (hk _)

/-! ### Every command -/

theorem exec_blind (i : Instr) (s : State) : Blind fun st h => exec i (s.seen st h) := by
  cases i <;> simp only [exec]
  case nop => exact .inr (.inl ⟨s.advance, fun _ _ => rfl⟩)
  case ldi a imm => exact .inr (.inl ⟨(s.setArg a ((BitVec.ofNat 16 imm).setWidth 32)).advance, fun _ _ => rfl⟩)
  case ldhi a imm => exact .withArg fun x => .inr (.inl ⟨(s.setArg a (ldhiValue imm x)).advance, fun _ _ => rfl⟩)
  case mov a r => exact .withRes fun x => .inr (.inl ⟨(s.setArg a x).advance, fun _ _ => rfl⟩)
  case bcdEnc | bcdDec | isLeap | daysBeforeYear | agingDec =>
    exact .withArg fun _ => .requireDomain (.pure _ _)
  case fromEpoch =>
    simp only [execFromEpoch, seen_dowBase]
    exact .withArg fun _ => .requireDomain (.pure _ _)
  case tempDecode => exact .withArg fun _ => .withArg fun _ => .requireDomain (.pure _ _)
  case daysInMonth | daysBeforeMonth => exact .withYearMonth fun _ _ => .pure _ _
  case dtValidate =>
    simp only [execDtValidate, seen_dowBase]
    refine .withDateTime fun dt => ?_
    by_cases hvalid : rangeValid s.dowBase dt = true
    · simp only [hvalid, ↓reduceIte]
      exact .pure _ _
    · simp only [hvalid]
      exact .pure _ _
  case dtEncode | toEpoch => exact .withValidDateTime fun _ => .pure _ _
  case dtDecode =>
    simp only [execDtDecode, seen_dowBase]
    exact .withArgs7 fun _ _ _ _ _ _ _ => .requireDomain (.pure _ _)
  case timeDecode => exact .withArgs3 fun _ _ _ => .requireDomain (.pure _ _)
  case alarm1Encode => exact .withAlarm1 fun _ => .pure _ _
  case alarm2Encode => exact .withAlarm2 fun _ => .pure _ _
  case agingEnc => exact .withAging fun _ => .pure _ _
  case getDatetime =>
    exact .read 0x00 7 7 (fun bs => (decodeBlock s.dowBase bs).1.toWords) (fun bs => validityCode (decodeBlock s.dowBase bs).2)
  case getTime => exact .read 0x00 3 3 (fun bs => (decodeTime bs).1) (fun bs => (decodeTime bs).2)
  case getAlarmFlag =>
    exact .withChannel fun c => .read addrStatus 1 1 (fun bs => [zext32 ((bs.getD 0 0 >>> (c - 1)) &&& 1)]) (fun _ => .ok)
  case getOsf => exact .read addrStatus 1 1 (fun bs => [zext32 (bs.getD 0 0 >>> 7)]) (fun _ => .ok)
  case getAging => exact .read 0x10 1 1 (fun bs => [u32 (agingDec (bs.getD 0 0))]) (fun _ => .ok)
  case getTemp => exact .read 0x11 2 2 (fun bs => tempWords (bs.getD 0 0) (bs.getD 1 0)) (fun _ => .ok)
  case setDatetime => exact .withValidDateTime fun dt => .written (finishWriteDateTime_seen dt s)
  case setTime => exact .withArgs3 fun _ _ _ => .requireDomain (.written (setTimeEffect_seen _ _ _ s))
  case setAlarm1 => exact .withAlarm1 fun bs => .written (setAlarmEffect_seen 0x07 1 bs s)
  case setAlarm2 => exact .withAlarm2 fun bs => .written (setAlarmEffect_seen 0x0B 2 bs s)
  case alarmIntEnable =>
    exact .withArg fun _ => .withArg fun _ => .requireDomain (.written (alarmIntEnableEffect_seen _ _ s))
  case clearAlarmFlag => exact .withChannel fun _ => .written (finishWr_rmw_seen _ _ _ _ s)
  case setOscEnable | setSquareWave | set32khz =>
    refine .withArg fun _ => .requireDomain ?_
    split
    · exact .written (finishWr_rmw_seen _ _ _ _ s)
    · exact .written (finishWr_rmw_seen _ _ _ _ s)
  case startConv =>
    simp only [execStartConv, convTrigger_seen]
    obtain ⟨_ | _ | _, s1⟩ := convTrigger s
    · exact .pure [1] .ok
    · exact .pure [0] .busy
    · exact .written (t := (s1.clearRes 1).finish .transportFail) fun _ _ => rfl
  case setAging => exact .withAging fun v => .written (setAgingEffect_seen v s)

/-- Settles O23: the outcome from `s` and the outcome from `s` with another STATUS and HIST are two values of one blind
function, that of `s` with no events. -/
theorem nothingReadsStatusOrHistory : Obligations.NothingReadsStatusOrHistory := by
  intro i s t st h hexec
  have hblind : Blind fun st h => exec i { s with status := st, hist := h } := by
    simpa only [seen_of_empty_hist] using exec_blind i { s with hist := [] }
  rcases hblind with ⟨r, hf⟩ | ⟨u, hf⟩ | ⟨u, hf⟩
  · cases hexec.symm.trans (hf s.status s.hist)
  · cases hexec.symm.trans (hf s.status s.hist)
    exact ⟨u.seen st h, u.hist, hf st h, rfl, rfl, rfl, rfl, rfl, rfl, rfl, rfl, rfl, rfl, rfl, .inr ⟨rfl, rfl⟩⟩
  · cases hexec.symm.trans (hf s.status s.hist)
    exact ⟨u.after h, u.hist, hf st h, rfl, rfl, rfl, rfl, rfl, rfl, rfl, rfl, rfl, rfl, rfl, .inl rfl⟩

end Sys2Proof.Machine
end

section
/-!
The transactions of a command beside its row, its code and the peripheral (20_memory.md R59, R61, R62, R67, R68): what holds of
them whichever of its three ends a command takes, said once (`exec_traced`).
-/
namespace Sys2Proof.Machine

/-- From `s` to `t` the command `i` made the transactions `ev`: one draw taken for each, a beginning of its row of the table,
nothing after a failed one and none failed where STATUS is OK; under quiet draws the peripheral took the bytes of the successful
writes and nothing else. -/
structure Traced (i : Instr) (s t : State) (ev : List Event) : Prop where
  hist : t.hist = s.hist ++ ev
  drawCount : t.drawCount = s.drawCount + ev.length
  begins : ev.map Event.shape <+: transactionRow i
  earlierSucceeded : ∀ e ∈ ev.dropLast, e.succeeded = true
  allSucceeded : t.status = 0x00 → ∀ e ∈ ev, e.succeeded = true
  replayed : (∀ j, j < ev.length → DrawQuiet (s.drawAt j)) → t.periph = replay s.periph ev

theorem NoTransaction.traced {s t : State} (h : NoTransaction s t) (i : Instr) : Traced i s t [] := by
  obtain ⟨hhist, hperiph, _, hcount⟩ := h
  exact {
    hist := by rw [hhist, List.append_nil]
    drawCount := hcount
    begins := List.nil_prefix
    earlierSucceeded := fun _ he => absurd he List.not_mem_nil
    allSucceeded := fun _ _ he => absurd he List.not_mem_nil
    replayed := fun _ => hperiph }

/-- The transactions decide; the results and the code a command writes after them touch no part of the trace. -/
theorem Completed.traced {i : Instr} {s t : State} (h : Completed i s t) : ∃ ev, Traced i s t ev := by
  obtain ⟨ev, mid, vals, code, hmove, rfl, _, _, hfits, _⟩ := h
  exact ⟨ev, {
    hist := hmove.hist
    drawCount := hmove.drawCount
    begins := hfits.begins
    earlierSucceeded := hfits.earlierSucceeded
    allSucceeded := fun hok => hfits.allSucceeded ((toByte_eq_ok_iff code).mp hok)
    replayed := hmove.replayed }⟩

theorem Raised.noTransaction {s t : State} (h : Raised s t) : NoTransaction s t := by
  obtain ⟨_, _, _, rfl⟩ := h
  exact ⟨rfl, rfl, rfl, rfl⟩

theorem exec_traced {i : Instr} {s t : State} (h : exec i s = .next t) : ∃ ev, Traced i s t ev := by
  rcases exec_cases h with hraised | hmoved | hcompleted
  · exact ⟨[], hraised.noTransaction.traced i⟩
  · obtain ⟨_, _, _, _, _, hnone⟩ := hmoved.frame
    exact ⟨[], hnone.traced i⟩
  · exact hcompleted.traced

/-- The only write of any row that starts inside the date/time block is the whole block (20_memory.md R61). -/
theorem dateTime_write_of_row (i : Instr) :
    ∀ p ∈ transactionRow i, p.1 = true → p.2.1 ≤ 0x06 → p.2.1 = 0x00 ∧ p.2.2 = 7 := by
  cases i
  case ldi | ldhi | mov => exact fun _ hp => absurd hp List.not_mem_nil
  all_goals decide

/-- Settles O17: the shape of every write is one of the command's row, and the rows write the block whole or not at all. -/
theorem dateTimeBlockWrittenWhole : Obligations.DateTimeBlockWrittenWhole := by
  intro i s t hexec
  obtain ⟨ev, htraced⟩ := exec_traced hexec
  refine ⟨ev, htraced.hist, fun pc start bytes r hmem hstart => ?_⟩
  have hrow : (true, start, bytes.length) ∈ transactionRow i := htraced.begins.subset (List.mem_map_of_mem hmem)
  exact dateTime_write_of_row i _ hrow rfl hstart

/-- Settles O18: all transactions but the last succeeded, and where STATUS is OK the last one did too. -/
theorem commandStopsAtFirstFailure : Obligations.CommandStopsAtFirstFailure := by
  intro i s t hexec
  obtain ⟨ev, htraced⟩ := exec_traced hexec
  refine ⟨ev, htraced.hist, htraced.earlierSucceeded, fun e he hfailed hok => ?_⟩
  exact Bool.false_ne_true (hfailed.symm.trans (htraced.allSucceeded hok e he))

/-- Settles O27: the command took one draw for each of its transactions, so all of those are quiet. -/
theorem simPeripheralHoldsWrittenBytes : Obligations.SimPeripheralHoldsWrittenBytes := by
  intro i s t hexec hquiet
  obtain ⟨ev, htraced⟩ := exec_traced hexec
  refine ⟨ev, htraced.hist, htraced.replayed fun j hj => hquiet j ?_⟩
  rwa [htraced.drawCount, Nat.add_sub_cancel_left]

end Sys2Proof.Machine
end

section
/-!
One transaction by its draw (20_memory.md R52, R53, R55, R59, R67): what a read returns, whether a write succeeds, and what the
peripheral's registers hold after either.
-/
namespace Sys2Proof.Machine

theorem nextDraw_of_draws {s : State} {d : Draw} {rest : List Draw} (h : s.draws = d :: rest) : s.nextDraw = d := by
  simp [State.nextDraw, h]

theorem byteIn_of_lookup {m : Memory} {a : Nat} {b : Byte} (h : m.lookup a = some b) (s : State) : s.byteIn m a = b := by
  simp [State.byteIn, h]

theorem txRead_fails {s : State} (h : s.nextDraw.ok = false) (start n : Nat) : (txRead start n s).1 = .fail := by
  simp [txRead, h]

/-- A successful read returns, in ascending address order, what the registers hold once the peripheral has acted. -/
theorem txRead_returns {s : State} (h : s.nextDraw.ok = true) {start n : Nat} {img : Nat → Byte}
    (himg : ∀ i, i < n → s.actedPeriph.lookup (start + i) = some (img i)) :
    (txRead start n s).1 = .ok ((List.range n).map img) := by
  have hbytes : (List.range n).map (fun i => s.byteIn s.actedPeriph (start + i)) = (List.range n).map img :=
    List.map_congr_left fun i hi => byteIn_of_lookup (himg i (List.mem_range.mp hi)) s
  simp [txRead, h, hbytes]

theorem txRead_periph (start n : Nat) (s : State) : (txRead start n s).2.periph = s.actedPeriph := rfl

theorem txWrite_succeeds {s : State} (h : s.nextDraw.ok = true) (start : Nat) (bytes : List Byte) :
    (txWrite start bytes s).1 = .ok := by
  simp [txWrite, h]

theorem txWrite_fails {s : State} (h : s.nextDraw.ok = false) (start : Nat) (bytes : List Byte) :
    (txWrite start bytes s).1 = .fail := by
  simp [txWrite, h]

/-- After a write the registers hold what was delivered, all of the bytes or none, and then the peripheral's response. -/
theorem txWrite_periph (start : Nat) (bytes : List Byte) (s : State) :
    (txWrite start bytes s).2.periph =
      (if s.nextDraw.ok then s.actedPeriph.storeBytes start bytes else s.actedPeriph).storeCells s.nextDraw.after := rfl

/-! ### SimPeripheral's draws -/

theorem actedPeriph_of_simDraw {s : State} {ok : Bool} (h : s.nextDraw = simDraw ok) : s.actedPeriph = s.periph := by
  rw [State.actedPeriph, h]
  rfl

theorem txWrite_periph_of_simDraw {s : State} {ok : Bool} (h : s.nextDraw = simDraw ok) (start : Nat) (bytes : List Byte) :
    (txWrite start bytes s).2.periph = if ok then s.periph.storeBytes start bytes else s.periph := by
  rw [txWrite_periph, actedPeriph_of_simDraw h, h]
  rfl

/-- Settles O25: SimPeripheral's draw leaves the image to the block's own stores, which the laws of the cells describe inside
and outside the stored span. -/
theorem simPeripheralTransactions : Obligations.SimPeripheralTransactions := by
  intro s start bytes rest _ hbound
  refine ⟨fun hdraws => ?_, fun hdraws => ?_⟩
  · have hdraw := nextDraw_of_draws hdraws
    have hok : s.nextDraw.ok = true := congrArg Draw.ok hdraw
    have hacted := actedPeriph_of_simDraw hdraw
    have hperiph : (txWrite start bytes s).2.periph = s.periph.storeBytes start bytes := txWrite_periph_of_simDraw hdraw ..
    refine ⟨fun img himg => ?_, hacted, txWrite_succeeds hok _ _, fun i hi => ?_, fun a ha => ?_⟩
    · exact txRead_returns (img := fun i => img (start + i)) hok (hacted.symm ▸ himg)
    · rw [hperiph]
      exact lookup_storeBytes_inside bytes _ start i hi hbound
    · rw [hperiph]
      exact lookup_storeBytes_outside bytes _ start a ha
  · have hdraw := nextDraw_of_draws hdraws
    have hok : s.nextDraw.ok = false := congrArg Draw.ok hdraw
    exact ⟨txRead_fails hok _ _, actedPeriph_of_simDraw hdraw, txWrite_fails hok _ _, txWrite_periph_of_simDraw hdraw _ _⟩

/-! ### A draw for every answer -/

/-- The cells of a whole register image. -/
def imageCells (img : Nat → Byte) : List Host.Cell := (List.range Config.regCount).map fun a => (a, img a)

theorem storeCells_append (m : Memory) (c d : List Host.Cell) : m.storeCells (c ++ d) = (m.storeCells c).storeCells d := by
  induction c generalizing m with
  | nil => rfl
  | cons x t ih => exact ih _

theorem lookup_storeCells_range (m : Memory) (img : Nat → Byte) {n a : Nat} (hn : n ≤ Config.regCount) (ha : a < n) :
    (m.storeCells ((List.range n).map fun a => (a, img a))).lookup a = some (img a) := by
  induction n with
  | zero => exact absurd ha (Nat.not_lt_zero a)
  | succ n ih =>
    rw [List.range_succ, List.map_append, storeCells_append]
    by_cases h : a = n
    · subst h
      exact lookup_store_self _ a _ hn
    · exact (lookup_store_ne _ n a _ h).trans (ih (by omega) (by omega))

/-- Cells of a whole image leave nothing of what the registers held. -/
theorem lookup_storeCells_imageCells (m : Memory) (img : Nat → Byte) {a : Nat} (ha : a < 0x13) :
    (m.storeCells (imageCells img)).lookup a = some (img a) :=
  lookup_storeCells_range m img le_rfl ha

/-- A peripheral that puts a whole image into its registers before a read leaves exactly that image. -/
theorem lookup_txRead_of_before {s : State} {img : Nat → Byte} (h : s.nextDraw.before = imageCells img) (start n : Nat)
    {a : Nat} (ha : a < 0x13) : (txRead start n s).2.periph.lookup a = some (img a) := by
  rw [txRead_periph, State.actedPeriph, h]
  exact lookup_storeCells_imageCells _ img ha

/-- A peripheral that answers a write with a whole image leaves exactly that image, whatever was delivered. -/
theorem lookup_txWrite_of_after {s : State} {img : Nat → Byte} (h : s.nextDraw.after = imageCells img) (start : Nat)
    (bytes : List Byte) {a : Nat} (ha : a < 0x13) : (txWrite start bytes s).2.periph.lookup a = some (img a) := by
  rw [txWrite_periph, h]
  exact lookup_storeCells_imageCells _ img ha

/-- A peripheral that puts the bytes into the span before a successful read has them returned. -/
theorem txRead_returns_placed {s : State} {start : Nat} {bytes : List Byte} (hok : s.nextDraw.ok = true)
    (hbefore : s.nextDraw.before = imageCells fun a => bytes.getD (a - start) 0) (hbound : start + bytes.length ≤ 0x13) :
    (txRead start bytes.length s).1 = .ok bytes := by
  have hplaced : ∀ i, i < bytes.length → s.actedPeriph.lookup (start + i) = some (bytes.getD i 0) := fun i hi => by
    rw [State.actedPeriph, hbefore, lookup_storeCells_imageCells _ _ (by omega), Nat.add_sub_cancel_left]
  have hrange : (List.range bytes.length).map (fun i => bytes.getD i 0) = bytes :=
    List.ext_getElem (by simp) fun i _ hi => by simp [hi]
  rw [txRead_returns hok hplaced, hrange]

/-- Settles O24: the draws whose peripheral puts a whole image of its choice into the registers, before a read or after a
write. -/
theorem portAdmitsEveryAnswer : Obligations.PortAdmitsEveryAnswer := by
  intro s start bytes img _ hbound
  have hdraw : ∀ d, State.nextDraw { s with draws := d :: s.draws } = d := fun _ => nextDraw_of_draws rfl
  refine ⟨⟨⟨true, imageCells fun a => bytes.getD (a - start) 0, []⟩, ?_⟩, ⟨⟨false, imageCells img, []⟩, ?_, fun a ha => ?_⟩,
    ⟨⟨true, [], imageCells img⟩, ?_, fun a ha => ?_⟩, ⟨⟨false, [], imageCells img⟩, ?_, fun a ha => ?_⟩⟩
  · exact txRead_returns_placed (congrArg Draw.ok (hdraw _)) (congrArg Draw.before (hdraw _)) hbound
  · exact txRead_fails (congrArg Draw.ok (hdraw _)) _ _
  · exact lookup_txRead_of_before (congrArg Draw.before (hdraw _)) _ _ ha
  · exact txWrite_succeeds (congrArg Draw.ok (hdraw _)) _ _
  · exact lookup_txWrite_of_after (congrArg Draw.after (hdraw _)) _ _ ha
  · exact txWrite_fails (congrArg Draw.ok (hdraw _)) _ _
  · exact lookup_txWrite_of_after (congrArg Draw.after (hdraw _)) _ _ ha

end Sys2Proof.Machine
end

section
/-! The RMW bit by bit (20_memory.md R58). -/
namespace Sys2Proof.Machine

theorem getLsbD_clear_then_set (v clr set : Byte) {b : Nat} (hb : b < 8) :
    ((v &&& ~~~clr) ||| set).getLsbD b = if set.getLsbD b then true else if clr.getLsbD b then false else v.getLsbD b := by
  simp only [BitVec.getLsbD_or, BitVec.getLsbD_and, BitVec.getLsbD_not, hb, decide_true, Bool.true_and]
  cases set.getLsbD b <;> cases clr.getLsbD b <;> simp

/-- Settles O28: an RMW makes the events of its rule and moves nothing of the block's state but HIST (`rmw_cases`), and the byte
it writes back is the rule's, bit by bit. -/
theorem readModifyWriteKeepsUnnamedBits : Obligations.ReadModifyWriteKeepsUnnamedBits := by
  intro s addr clr set haddr
  obtain ⟨ev, hmove, hrmw⟩ := rmw_cases addr clr set s haddr
  refine ⟨ev, hmove.hist, ?_, hmove.arg, hmove.res, hmove.status, hmove.pc, hmove.fault, hmove.dowBase, hmove.prog⟩
  rcases hrmw with ⟨hev, hfail⟩ | ⟨v, hev⟩
  · exact .inl ⟨hfail, hev⟩
  · exact .inr ⟨v, _, hev, fun b hb => getLsbD_clear_then_set v clr set hb⟩

end Sys2Proof.Machine
end

section
/-!
Decode and encode agree (30_encoding.md R81, R82, R85 to R88): a legal word is its opcode, the operand fields of the command's
format and zeros, so the command fixes the word and the word the command.
-/
namespace Sys2Proof

/-- The fields a, r and imm of a word hold the operands of the command; a command without operands asks nothing of them. -/
def Instr.HasFields (i : Instr) (a r : Fin 8) (imm : Nat) : Prop :=
  match i with
  | .ldi b v | .ldhi b v => a = b ∧ imm = v
  | .mov b q => a = b ∧ r = q
  | _ => True

/-- The opcode map read backwards: a row answers the command of its own opcode, format and operands (30_encoding.md R85). -/
theorem opcodeMap_eq_some_iff {op : Byte} {a r : Fin 8} {imm : Nat} {f : Format} {i : Instr} :
    opcodeMap op a r imm = some (f, i) ↔ op = opcode i ∧ f = formatOf i ∧ i.HasFields a r imm := by
  constructor
  · intro h
    unfold opcodeMap at h
    split at h
    all_goals cases h
    all_goals exact ⟨BitVec.eq_of_toNat_eq ‹_›, rfl, by simp [Instr.HasFields]⟩
  · rintro ⟨rfl, rfl, hfields⟩
    cases i
    case ldi | ldhi =>
      obtain ⟨rfl, rfl⟩ := hfields
      rfl
    case mov =>
      obtain ⟨rfl, rfl⟩ := hfields
      rfl
    all_goals rfl

/-- A word is legal with the command `i` exactly when it carries its opcode, its operands, and zeros where its format asks for
them (30_encoding.md R82, R87). -/
theorem decode_eq_ok_iff {w : Word} {i : Instr} :
    decode w = .ok i ↔ fieldOp w = opcode i ∧ i.HasFields (fieldA w) (fieldR w) (fieldImm w) ∧
      w &&& (formatOf i).mask = (opcode i).setWidth 32 := by
  unfold decode
  split
  next hnone =>
    refine iff_of_false (by simp) fun ⟨hop, hfields, _⟩ => ?_
    cases hnone.symm.trans (opcodeMap_eq_some_iff.mpr ⟨hop, rfl, hfields⟩)
  next f j hsome =>
    obtain ⟨hop, rfl, hfields⟩ := opcodeMap_eq_some_iff.mp hsome
    constructor
    · intro h
      split at h
      next hmask =>
        cases h
        exact ⟨hop, hfields, hop ▸ hmask⟩
      next => cases h
    · rintro ⟨hop', hfields', hmask⟩
      have hrow := opcodeMap_eq_some_iff.mpr ⟨hop', rfl, hfields'⟩
      obtain ⟨_, rfl⟩ := Prod.mk.inj (Option.some.inj (hsome.symm.trans hrow))
      rw [if_pos (hop ▸ hmask)]

/-! ### The word of a command -/

theorem fieldOp_encode (i : Instr) : fieldOp (encode i) = opcode i := by
  unfold encode
  split <;> exact fieldOp_assembleWord ..

theorem encode_hasFields {i : Instr} (h : i.wellFormed = true) :
    i.HasFields (fieldA (encode i)) (fieldR (encode i)) (fieldImm (encode i)) := by
  cases i
  case ldi a imm | ldhi a imm => exact ⟨fieldA_assembleWord .., fieldImm_assembleWord _ _ _ _ (of_decide_eq_true h)⟩
  case mov a r => exact ⟨fieldA_assembleWord .., fieldR_assembleWord ..⟩
  all_goals trivial

theorem encode_and_mask (i : Instr) : encode i &&& (formatOf i).mask = (opcode i).setWidth 32 := by
  cases i
  case ldi a imm | ldhi a imm => exact assembleWord_maskI ..
  case mov a r => exact assembleWord_maskM ..
  all_goals rfl

/-- Settles O1: the word of a command carries its opcode, its operands and the zeros of its format, which is what the decoder
asks of a word of that command. -/
theorem decodeOfEncode : Obligations.DecodeOfEncode := fun i hwf =>
  decode_eq_ok_iff.mpr ⟨fieldOp_encode i, encode_hasFields hwf, encode_and_mask i⟩

/-! ### The bits of a word -/

theorem testBit_fieldA (w : Word) {b : Nat} (h8 : 8 ≤ b) (h11 : b < 11) :
    (fieldA w).val.testBit (b - 8) = w.getLsbD b := by
  have h : (w.extractLsb' 8 3).getLsbD (b - 8) = w.getLsbD b := by
    simp [Nat.add_sub_of_le h8, show b - 8 < 3 by omega]
  exact h

theorem testBit_fieldR (w : Word) {b : Nat} (h11 : 11 ≤ b) (h14 : b < 14) :
    (fieldR w).val.testBit (b - 11) = w.getLsbD b := by
  have h : (w.extractLsb' 11 3).getLsbD (b - 11) = w.getLsbD b := by
    simp [Nat.add_sub_of_le h11, show b - 11 < 3 by omega]
  exact h

theorem testBit_fieldImm (w : Word) {b : Nat} (h16 : 16 ≤ b) (h32 : b < 32) :
    (fieldImm w).testBit (b - 16) = w.getLsbD b := by
  have h : (w.extractLsb' 16 16).getLsbD (b - 16) = w.getLsbD b := by
    simp [Nat.add_sub_of_le h16, show b - 16 < 16 by omega]
  exact h

theorem fieldImm_lt (w : Word) : fieldImm w < 65536 := (w.extractLsb' 16 16).isLt

/-- Two words that agree under a mask agree in each of its bits. -/
theorem getLsbD_eq_of_and_eq {w v m : Word} (h : w &&& m = v &&& m) {b : Nat} (hb : m.getLsbD b = true) :
    w.getLsbD b = v.getLsbD b := by
  simpa [hb] using congrArg (·.getLsbD b) h

/-- A bit of a word is fixed by the word's format or lies in one of the fields the format leaves to the operands. -/
theorem eq_of_fields {w v : Word} (f : Format) (hmask : w &&& f.mask = v &&& f.mask)
    (ha : f ≠ .z → fieldA w = fieldA v) (hr : f = .m → fieldR w = fieldR v) (himm : f = .i → fieldImm w = fieldImm v) :
    w = v := by
  refine BitVec.eq_of_getLsbD_eq fun b hb => ?_
  by_cases hfixed : f.mask.getLsbD b = true
  · exact getLsbD_eq_of_and_eq hmask hfixed
  rw [mask_bit f b hb] at hfixed
  cases f with
  | z => exact absurd rfl hfixed
  | i =>
    obtain ⟨h8, h11⟩ | h16 : (8 ≤ b ∧ b < 11) ∨ 16 ≤ b := by simp at hfixed; omega
    · rw [← testBit_fieldA w h8 h11, ha nofun, testBit_fieldA v h8 h11]
    · rw [← testBit_fieldImm w h16 hb, himm rfl, testBit_fieldImm v h16 hb]
  | m =>
    obtain ⟨h8, h11⟩ | ⟨h11, h14⟩ : (8 ≤ b ∧ b < 11) ∨ (11 ≤ b ∧ b < 14) := by simp at hfixed; omega
    · rw [← testBit_fieldA w h8 h11, ha nofun, testBit_fieldA v h8 h11]
    · rw [← testBit_fieldR w h11 h14, hr rfl, testBit_fieldR v h11 h14]

/-- No two legal words are the same command. -/
theorem decode_injective {w v : Word} {i : Instr} (hw : decode w = .ok i) (hv : decode v = .ok i) : w = v := by
  obtain ⟨_, hfieldsW, hmaskW⟩ := decode_eq_ok_iff.mp hw
  obtain ⟨_, hfieldsV, hmaskV⟩ := decode_eq_ok_iff.mp hv
  have hmask := hmaskW.trans hmaskV.symm
  cases i
  case ldi | ldhi =>
    obtain ⟨⟨haW, himmW⟩, ⟨haV, himmV⟩⟩ := And.intro hfieldsW hfieldsV
    exact eq_of_fields .i hmask (fun _ => haW.trans haV.symm) nofun fun _ => himmW.trans himmV.symm
  case mov =>
    obtain ⟨⟨haW, hrW⟩, ⟨haV, hrV⟩⟩ := And.intro hfieldsW hfieldsV
    exact eq_of_fields .m hmask (fun _ => haW.trans haV.symm) (fun _ => hrW.trans hrV.symm) nofun
  all_goals exact eq_of_fields .z hmask (fun h => absurd rfl h) nofun nofun

theorem wellFormed_of_decode {w : Word} {i : Instr} (h : decode w = .ok i) : i.wellFormed = true := by
  obtain ⟨_, hfields, _⟩ := decode_eq_ok_iff.mp h
  cases i
  case ldi | ldhi =>
    obtain ⟨_, rfl⟩ := hfields
    exact decide_eq_true (fieldImm_lt w)
  all_goals rfl

/-- Settles O2: the decoded command is well formed, so its word decodes to it as well, and no two legal words do. -/
theorem legalWordHasOneSpelling : Obligations.LegalWordHasOneSpelling := fun _ i h =>
  have hwf := wellFormed_of_decode h
  ⟨hwf, decode_injective (decodeOfEncode i hwf) h⟩

/-- Settles O4: the words are evaluated; that they decode to their commands is then O1. -/
theorem encodingExamplesDecode : Obligations.EncodingExamplesDecode := by
  have hencode : encode (.ldi 6 2024) = 0x07E80601 ∧ encode (.ldhi 0 0xFFFF) = 0xFFFF0002 ∧
      encode (.mov 0 0) = 0x00000003 ∧ encode (.mov 3 5) = 0x00002B03 ∧ encode .toEpoch = 0x00000034 ∧
      encode .nop = 0x00000000 := by decide
  refine ⟨hencode, ?_, by decide, by decide, by decide⟩
  obtain ⟨h1, h2, h3, h4, h5, h6⟩ := hencode
  exact ⟨h1 ▸ decodeOfEncode _ rfl, h2 ▸ decodeOfEncode _ rfl, h3 ▸ decodeOfEncode _ rfl, h4 ▸ decodeOfEncode _ rfl,
    h5 ▸ decodeOfEncode _ rfl, h6 ▸ decodeOfEncode _ rfl⟩

end Sys2Proof
end

section
/-!
Which words the decoder rejects (30_encoding.md R82, R86): an opcode without a row in the opcode map, or a 1 among the bits that
the format of the opcode's row requires to be zero.
-/
namespace Sys2Proof
open Sys2Proof.Machine

theorem toNat_fieldOp (w : Word) : (fieldOp w).toNat = w.toNat % 256 := by
  simp [fieldOp, BitVec.extractLsb'_toNat]

theorem opcode_assigned (i : Instr) : ¬ UnassignedOpcode (opcode i).toNat := by
  unfold opcode
  split <;> decide

/-- The opcodes without a row are those of R86's list. -/
theorem opcodeMap_eq_none_iff {op : Byte} {a r : Fin 8} {imm : Nat} :
    opcodeMap op a r imm = none ↔ UnassignedOpcode op.toNat := by
  have hlt : op.toNat < 256 := op.isLt
  constructor
  · intro h
    unfold opcodeMap at h
    split at h
    all_goals cases h
    simp only [imp_false] at *
    omega
  · intro hunassigned
    rw [Option.eq_none_iff_forall_ne_some]
    rintro ⟨f, i⟩ hrow
    obtain ⟨rfl, _⟩ := opcodeMap_eq_some_iff.mp hrow
    exact opcode_assigned i hunassigned

/-- The lowest and the highest bit a format requires to be zero (30_encoding.md R82). -/
def Format.zeroBits : Format → Nat × Nat
  | .z => (8, 31)
  | .i => (11, 15)
  | .m => (14, 31)

/-- A format's mask is the opcode and the bits the format requires to be zero. -/
theorem mask_bit_iff (f : Format) {b : Nat} (hb : b < 32) :
    f.mask.getLsbD b = true ↔ b < 8 ∨ (f.zeroBits.1 ≤ b ∧ b ≤ f.zeroBits.2) := by
  rw [mask_bit f b hb]
  cases f <;> simp [Format.zeroBits] <;> omega

theorem eight_le_zeroBits (f : Format) : 8 ≤ f.zeroBits.1 ∧ f.zeroBits.2 < 32 := by
  cases f <;> decide

/-- A word passes its format's mask exactly when none of the bits required to be zero is 1. -/
theorem and_mask_eq_iff (w : Word) (f : Format) :
    w &&& f.mask = (fieldOp w).setWidth 32 ↔ ¬ SomeBitSet w f.zeroBits.1 f.zeroBits.2 := by
  obtain ⟨hlow, hhigh⟩ := eight_le_zeroBits f
  have hop : ∀ b, ((fieldOp w).setWidth 32).getLsbD b = (decide (b < 8) && w.getLsbD b) := fun b => by
    by_cases h8 : b < 8
    · simp [fieldOp, h8, show b < 32 by omega]
    · simp [fieldOp, h8]
  constructor
  · rintro h ⟨b, hlo, hhi, hset⟩
    have hmask := (mask_bit_iff f (show b < 32 by omega)).mpr (.inr ⟨hlo, hhi⟩)
    have hbit := congrArg (·.getLsbD b) h
    simp only [BitVec.getLsbD_and, hop, hset, hmask] at hbit
    exact absurd hbit (by simp; omega)
  · intro h
    refine BitVec.eq_of_getLsbD_eq fun b hb => ?_
    rw [BitVec.getLsbD_and, hop]
    by_cases h8 : b < 8
    · simp [(mask_bit_iff f hb).mpr (.inl h8), h8]
    · suffices ¬ (w.getLsbD b = true ∧ f.mask.getLsbD b = true) by simpa [h8] using this
      rintro ⟨hset, hmask⟩
      obtain ⟨hlo, hhi⟩ := ((mask_bit_iff f hb).mp hmask).resolve_left h8
      exact h ⟨b, hlo, hhi, hset⟩

/-- The opcodes of each format, as R86 sorts them. -/
theorem opcode_of_formatOf (i : Instr) :
    match formatOf i with
    | .z => (opcode i).toNat ≠ 0x01 ∧ (opcode i).toNat ≠ 0x02 ∧ (opcode i).toNat ≠ 0x03
    | .i => (opcode i).toNat = 0x01 ∨ (opcode i).toNat = 0x02
    | .m => (opcode i).toNat = 0x03 := by
  cases i
  case ldi => exact .inl rfl
  case ldhi => exact .inr rfl
  case mov => exact rfl
  all_goals exact ⟨by decide, by decide, by decide⟩

/-- A word with the opcode of a row is illegal exactly by the must-be-zero bits of the row's format. -/
theorem illegalWord_iff_of_row {w : Word} {a r : Fin 8} {imm : Nat} {f : Format} {i : Instr}
    (hrow : opcodeMap (fieldOp w) a r imm = some (f, i)) :
    IllegalWord w ↔ SomeBitSet w f.zeroBits.1 f.zeroBits.2 := by
  obtain ⟨hop, rfl, _⟩ := opcodeMap_eq_some_iff.mp hrow
  have hformat := opcode_of_formatOf i
  rw [IllegalWord, ← toNat_fieldOp, hop]
  cases hf : formatOf i <;> rw [hf] at hformat
  case z =>
    obtain ⟨h1, h2, h3⟩ := hformat
    simp [opcode_assigned i, h1, h2, h3, Format.zeroBits]
  case i => rcases hformat with h | h <;> simp [h, Format.zeroBits]
  case m => simp [hformat, Format.zeroBits]

theorem decode_eq_error_iff (w : Word) : (∃ e, decode w = .error e) ↔ IllegalWord w := by
  unfold decode
  split
  next hnone =>
    have hop := opcodeMap_eq_none_iff.mp hnone
    rw [toNat_fieldOp] at hop
    exact iff_of_true ⟨_, rfl⟩ (.inl hop)
  next f i hrow =>
    rw [illegalWord_iff_of_row hrow]
    split
    next hmask => exact iff_of_false nofun ((and_mask_eq_iff w f).mp hmask)
    next hmask => exact iff_of_true ⟨_, rfl⟩ (by simpa [and_mask_eq_iff] using hmask)

/-- Settles O3: the decoder's two tests are the rule's two clauses, and a step raises on a rejected word before it looks at an
operand. -/
theorem illegalWordsAreThoseOfTheRule : Obligations.IllegalWordsAreThoseOfTheRule := by
  refine ⟨decode_eq_error_iff, fun s w hfault hword hillegal => ?_⟩
  obtain ⟨e, hdecode⟩ := (decode_eq_error_iff w).mpr hillegal
  exact illegalWordRecordsFault s w e hfault hword hdecode

end Sys2Proof
end

section
/-!
The operand moves (46_operand.md R240 to R243) and the pseudo-instructions that expand to them (30_encoding.md R89).
-/
namespace Sys2Proof.Machine

/-! ### The moves -/

/-- A u16 immediate fills the low half of the register and clears the high half. -/
theorem toNat_zeroExtended_imm {imm : Nat} (h : imm < 65536) : ((BitVec.ofNat 16 imm).setWidth 32).toNat = imm := by
  simp
  omega

/-- LDHI's value in arithmetic: the immediate stands above the low half of the register (46_operand.md R242). -/
theorem toNat_ldhiValue {imm : Nat} (h : imm < 65536) (x : Word) :
    (ldhiValue imm x).toNat = 65536 * imm + x.toNat % 65536 := by
  have hlt : imm <<< 16 < 2 ^ 32 := by
    rw [Nat.shiftLeft_eq]
    omega
  have hhigh : (BitVec.ofNat 32 imm <<< 16).toNat = imm <<< 16 := by
    rw [BitVec.toNat_shiftLeft, BitVec.toNat_ofNat, Nat.mod_eq_of_lt (show imm < 2 ^ 32 by omega), Nat.mod_eq_of_lt hlt]
  have hlow : (x &&& 0xFFFF).toNat = x.toNat % 65536 := Nat.and_two_pow_sub_one_eq_mod x.toNat 16
  rw [ldhiValue, BitVec.toNat_or, hhigh, hlow, ← Nat.shiftLeft_add_eq_or_of_lt (by omega), Nat.shiftLeft_eq]
  omega

theorem exec_ldi (a : Fin 8) (imm : Nat) (s : State) :
    exec (.ldi a imm) s = .next (s.setArg a ((BitVec.ofNat 16 imm).setWidth 32)).advance := rfl

theorem exec_ldhi {a : Fin 8} {s : State} {x : Word} (h : s.argAt a = some x) (imm : Nat) :
    exec (.ldhi a imm) s = .next (s.setArg a (ldhiValue imm x)).advance :=
  withArg_some h _

theorem exec_mov {r : Fin 8} {s : State} {x : Word} (h : s.resAt r = some x) (a : Fin 8) :
    exec (.mov a r) s = .next (s.setArg a x).advance :=
  withRes_some h _

/-- Settles O29: each move ends in a write of one ARG register, and the value written is read off in arithmetic. -/
theorem operandMoveResults : Obligations.OperandMoveResults := fun s =>
  ⟨rfl,
    fun a imm himm => ⟨_, _, exec_ldi a imm s, moveResult_setArg s a _, toNat_zeroExtended_imm himm⟩,
    fun a imm x himm hx => ⟨_, _, exec_ldhi hx imm, moveResult_setArg s a _, toNat_ldhiValue himm x⟩,
    fun a _ x hx => ⟨_, exec_mov hx a, moveResult_setArg s a x⟩⟩

/-! ### The expansions -/

/-- The commands of `LI a<n>, <v>` for the value `u` as a u32 (30_encoding.md R89). -/
def loadCommands (a : Fin 8) (u : Nat) : List Instr :=
  if u < 0x10000 then [.ldi a u] else [.ldi a (u % 0x10000), .ldhi a (u / 0x10000)]

theorem expandLI_eq (a : Fin 8) {v : Int} (hlo : -2 ^ 31 ≤ v) (hhi : v < 2 ^ 32) :
    expandLI a v = some (loadCommands a (v % 2 ^ 32).toNat) := by
  unfold expandLI loadCommands
  rw [if_pos ⟨hlo, hhi⟩, apply_ite some]

theorem loadCommands_wellFormed (a : Fin 8) {u : Nat} (hu : u < 2 ^ 32) : ∀ i ∈ loadCommands a u, i.wellFormed = true := by
  unfold loadCommands
  split
  · simpa [Instr.wellFormed, immInRange]
  · simp [Instr.wellFormed, immInRange]
    omega

/-- A second write to a register is the only one that counts. -/
theorem setArg_advance_setArg (s : State) (a : Fin 8) (v w : Word) :
    (s.setArg a v).advance.setArg a w = (s.setArg a w).advance := by
  simp [State.setArg, State.advance]

theorem execAll_load_low (a : Fin 8) {u : Nat} (hu : u < 0x10000) (s : State) :
    execAll [.ldi a u] s = .next (s.setArg a (BitVec.ofNat 32 u)).advance := by
  have hvalue : (BitVec.ofNat 16 u).setWidth 32 = BitVec.ofNat 32 u := by
    refine BitVec.eq_of_toNat_eq ?_
    rw [toNat_zeroExtended_imm hu, BitVec.toNat_ofNat]
    omega
  simp only [execAll, exec_ldi, hvalue]

/-- The low half first, and then the high half above it (30_encoding.md R89). -/
theorem execAll_load_halves (a : Fin 8) {u : Nat} (hu : u < 2 ^ 32) (s : State) :
    execAll [.ldi a (u % 0x10000), .ldhi a (u / 0x10000)] s =
      .next (s.setArg a (BitVec.ofNat 32 u)).advance.advance := by
  generalize hlow : (BitVec.ofNat 16 (u % 0x10000)).setWidth 32 = low
  have harg : (s.setArg a low).advance.argAt a = some low := (argAt_setArg s a low a).trans (if_pos rfl)
  have hvalue : ldhiValue (u / 0x10000) low = BitVec.ofNat 32 u := by
    refine BitVec.eq_of_toNat_eq ?_
    rw [toNat_ldhiValue (by omega), ← hlow, toNat_zeroExtended_imm (by omega), BitVec.toNat_ofNat]
    omega
  simp only [execAll, exec_ldi, hlow, exec_ldhi harg, hvalue, setArg_advance_setArg]

/-- Run, the commands leave the value in ARG[a] and pc past them, and touch nothing else. -/
theorem execAll_loadCommands (a : Fin 8) {u : Nat} (hu : u < 2 ^ 32) (s : State) :
    ∃ t, execAll (loadCommands a u) s = .next t ∧
      (∀ k : Fin 8, t.argAt k = if k = a then some (BitVec.ofNat 32 u) else s.argAt k) ∧
      t.res = s.res ∧ t.status = s.status ∧ t.fault = s.fault ∧ t.pc = s.pc + (loadCommands a u).length ∧
      t.dowBase = s.dowBase ∧ t.prog = s.prog ∧ NoTransaction s t := by
  have harg := argAt_setArg s a (BitVec.ofNat 32 u)
  unfold loadCommands
  split
  next hlow => exact ⟨_, execAll_load_low a hlow s, harg, rfl, rfl, rfl, rfl, rfl, rfl, rfl, rfl, rfl, rfl⟩
  next => exact ⟨_, execAll_load_halves a hu s, harg, rfl, rfl, rfl, rfl, rfl, rfl, rfl, rfl, rfl, rfl⟩

theorem expandLDDT_eq {sec mi h dw dm mo y : Nat} (hvals : ∀ v ∈ [sec, mi, h, dw, dm, mo, y], v ≤ 65535) :
    expandLDDT [sec, mi, h, dw, dm, mo, y] =
      some [.ldi 0 sec, .ldi 1 mi, .ldi 2 h, .ldi 3 dw, .ldi 4 dm, .ldi 5 mo, .ldi 6 y] := by
  have hrange : [sec, mi, h, dw, dm, mo, y].all (fun v => immInRange v) = true :=
    List.all_eq_true.mpr fun v hv => decide_eq_true (Nat.lt_succ_of_le (hvals v hv))
  exact if_pos ⟨rfl, hrange⟩

theorem regsInOrder_getElem? (k : Fin 8) : regsInOrder[k.val]? = some k := by
  revert k
  decide

theorem expandMOVR_eq {n : Nat} (h1 : 1 ≤ n) (h8 : n ≤ 8) :
    expandMOVR n = some ((regsInOrder.take n).map fun i => .mov i i) :=
  if_pos ⟨h1, h8⟩

/-- Settles O5: the three expansions, and the run of the commands of LI. -/
theorem pseudoInstructionExpansions : Obligations.PseudoInstructionExpansions := by
  refine ⟨fun a v s hlo hhi => ?_, fun _ _ _ _ _ _ _ => expandLDDT_eq,
    fun n h1 h8 => ⟨_, expandMOVR_eq h1 h8, ?_, fun k hk => ?_⟩⟩
  · have hu : (v % 2 ^ 32).toNat < 2 ^ 32 := by omega
    exact ⟨expandLI_eq a hlo hhi, loadCommands_wellFormed a hu, execAll_loadCommands a hu s⟩
  · simpa [regsInOrder] using h8
  · simp [hk, regsInOrder_getElem?]

end Sys2Proof.Machine
end

section
/-!
A step completes or faults, and every run ends (30_encoding.md R91, 60_exceptions.md R262, 70_reset_and_hazards.md R293): a step
with a command at pc always answers a next state, and each one that does not fault brings pc nearer to the end of the stream.
-/
namespace Sys2Proof.Machine

/-! ### A step completes or faults -/

theorem step_faulted {s : State} {r : FaultRecord} (h : s.fault = some r) : step s = .fault (.halted r) := by
  simp [step, fetch, h]

theorem exec_raised_or_advanced {i : Instr} {s t : State} (h : exec i s = .next t) :
    Raised s t ∨ (t.fault = s.fault ∧ t.pc = s.pc + 1) := by
  rcases exec_cases h with hraised | hmoved | hcompleted
  · exact .inl hraised
  · obtain ⟨hpc, _, _, hfault, -⟩ := hmoved.frame
    exact .inr ⟨hfault, hpc⟩
  · have hpc := hcompleted.pc
    obtain ⟨_, _, _, _, hmove, rfl, -⟩ := hcompleted
    exact .inr ⟨hmove.fault, hpc⟩

/-- Settles O10: the end of a command that is no fault leaves FAULT as the fetch found it, and a recorded fault halts the next
fetch. -/
theorem stepCompletesOrFaults : Obligations.StepCompletesOrFaults := by
  intro s t hstep
  obtain ⟨hdow, hprog⟩ := step_sameConfig hstep
  have hends : Raised s t ∨ (t.fault = none ∧ t.pc = s.pc + 1) := by
    obtain ⟨w, hfetch, ⟨i, _, hexec⟩ | ⟨_, _, hraise⟩⟩ := step_cases hstep
    · obtain ⟨hfault, _⟩ := (fetch_eq_word_iff s w).mp hfetch
      exact hfault ▸ exec_raised_or_advanced hexec
    · exact .inl (raise_next hraise)
  rcases hends with ⟨cause, w, hword, rfl⟩ | ⟨hfault, hpc⟩
  · exact .inr ⟨cause, w, hword, rfl, step_faulted rfl⟩
  · exact .inl ⟨hfault, hpc, hdow, hprog⟩

/-! ### A step with a command at pc answers a next state -/

/-- The outcome is a next state. -/
def Answers (o : Out) : Prop := ∃ t, o = .next t

section
variable {s : State} {w : Word} (hword : s.prog[s.pc]? = some w)
include hword

theorem Answers.raise (c : FaultCause) : Answers (raise c s) := ⟨_, raise_eq hword c⟩

theorem Answers.withArg {i : Fin 8} {k : Word → Out} (hk : ∀ v, Answers (k v)) : Answers (withArg s i k) := by
  unfold Machine.withArg
  split
  · exact hk _
  · exact .raise hword _

theorem Answers.withRes {r : Fin 8} {k : Word → Out} (hk : ∀ v, Answers (k v)) : Answers (withRes s r k) := by
  unfold Machine.withRes
  split
  · exact hk _
  · exact .raise hword _

theorem Answers.requireDomain {c : Bool} {k : Out} (hk : Answers k) : Answers (requireDomain c s k) := by
  cases c
  · exact .raise hword _
  · exact hk

theorem Answers.withArgs3 {k : Word → Word → Word → Out} (hk : ∀ a0 a1 a2, Answers (k a0 a1 a2)) :
    Answers (withArgs3 s k) :=
  .withArg hword fun _ => .withArg hword fun _ => .withArg hword fun _ => hk _ _ _

theorem Answers.withArgs7 {k : Word → Word → Word → Word → Word → Word → Word → Out}
    (hk : ∀ a0 a1 a2 a3 a4 a5 a6, Answers (k a0 a1 a2 a3 a4 a5 a6)) : Answers (withArgs7 s k) :=
  .withArgs3 hword fun _ _ _ => .withArg hword fun _ => .withArg hword fun _ => .withArg hword fun _ =>
    .withArg hword fun _ => hk _ _ _ _ _ _ _

theorem Answers.withValidDateTime {k : DateTime → Out} (hk : ∀ dt, Answers (k dt)) : Answers (withValidDateTime s k) :=
  .withArgs7 hword fun _ _ _ _ _ _ _ => .requireDomain hword (hk _)

/-- No command's meaning is refused, and its faults are next states; the cases are grouped by their check phase. -/
theorem exec_answers (i : Instr) : Answers (exec i s) := by
  cases i <;> unfold exec
  case nop | ldi | getDatetime | getTime | startConv | getOsf | getAging | getTemp => exact ⟨_, rfl⟩
  case ldhi => exact .withArg hword fun _ => ⟨_, rfl⟩
  case mov => exact .withRes hword fun _ => ⟨_, rfl⟩
  case bcdEnc | bcdDec | isLeap | daysBeforeYear | fromEpoch | getAlarmFlag | clearAlarmFlag | setOscEnable | setSquareWave
      | set32khz | agingEnc | agingDec | setAging =>
    exact .withArg hword fun _ => .requireDomain hword ⟨_, rfl⟩
  case daysInMonth | daysBeforeMonth | alarmIntEnable | tempDecode =>
    exact .withArg hword fun _ => .withArg hword fun _ => .requireDomain hword ⟨_, rfl⟩
  case timeDecode | setTime => exact .withArgs3 hword fun _ _ _ => .requireDomain hword ⟨_, rfl⟩
  case alarm2Encode | setAlarm2 =>
    exact .withArgs3 hword fun _ _ _ => .withArg hword fun _ => .requireDomain hword ⟨_, rfl⟩
  case alarm1Encode | setAlarm1 =>
    exact .withArgs3 hword fun _ _ _ => .withArg hword fun _ => .withArg hword fun _ => .requireDomain hword ⟨_, rfl⟩
  case dtValidate => exact .withArgs7 hword fun _ _ _ _ _ _ _ => ⟨_, rfl⟩
  case dtDecode => exact .withArgs7 hword fun _ _ _ _ _ _ _ => .requireDomain hword ⟨_, rfl⟩
  case dtEncode | setDatetime | toEpoch => exact .withValidDateTime hword fun _ => ⟨_, rfl⟩

theorem step_answers (hfault : s.fault = none) : Answers (step s) := by
  have hfetch := (fetch_eq_word_iff s w).mpr ⟨hfault, hword⟩
  cases hdecode : decode w with
  | ok i => simpa [step, hfetch, hdecode] using exec_answers hword i
  | error e => simpa [step, hfetch, hdecode] using Answers.raise hword .illegalCommand

end

/-! ### Every run ends -/

theorem transactionRow_length_le (i : Instr) : (transactionRow i).length ≤ 6 := by
  cases i
  case ldi | ldhi | mov => exact Nat.zero_le 6
  all_goals decide

/-- A step makes at most the transactions of one row. -/
theorem step_hist_length_le {s t : State} (h : step s = .next t) : t.hist.length ≤ s.hist.length + 6 := by
  obtain ⟨_, _, ⟨i, _, hexec⟩ | ⟨_, _, hraise⟩⟩ := step_cases h
  · obtain ⟨ev, htraced⟩ := exec_traced hexec
    have hrow := htraced.begins.length_le.trans (transactionRow_length_le i)
    rw [List.length_map] at hrow
    rw [htraced.hist, List.length_append]
    omega
  · obtain ⟨hhist, _⟩ := (raise_next hraise).noTransaction
    rw [hhist]
    omega

theorem core_run_zero (s : State) : Host.Core.run Sys2Proof.core 0 s = .next s := rfl

theorem core_run_succ {s t : State} (h : step s = .next t) (k : Nat) :
    Host.Core.run Sys2Proof.core (k + 1) s = Host.Core.run Sys2Proof.core k t := by
  have hcore : Host.Core.step Sys2Proof.core s = .next t := h
  simp only [Host.Core.run, hcore]

/-- Settles O19, by induction on the number of commands before the end of the stream: with none left, or with a fault recorded,
the run has ended, and any other step either records a fault or leaves one command fewer. -/
theorem everyRunEnds : Obligations.EveryRunEnds := by
  intro s hpc
  induction hn : s.prog.length - s.pc generalizing s with
  | zero =>
    refine ⟨0, s, le_rfl, core_run_zero s, ?_, le_rfl⟩
    cases hfault : s.fault with
    | none => exact .inl ⟨hfault, by omega⟩
    | some r => exact .inr ⟨r, rfl⟩
  | succ n ih =>
    cases hfault : s.fault with
    | some r => exact ⟨0, s, Nat.zero_le _, core_run_zero s, .inr ⟨r, hfault⟩, le_rfl⟩
    | none =>
      obtain ⟨t, hstep⟩ := step_answers (List.getElem?_eq_getElem (show s.pc < s.prog.length by omega)) hfault
      have hhist := step_hist_length_le hstep
      rcases stepCompletesOrFaults s t hstep with ⟨_, hpc', _, hprog⟩ | ⟨cause, w, _, rfl, _⟩
      · have hlength := congrArg List.length hprog
        obtain ⟨k, u, hk, hrun, hend, hhist'⟩ := ih t (by omega) (by omega)
        exact ⟨k + 1, u, by omega, (core_run_succ hstep k).trans hrun, hend, by omega⟩
      · exact ⟨1, _, by omega, (core_run_succ hstep 0).trans (core_run_zero _), .inr ⟨_, rfl⟩, hhist⟩

end Sys2Proof.Machine
end

section
/-!
The BCD codec (40_bcd.md R101, R103, R104) and its two commands (R105, R106): encoding gives the tens above the ones, decoding
reads the nibbles back, and each inverts the other where both nibbles are digits.
-/
namespace Sys2Proof.Machine

/-! ### The codec -/

/-- The encoding in arithmetic: tens in bits 7:4, ones in bits 3:0 (40_bcd.md R100). -/
theorem bcdEnc_toNat {d : Nat} (h : d ≤ 99) : (bcdEnc d).toNat = 16 * (d / 10) + d % 10 := by
  rw [bcdEnc_eq_bcdByte h, bcdByte_toNat h]

/-- Both nibbles of an encoding are digits (40_bcd.md R103). -/
theorem bcdEnc_digits {d : Nat} (h : d ≤ 99) : (bcdEnc d).toNat / 16 ≤ 9 ∧ (bcdEnc d).toNat % 16 ≤ 9 := by
  rw [bcdEnc_toNat h]
  omega

/-- Any byte, BCD-valid or not, decodes to at most 10 * 15 + 15 (40_bcd.md R104). -/
theorem bcdDec_le (b : Byte) : bcdDec b ≤ 165 := by
  have hb := b.isLt
  rw [bcdDec_eq]
  omega

section
variable {b : Byte} (htens : b.toNat / 16 ≤ 9) (hones : b.toNat % 16 ≤ 9)
include htens hones

theorem bcdDec_le_of_digits : bcdDec b ≤ 99 := by
  rw [bcdDec_eq]
  omega

/-- Where both nibbles are digits, they are the tens and the ones of the value decoded (40_bcd.md R103). -/
theorem bcdEnc_bcdDec : bcdEnc (bcdDec b) = b := by
  refine BitVec.eq_of_toNat_eq ?_
  rw [bcdEnc_toNat (bcdDec_le_of_digits htens hones), bcdDec_eq]
  omega

end

/-- The two codecs in arithmetic pair the bytes with two digits with 0..99, so there are a hundred of them (40_bcd.md R103). -/
theorem length_digitBytes : ((List.range 256).filter fun n => n / 16 ≤ 9 && n % 16 ≤ 9).length = 100 := by
  have hcard : ((Finset.range 256).filter fun n => n / 16 ≤ 9 ∧ n % 16 ≤ 9).card = (Finset.range 100).card := by
    refine Finset.card_nbij' (fun n => 10 * (n / 16) + n % 16) (fun d => 16 * (d / 10) + d % 10) ?_ ?_ ?_ ?_ <;>
      intro n hn <;> simp only [Finset.mem_coe, Finset.mem_filter, Finset.mem_range] at hn ⊢ <;> omega
  rw [Finset.card_range, ← Nat.count_eq_card_filter_range, Nat.count, List.countP_eq_length_filter] at hcard
  simpa using hcard

/-- Settles O31: both laws by the arithmetic of the codec, and the count because they pair the valid bytes with 0..99. -/
theorem bcdInverseLaws : Obligations.BcdInverseLaws :=
  ⟨fun _ hd => ⟨bcdEnc_digits hd, bcdDec_bcdEnc hd⟩,
    fun _ ⟨htens, hones⟩ => ⟨bcdDec_le_of_digits htens hones, bcdEnc_bcdDec htens hones⟩,
    length_digitBytes, bcdDec_le, by decide, by decide, by decide⟩

/-! ### The commands -/

/-- A command whose one operand is written and in its domain goes on with its value. -/
theorem withArg_requireDomain {s : State} {a : Word} (h : ArgsAre s [a]) {c : Word → Bool} (hc : c a = true) (k : Word → Out) :
    (withArg s 0 fun v => requireDomain (c v) s (k v)) = k a := by
  rw [withArg_some (argsAre_one.mp h), requireDomain_true hc]

theorem exec_bcdEnc {s : State} {d : Word} (h : ArgsAre s [d]) (hd : d.toNat ≤ 99) :
    exec .bcdEnc s = .next ((s.setRes [zext32 (bcdEnc d.toNat)]).finish .ok) :=
  withArg_requireDomain h (c := fun d => d.toNat ≤ 99) (decide_eq_true hd) _

theorem exec_bcdDec {s : State} {b : Word} (h : ArgsAre s [b]) (hb : b.toNat ≤ 0xFF) :
    exec .bcdDec s = .next ((s.setRes [BitVec.ofNat 32 (bcdDec (toByte b))]).finish .ok) :=
  withArg_requireDomain h ((isByte_iff b).mpr hb) _

theorem zext32_toNat (b : Byte) : (zext32 b).toNat = b.toNat :=
  BitVec.toNat_setWidth_of_le (by decide)

theorem toByte_toNat {w : Word} (h : w.toNat ≤ 0xFF) : (toByte w).toNat = w.toNat := by
  rw [toByte, BitVec.toNat_setWidth]
  omega

/-- Settles O30: each command finishes with the codec's value, and no value is too large for its result word. -/
theorem bcdCommandResults : Obligations.BcdCommandResults := by
  intro s d hargs
  refine ⟨fun hd => ⟨_, _, exec_bcdEnc hargs hd, pureResult_finish s _ .ok, ?_⟩,
    fun hd => ⟨_, _, exec_bcdDec hargs hd, pureResult_finish s _ .ok, ?_⟩⟩
  · rw [zext32_toNat, bcdEnc_toNat hd]
  · have hle := bcdDec_le (toByte d)
    rw [BitVec.toNat_ofNat, Nat.mod_eq_of_lt (by omega), bcdDec_eq, toByte_toNat hd]

end Sys2Proof.Machine
end

section
/-!
The register block (41_datetime.md R120, R123, R124, R134) and the pure commands over it (R125 to R128): a block decodes to its
masked fields or to zeros, and the block of a range-valid DateTime decodes to that DateTime.
-/
namespace Sys2Proof.Machine

/-! ### Decoding -/

section
variable {base : DowBase} {b0 b1 b2 b3 b4 b5 b6 : Byte}

theorem decodeBlock_of_inRange
    (h : FieldsInRange base (blockDateTime b0.toNat b1.toNat b2.toNat b3.toNat b4.toNat b5.toNat b6.toNat)) :
    decodeBlock base [b0, b1, b2, b3, b4, b5, b6] =
      (blockDateTime b0.toNat b1.toNat b2.toNat b3.toNat b4.toNat b5.toNat b6.toNat, true) := by
  rw [decodeBlock_eq, if_pos ((rangeValid_iff_fields _ _).mpr h)]

theorem decodeBlock_of_not_inRange
    (h : ¬ FieldsInRange base (blockDateTime b0.toNat b1.toNat b2.toNat b3.toNat b4.toNat b5.toNat b6.toNat)) :
    decodeBlock base [b0, b1, b2, b3, b4, b5, b6] = (invalidDT, false) := by
  rw [decodeBlock_eq, if_neg (mt (rangeValid_iff_fields _ _).mp h)]

end

theorem finishBlock_of_decodes {base : DowBase} {bs : List Byte} {dt : DateTime} (h : decodeBlock base bs = (dt, true))
    (s : State) : s.finishBlock base bs = (s.setRes dt.toWords).finish .ok := by
  rw [State.finishBlock, h]
  rfl

theorem finishBlock_of_discarded {base : DowBase} {bs : List Byte} (h : decodeBlock base bs = (invalidDT, false))
    (s : State) : s.finishBlock base bs = (s.setRes (List.replicate 7 0)).finish .invalidData := by
  rw [State.finishBlock, h]
  rfl

section
variable {b0 b1 b2 : Byte}

theorem finishTime_of_inRange
    (h : maskedBcd 128 b0.toNat ≤ 59 ∧ maskedBcd 128 b1.toNat ≤ 59 ∧ maskedBcd 64 b2.toNat ≤ 23) (s : State) :
    s.finishTime [b0, b1, b2] =
      (s.setRes ([maskedBcd 128 b0.toNat, maskedBcd 128 b1.toNat, maskedBcd 64 b2.toNat].map (BitVec.ofNat 32))).finish .ok := by
  rw [State.finishTime, decodeTime_eq, if_pos ((timeInRange_iff _ _ _).mpr h)]

theorem finishTime_of_not_inRange
    (h : ¬ (maskedBcd 128 b0.toNat ≤ 59 ∧ maskedBcd 128 b1.toNat ≤ 59 ∧ maskedBcd 64 b2.toNat ≤ 23)) (s : State) :
    s.finishTime [b0, b1, b2] = (s.setRes [0, 0, 0]).finish .invalidData := by
  rw [State.finishTime, decodeTime_eq, if_neg (mt (timeInRange_iff _ _ _).mp h)]

end

/-! ### The round trip -/

/-- Masking loses nothing of a BCD byte below the mask's bound `m`, so it decodes to the value encoded. -/
theorem maskedBcd_bcdByte {m d : Nat} (hd : d ≤ 99) (hm : 16 * (d / 10) + d % 10 < m) :
    maskedBcd m (bcdByte d).toNat = d := by
  rw [maskedBcd, bcdByte_toNat hd, Nat.mod_eq_of_lt hm]
  omega

/-- Each field in range is narrower than its mask, so the block's fields are those of the DateTime. -/
theorem blockDateTime_bcdByte {base : DowBase} {dt : DateTime} (h : rangeValid base dt = true) :
    blockDateTime (bcdByte dt.second).toNat (bcdByte dt.minute).toNat (bcdByte dt.hour).toNat (bcdByte dt.dayOfWeek).toNat
      (bcdByte dt.dayOfMonth).toNat (bcdByte dt.month).toNat (bcdByte (dt.year - 2000)).toNat = dt := by
  have hdow := dayOfWeek_le h
  obtain ⟨hsec, hmin, hhour, -, ⟨-, hday⟩, ⟨-, hmonth⟩, hyear⟩ := (rangeValid_iff base dt).mp h
  simp only [blockDateTime]
  rw [maskedBcd_bcdByte, maskedBcd_bcdByte, maskedBcd_bcdByte, maskedBcd_bcdByte, maskedBcd_bcdByte, maskedBcd_bcdByte,
    maskedBcd_bcdByte, Nat.add_sub_cancel' hyear.1]
  all_goals omega

theorem decodeBlock_blockOf {base : DowBase} {dt : DateTime} (h : rangeValid base dt = true) :
    decodeBlock base (blockOf dt) = (dt, true) := by
  rw [blockOf, decodeBlock_eq, blockDateTime_bcdByte h, if_pos h]

/-- Settles O35: the block of a range-valid DateTime is the BCD byte of each field, and those bytes decode to the fields. -/
theorem registerBlockRoundTrip : Obligations.RegisterBlockRoundTrip := by
  intro base dt h
  rw [encodeBlock_eq h, decodeBlock_blockOf h]

/-! ### The pure commands -/

section
variable {s : State} {a0 a1 a2 a3 a4 a5 a6 : Word}

theorem withValidDateTime_args (h : ArgsAre s [a0, a1, a2, a3, a4, a5, a6])
    (hvalid : FieldsInRange s.dowBase (dateTimeOf a0 a1 a2 a3 a4 a5 a6)) (k : DateTime → Out) :
    withValidDateTime s k = k (dateTimeOf a0 a1 a2 a3 a4 a5 a6) := by
  rw [withValidDateTime, withDateTime_args h, requireDomain_true ((rangeValid_iff_fields _ _).mpr hvalid)]

theorem exec_dtEncode (h : ArgsAre s [a0, a1, a2, a3, a4, a5, a6])
    (hvalid : FieldsInRange s.dowBase (dateTimeOf a0 a1 a2 a3 a4 a5 a6)) :
    exec .dtEncode s = .next ((s.setRes ((blockOf (dateTimeOf a0 a1 a2 a3 a4 a5 a6)).map zext32)).finish .ok) := by
  simp only [exec, execDtEncode, withValidDateTime_args h hvalid, encodeBlock_eq ((rangeValid_iff_fields _ _).mpr hvalid)]

theorem exec_dtDecode (h : ArgsAre s [a0, a1, a2, a3, a4, a5, a6])
    (hbytes : ∀ a ∈ [a0, a1, a2, a3, a4, a5, a6], a.toNat ≤ 0xFF) :
    exec .dtDecode s = .next (s.finishBlock s.dowBase ([a0, a1, a2, a3, a4, a5, a6].map toByte)) := by
  simp only [exec, execDtDecode, withArgs7_args h]
  exact requireDomain_true (List.all_eq_true.mpr fun a ha => (isByte_iff a).mpr (hbytes a ha)) _ _

theorem exec_timeDecode (h : ArgsAre s [a0, a1, a2]) (hbytes : ∀ a ∈ [a0, a1, a2], a.toNat ≤ 0xFF) :
    exec .timeDecode s = .next (s.finishTime ([a0, a1, a2].map toByte)) := by
  simp only [exec, execTimeDecode, withArgs3_args h]
  exact requireDomain_true (List.all_eq_true.mpr fun a ha => (isByte_iff a).mpr (hbytes a ha)) _ _

end

/-- Settles O32: with its operands written the command tests nothing but range validity. -/
theorem dtValidateResult : Obligations.DtValidateResult := by
  intro s a0 a1 a2 a3 a4 a5 a6 hargs
  have hexec := withDateTime_args hargs fun dt =>
    .next (if rangeValid s.dowBase dt then (s.setRes [1]).finish .ok else (s.setRes [0]).finish .invalidData)
  refine ⟨_, hexec, fun hvalid => ?_, fun hinvalid => ?_⟩
  · rw [if_pos ((rangeValid_iff_fields _ _).mpr hvalid)]
    exact pureResult_finish s [1] .ok
  · rw [if_neg (mt (rangeValid_iff_fields _ _).mp hinvalid)]
    exact pureResult_finish s [0] .invalidData

/-- Settles O33: the masks lose no bit of a field in range (`encodeBlock_eq`). -/
theorem dtEncodeResult : Obligations.DtEncodeResult := by
  intro s a0 a1 a2 a3 a4 a5 a6 hargs hvalid
  exact ⟨_, exec_dtEncode hargs hvalid, pureResult_finish s ((blockOf _).map zext32) .ok⟩

/-- Settles O34: each byte operand is its word's value, and the masked fields are kept whole or discarded whole. -/
theorem decodeCommandResults : Obligations.DecodeCommandResults := by
  intro s a0 a1 a2 a3 a4 a5 a6
  refine ⟨fun hargs hbytes => ⟨_, exec_dtDecode hargs hbytes, ?_⟩, fun hargs hbytes => ⟨_, exec_timeDecode hargs hbytes, ?_⟩⟩
  · simp only [List.forall_mem_cons] at hbytes
    obtain ⟨h0, h1, h2, h3, h4, h5, h6, -⟩ := hbytes
    rw [← toByte_toNat h0, ← toByte_toNat h1, ← toByte_toNat h2, ← toByte_toNat h3, ← toByte_toNat h4, ← toByte_toNat h5,
      ← toByte_toNat h6]
    refine ⟨fun hvalid => ?_, fun hinvalid => ?_⟩
    · exact finishBlock_of_decodes (decodeBlock_of_inRange hvalid) s ▸ pureResult_finish s _ .ok
    · exact finishBlock_of_discarded (decodeBlock_of_not_inRange hinvalid) s ▸ pureResult_finish s _ .invalidData
  · simp only [List.forall_mem_cons] at hbytes
    obtain ⟨h0, h1, h2, -⟩ := hbytes
    rw [← toByte_toNat h0, ← toByte_toNat h1, ← toByte_toNat h2]
    refine ⟨fun hvalid => ?_, fun hinvalid => ?_⟩
    · exact finishTime_of_inRange hvalid s ▸ pureResult_finish s _ .ok
    · exact finishTime_of_not_inRange hinvalid s ▸ pureResult_finish s _ .invalidData

end Sys2Proof.Machine
end

section
/-!
The sequenced date/time commands (41_datetime.md R130 to R133): what one read leaves, and then each command as its read, its
block write or both, with the results and the code its rule gives.
-/
namespace Sys2Proof.Machine

/-! ### A command that ends after its transactions -/

theorem PortMove.sequenced_setRes {s mid : State} {ev : List Event} (h : PortMove s mid ev) (vals : List Word)
    (code : StatusCode) : SequencedResult s ((mid.setRes vals).finish code) ev (vals.map some) code.toByte :=
  h.sequenced (vals.map some) code

theorem PortMove.sequenced_clearRes {s mid : State} {ev : List Event} (h : PortMove s mid ev) (n : Nat) (code : StatusCode) :
    SequencedResult s ((mid.clearRes n).finish code) ev (List.replicate n none) code.toByte :=
  h.sequenced (List.replicate n none) code

theorem PortMove.sequenced_finish {s mid : State} {ev : List Event} (h : PortMove s mid ev) (code : StatusCode) :
    SequencedResult s (mid.finish code) ev [] code.toByte :=
  h.sequenced [] code

/-- A read fails, or it returns as many bytes as asked. -/
theorem txRead_cases (start n : Nat) (s : State) (h1 : 1 ≤ n) (h2 : start + n ≤ 0x13) :
    (∃ s1, txRead start n s = (.fail, s1) ∧ PortMove s s1 [.rd s.pc start n .fail]) ∨
    ∃ bytes s1, bytes.length = n ∧ txRead start n s = (.ok bytes, s1) ∧ PortMove s s1 [.rd s.pc start n (.ok bytes)] := by
  have hmove := txRead_portMove start n s h1 h2
  rcases txRead_result start n s with hfail | ⟨bytes, hok, hlength⟩
  · rw [hfail] at hmove
    exact .inl ⟨_, Prod.ext hfail rfl, hmove⟩
  · rw [hok] at hmove
    exact .inr ⟨bytes, _, hlength, Prod.ext hok rfl, hmove⟩

theorem exists_of_length_eq_seven {α : Type} {l : List α} (h : l.length = 7) :
    ∃ b0 b1 b2 b3 b4 b5 b6, l = [b0, b1, b2, b3, b4, b5, b6] :=
  match l, h with
  | [b0, b1, b2, b3, b4, b5, b6], _ => ⟨b0, b1, b2, b3, b4, b5, b6, rfl⟩

/-! ### GET_DATETIME and GET_TIME -/

/-- Settles O39: the one read of seven bytes fails, or its bytes decode whole or are discarded. -/
theorem getDatetimeResult : Obligations.GetDatetimeResult := by
  intro s
  refine ⟨_, rfl, ?_⟩
  rcases txRead_cases 0x00 7 s (by omega) (by omega) with ⟨s1, hread, hmove⟩ | ⟨bytes, s1, hlength, hread, hmove⟩
  · rw [hread]
    exact .inl (hmove.sequenced_clearRes 7 .transportFail)
  · obtain ⟨b0, b1, b2, b3, b4, b5, b6, rfl⟩ := exists_of_length_eq_seven hlength
    refine .inr ⟨b0, b1, b2, b3, b4, b5, b6, ?_⟩
    rw [hread]
    dsimp only
    by_cases hvalid : FieldsInRange s.dowBase
      (blockDateTime b0.toNat b1.toNat b2.toNat b3.toNat b4.toNat b5.toNat b6.toNat)
    · exact .inl ⟨hvalid, finishBlock_of_decodes (decodeBlock_of_inRange hvalid) s1 ▸ hmove.sequenced_setRes _ .ok⟩
    · exact .inr ⟨hvalid,
        finishBlock_of_discarded (decodeBlock_of_not_inRange hvalid) s1 ▸ hmove.sequenced_setRes _ .invalidData⟩

/-- Settles O40: the one read of three bytes fails, or its bytes decode whole or are discarded. -/
theorem getTimeResult : Obligations.GetTimeResult := by
  intro s
  refine ⟨_, rfl, ?_⟩
  rcases txRead_cases 0x00 3 s (by omega) (by omega) with ⟨s1, hread, hmove⟩ | ⟨bytes, s1, hlength, hread, hmove⟩
  · rw [hread]
    exact .inl (hmove.sequenced_clearRes 3 .transportFail)
  · obtain ⟨b0, b1, b2, rfl⟩ := List.length_eq_three.mp hlength
    refine .inr ⟨b0, b1, b2, ?_⟩
    rw [hread]
    dsimp only
    by_cases hvalid : maskedBcd 128 b0.toNat ≤ 59 ∧ maskedBcd 128 b1.toNat ≤ 59 ∧ maskedBcd 64 b2.toNat ≤ 23
    · exact .inl ⟨hvalid, finishTime_of_inRange hvalid s1 ▸ hmove.sequenced_setRes _ .ok⟩
    · exact .inr ⟨hvalid, finishTime_of_not_inRange hvalid s1 ▸ hmove.sequenced_setRes _ .invalidData⟩

/-! ### SET_DATETIME and SET_TIME -/

/-- The write of a range-valid DateTime makes the transactions of R130 with its block, and the command ends with their code. -/
theorem finishWriteDateTime_cases {base : DowBase} {dt : DateTime} (h : rangeValid base dt = true) (s : State) :
    ∃ mid ev code, s.finishWriteDateTime dt = mid.finish code ∧ PortMove s mid ev ∧
      IsWriteDateTime s.pc (blockOf dt) ev code.toByte := by
  obtain ⟨ev, hmove, hwrite⟩ := writeDateTime_cases dt s
  rw [encodeBlock_eq h] at hwrite
  exact ⟨_, ev, _, rfl, hmove, hwrite⟩

theorem exec_setDatetime {s : State} {a0 a1 a2 a3 a4 a5 a6 : Word} (h : ArgsAre s [a0, a1, a2, a3, a4, a5, a6])
    (hvalid : FieldsInRange s.dowBase (dateTimeOf a0 a1 a2 a3 a4 a5 a6)) :
    exec .setDatetime s = .next (s.finishWriteDateTime (dateTimeOf a0 a1 a2 a3 a4 a5 a6)) := by
  simp only [exec, execSetDatetime, withValidDateTime_args h hvalid]

/-- Settles O38: the command is the write of its operand. -/
theorem setDatetimeSequence : Obligations.SetDatetimeSequence := by
  intro s a0 a1 a2 a3 a4 a5 a6 hargs hvalid
  obtain ⟨mid, ev, code, hfinish, hmove, hwrite⟩ := finishWriteDateTime_cases ((rangeValid_iff_fields _ _).mpr hvalid) s
  refine ⟨_, ev, _, exec_setDatetime hargs hvalid, ?_, hwrite⟩
  rw [hfinish]
  exact hmove.sequenced_finish code

theorem exec_setTime {s : State} {a0 a1 a2 : Word} (h : ArgsAre s [a0, a1, a2])
    (hvalid : a0.toNat ≤ 59 ∧ a1.toNat ≤ 59 ∧ a2.toNat ≤ 23) :
    exec .setTime s = .next (setTimeEffect a0.toNat a1.toNat a2.toNat s) := by
  simp only [exec, execSetTime, withArgs3_args h]
  exact requireDomain_true ((timeInRange_iff _ _ _).mpr hvalid) _ _

/-- A range-valid DateTime stays range-valid with another time of day spliced in (41_datetime.md R133). -/
theorem FieldsInRange.splice {base : DowBase} {dt : DateTime} (h : FieldsInRange base dt) {second minute hour : Nat}
    (htime : second ≤ 59 ∧ minute ≤ 59 ∧ hour ≤ 23) :
    FieldsInRange base { dt with second := second, minute := minute, hour := hour } := by
  obtain ⟨-, -, -, hdate⟩ := h
  exact ⟨htime.1, htime.2.1, htime.2.2, hdate⟩

/-- Settles O41: the read of the record fails, or the record is invalid, or the record with the new time goes the way of
SET_DATETIME. -/
theorem setTimeSequence : Obligations.SetTimeSequence := by
  intro s a0 a1 a2 hargs hsec hmin hhour
  rw [exec_setTime hargs ⟨hsec, hmin, hhour⟩, setTimeEffect]
  rcases txRead_cases 0x00 7 s (by omega) (by omega) with ⟨s1, hread, hmove⟩ | ⟨bytes, s1, hlength, hread, hmove⟩
  · rw [hread]
    exact ⟨_, _, _, rfl, hmove.sequenced_finish .transportFail, .inl ⟨rfl, rfl⟩⟩
  · obtain ⟨b0, b1, b2, b3, b4, b5, b6, rfl⟩ := exists_of_length_eq_seven hlength
    rw [hread]
    dsimp only
    by_cases hvalid : FieldsInRange s.dowBase
      (blockDateTime b0.toNat b1.toNat b2.toNat b3.toNat b4.toNat b5.toNat b6.toNat)
    · have hspliced := (rangeValid_iff_fields _ _).mpr (hvalid.splice ⟨hsec, hmin, hhour⟩)
      obtain ⟨mid, ev, code, hfinish, hwritten, hwrite⟩ := finishWriteDateTime_cases hspliced s1
      rw [hmove.pc] at hwrite
      rw [decodeBlock_of_inRange hvalid, if_pos rfl, hfinish]
      exact ⟨_, _, _, rfl, (hmove.trans hwritten).sequenced_finish code,
        .inr ⟨b0, b1, b2, b3, b4, b5, b6, ev, rfl, .inr ⟨hvalid, hwrite⟩⟩⟩
    · rw [decodeBlock_of_not_inRange hvalid, if_neg Bool.false_ne_true]
      exact ⟨_, _, _, rfl, hmove.sequenced_finish .invalidData,
        .inr ⟨b0, b1, b2, b3, b4, b5, b6, [], rfl, .inl ⟨hvalid, rfl, rfl⟩⟩⟩

end Sys2Proof.Machine
end

section
/-!
SET_DATETIME and then GET_DATETIME on SimPeripheral (41_datetime.md R134, 20_memory.md R67): the first five draws let the whole
write through, the registers then hold the block and the two cleared bits, and the sixth draw returns the block.
-/
namespace Sys2Proof.Machine

/-! ### Transactions that all succeed -/

/-- The next `n` draws let their transactions through. -/
def NextSucceed (s : State) (n : Nat) : Prop := ∀ j, j < n → (s.drawAt j).ok = true

theorem NextSucceed.first {s : State} {n : Nat} (h : NextSucceed s (n + 1)) : s.nextDraw.ok = true :=
  s.nextDraw_eq ▸ h 0 (Nat.succ_pos n)

theorem NextSucceed.mono {s : State} {m n : Nat} (h : NextSucceed s n) (hmn : m ≤ n) : NextSucceed s m :=
  fun j hj => h j (hj.trans_le hmn)

/-- Transactions take their draws from the front. -/
theorem PortMove.nextSucceed {s t : State} {ev : List Event} (hmove : PortMove s t ev) {n : Nat}
    (h : NextSucceed s (ev.length + n)) : NextSucceed t n := fun j hj => by
  rw [hmove.drawAt]
  exact h _ (Nat.add_lt_add_left hj _)

theorem txWrite_whole {s : State} (h : NextSucceed s 1) {start : Nat} {bytes : List Byte} (h1 : 1 ≤ bytes.length)
    (h2 : start + bytes.length ≤ 0x13) :
    ∃ s1, txWrite start bytes s = (.ok, s1) ∧ PortMove s s1 [.wr s.pc start bytes .ok] := by
  have hok := txWrite_succeeds h.first start bytes
  have hmove := txWrite_portMove start bytes s h1 h2
  rw [hok] at hmove
  exact ⟨_, Prod.ext hok rfl, hmove⟩

/-- An RMW that nothing stops makes its read and its write (20_memory.md R58). -/
theorem rmw_whole {s : State} (h : NextSucceed s 2) {addr : Nat} (haddr : addr < 0x13) (clr set : Byte) :
    ∃ s2 v, rmw addr clr set s = (.ok, s2) ∧
      PortMove s s2 [.rd s.pc addr 1 (.ok [v]), .wr s.pc addr [(v &&& ~~~clr) ||| set] .ok] := by
  rcases txRead_cases addr 1 s (by omega) (by omega) with ⟨s1, hread, -⟩ | ⟨bytes, s1, hlength, hread, hmove⟩
  · simp [txRead, h.first] at hread
  · obtain ⟨v, rfl⟩ := List.length_eq_one_iff.mp hlength
    obtain ⟨s2, hwrite, hmove2⟩ := txWrite_whole (hmove.nextSucceed h) (start := addr) (bytes := [rmwValue v clr set])
      (by simp) (by simpa using haddr)
    rw [hmove.pc] at hmove2
    exact ⟨s2, v, by rw [rmw, hread]; exact hwrite, hmove.trans hmove2⟩

/-- The transactions of a write that nothing stops, with the bytes it finds in the control and the status register
(41_datetime.md R130). -/
def wholeWriteEvents (pc : Nat) (bs : List Byte) (control status : Byte) : List Event :=
  [.wr pc 0x00 bs .ok,
    .rd pc addrControl 1 (.ok [control]), .wr pc addrControl [(control &&& ~~~bitEOSC) ||| 0x00] .ok,
    .rd pc addrStatus 1 (.ok [status]), .wr pc addrStatus [(status &&& ~~~bitOSF) ||| 0x00] .ok]

theorem writeDateTime_whole {s : State} (h : NextSucceed s 5) (dt : DateTime) :
    ∃ mid control status, writeDateTime dt s = (.ok, mid) ∧
      PortMove s mid (wholeWriteEvents s.pc (encodeBlock dt) control status) := by
  obtain ⟨s1, hblock, hmove1⟩ := txWrite_whole (h.mono (by omega)) (start := 0x00) (bytes := encodeBlock dt)
    (by simp [encodeBlock, wmask]) (by simp [encodeBlock, wmask])
  have h1 : NextSucceed s1 4 := hmove1.nextSucceed h
  obtain ⟨s2, control, henable, hmove2⟩ := rmw_whole (h1.mono (by omega)) (addr := addrControl) (by decide) bitEOSC 0x00
  have h2 : NextSucceed s2 2 := hmove2.nextSucceed h1
  obtain ⟨s3, status, hclear, hmove3⟩ := rmw_whole h2 (addr := addrStatus) (by decide) bitOSF 0x00
  refine ⟨s3, control, status, by simp only [writeDateTime, hblock, henable, hclear], ?_⟩
  rw [hmove2.pc, hmove1.pc] at hmove3
  rw [hmove1.pc] at hmove2
  exact hmove1.trans (hmove2.trans hmove3)

/-! ### The registers afterwards -/

/-- The registers hold the bytes at ascending addresses from `start`. -/
def Holds (m : Memory) (start : Nat) (bytes : List Byte) : Prop :=
  ∀ i, ∀ hi : i < bytes.length, m.lookup (start + i) = some bytes[i]

theorem storeBytes_holds (m : Memory) {start : Nat} {bytes : List Byte} (h : start + bytes.length ≤ Config.regCount) :
    Holds (m.storeBytes start bytes) start bytes :=
  fun i hi => lookup_storeBytes_inside bytes m start i hi h

/-- Bytes stored past the span leave it. -/
theorem Holds.storeBytes {m : Memory} {start : Nat} {bytes : List Byte} (h : Holds m start bytes) {a : Nat}
    (ha : start + bytes.length ≤ a) (bs : List Byte) : Holds (m.storeBytes a bs) start bytes := fun i hi => by
  rw [lookup_storeBytes_outside bs m a (start + i) (.inl (by omega))]
  exact h i hi

/-- What a write that nothing stops leaves: the block, and the two registers with their bit cleared. -/
theorem replay_wholeWriteEvents (m : Memory) (pc : Nat) {bs : List Byte} (hlength : bs.length = 7) (control status : Byte) :
    Holds (replay m (wholeWriteEvents pc bs control status)) 0x00 bs ∧
    Holds (replay m (wholeWriteEvents pc bs control status)) addrControl [(control &&& ~~~bitEOSC) ||| 0x00] ∧
    Holds (replay m (wholeWriteEvents pc bs control status)) addrStatus [(status &&& ~~~bitOSF) ||| 0x00] := by
  have hreplay : replay m (wholeWriteEvents pc bs control status) =
      ((m.storeBytes 0x00 bs).storeBytes addrControl [(control &&& ~~~bitEOSC) ||| 0x00]).storeBytes addrStatus
        [(status &&& ~~~bitOSF) ||| 0x00] := rfl
  have hblock : Holds (m.storeBytes 0x00 bs) 0x00 bs := storeBytes_holds m (by rw [hlength]; decide)
  rw [hreplay]
  refine ⟨(hblock.storeBytes ?_ _).storeBytes ?_ _, (storeBytes_holds _ ?_).storeBytes ?_ _, storeBytes_holds _ ?_⟩
  · rw [hlength]; decide
  · rw [hlength]; decide
  · exact (by decide : addrControl + 1 ≤ Config.regCount)
  · exact (by decide : addrControl + 1 ≤ addrStatus)
  · exact (by decide : addrStatus + 1 ≤ Config.regCount)

/-- Clearing bit 7 and setting nothing clears bit 7. -/
theorem Holds.bit7_clear {m : Memory} {a : Nat} {v : Byte} (h : Holds m a [(v &&& ~~~0x80) ||| 0x00]) :
    ∃ c, m.lookup a = some c ∧ c.getLsbD 7 = false :=
  ⟨_, h 0 Nat.one_pos, getLsbD_clear_then_set v 0x80 0x00 (by decide)⟩

/-! ### Reading the block back -/

theorem txRead_holds {s : State} (hok : s.nextDraw.ok = true) {start : Nat} {bytes : List Byte}
    (h : Holds s.actedPeriph start bytes) : (txRead start bytes.length s).1 = .ok bytes := by
  have hrange : (List.range bytes.length).map (fun i => bytes.getD i 0) = bytes :=
    List.ext_getElem (by simp) fun i _ hi => by simp [hi]
  rw [txRead_returns hok (img := fun i => bytes.getD i 0) fun i hi => by simp [h i hi, hi], hrange]

/-- GET_DATETIME on SimPeripheral with the block of a range-valid DateTime in the registers. -/
theorem exec_getDatetime_of_holds {s : State} {dt : DateTime} (hdraw : s.nextDraw = simDraw true)
    (hvalid : rangeValid s.dowBase dt = true) (h : Holds s.periph 0x00 (blockOf dt)) :
    ∃ mid : State, exec .getDatetime s = .next ((mid.setRes dt.toWords).finish .ok) ∧ mid.res = s.res ∧ mid.periph = s.periph := by
  have hacted := actedPeriph_of_simDraw hdraw
  have hread : (txRead 0x00 7 s).1 = .ok (blockOf dt) := txRead_holds (congrArg Draw.ok hdraw) (hacted.symm ▸ h)
  refine ⟨(txRead 0x00 7 s).2, ?_, rfl, hacted⟩
  rw [exec, execGetDatetime, ← Prod.mk.eta (p := txRead 0x00 7 s), hread]
  exact congrArg _ (finishBlock_of_decodes (decodeBlock_blockOf hvalid) _)

theorem toWords_dateTimeOf (a0 a1 a2 a3 a4 a5 a6 : Word) :
    (dateTimeOf a0 a1 a2 a3 a4 a5 a6).toWords = [a0, a1, a2, a3, a4, a5, a6] := by
  simp [DateTime.toWords, dateTimeOf]

theorem resWritten_setRes_finish {s mid : State} (h : mid.res = s.res) (vals : List Word) (code : StatusCode) :
    ResWritten s ((mid.setRes vals).finish code) (vals.map some) := fun k => by
  have hk : mid.resAt k = s.resAt k := by rw [State.resAt, State.resAt, h]
  exact hk ▸ resWritten_setRes mid vals k

/-- Settles O36: five draws for the write, and a sixth for a read of the block written. -/
theorem setThenGetDatetime : Obligations.SetThenGetDatetime := by
  intro s a0 a1 a2 a3 a4 a5 a6 hargs hvalid hdraws
  have hrange := (rangeValid_iff_fields _ _).mpr hvalid
  obtain ⟨mid, control, status, hwrite, hmove⟩ := writeDateTime_whole
    (fun j hj => congrArg Draw.ok (hdraws j (by omega))) (dateTimeOf a0 a1 a2 a3 a4 a5 a6)
  have hset : exec .setDatetime s = .next (mid.finish .ok) := by
    rw [exec_setDatetime hargs hvalid, State.finishWriteDateTime, hwrite]
  have hperiph := hmove.replayed fun j hj => by
    rw [hdraws j (Nat.lt_succ_of_lt hj)]
    exact ⟨rfl, rfl⟩
  rw [encodeBlock_eq hrange] at hperiph
  obtain ⟨hblock, hcontrol, hstatus⟩ := replay_wholeWriteEvents s.periph s.pc (bs := blockOf _) rfl control status
  rw [← hperiph] at hblock hcontrol hstatus
  have hdraw : (mid.finish .ok).nextDraw = simDraw true :=
    (State.nextDraw_eq mid).trans ((hmove.drawAt 0).trans (hdraws 5 (by omega)))
  obtain ⟨fin, hget, hres, hfin⟩ := exec_getDatetime_of_holds hdraw (hmove.dowBase ▸ hrange) hblock
  have hrun : execAll [.setDatetime, .getDatetime] s =
      .next ((fin.setRes (dateTimeOf a0 a1 a2 a3 a4 a5 a6).toWords).finish .ok) := by
    simp only [execAll, hset, hget]
  refine ⟨_, hrun, rfl, ?_, ?_⟩
  · rw [← toWords_dateTimeOf]
    exact resWritten_setRes_finish (hres.trans hmove.res) _ .ok
  · rw [finish_periph, setRes_periph, hfin, finish_periph]
    exact ⟨hcontrol.bit7_clear, hstatus.bit7_clear⟩

end Sys2Proof.Machine
end

section
/-!
The fields of `fromEpoch` are in range (42_epoch.md R149, R150): the year found is the last to begin by the day, the month found
is the last to begin by the day of the year, and so the day lies before the end of both.
-/
namespace Sys2Proof.Machine

theorem dowOf_bounds (base : DowBase) (days : Nat) : base.toNat ≤ dowOf base days ∧ dowOf base days ≤ base.toNat + 6 := by
  have hw : (days + 6) % 7 < 7 := Nat.mod_lt _ (by decide)
  cases base with
  | sundayZero => exact ⟨Nat.zero_le _, Nat.le_of_lt_succ (by simpa [DowBase.toNat, dowOf] using hw)⟩
  | mondayOne =>
    simp only [DowBase.toNat, dowOf]
    split <;> omega

theorem yearOfDays_bounds (days : Nat) : 2000 ≤ yearOfDays days ∧ yearOfDays days ≤ 2099 :=
  ⟨Nat.le_add_right _ _, Nat.add_le_add_left (largestUpTo_le _ 99) 2000⟩

theorem monthOfDoy_bounds (year doy : Nat) : 1 ≤ monthOfDoy year doy ∧ monthOfDoy year doy ≤ 12 :=
  ⟨Nat.le_add_right _ _, Nat.add_le_add_left (largestUpTo_le _ 11) 1⟩

/-- The year found is the last to begin by that day, so the next one begins later (42_epoch.md R149). -/
theorem lt_daysBeforeYear_succ {days : Nat} (h : days < daysBeforeYear 2100) :
    days < daysBeforeYear (yearOfDays days + 1) := by
  rcases Nat.lt_or_ge (yearOfDays days) 2099 with hlt | hge
  · have hnext := largestUpTo_max (p := fun y => daysBeforeYear (2000 + y) ≤ days) (n := 99)
      (k := yearOfDays days - 2000 + 1) (by simp [yearOfDays]) (by omega)
    have hyear := (yearOfDays_bounds days).1
    rw [show 2000 + (yearOfDays days - 2000 + 1) = yearOfDays days + 1 by omega] at hnext
    simpa using hnext
  · rwa [show yearOfDays days = 2099 from Nat.le_antisymm (yearOfDays_bounds days).2 hge]

/-- A day of the year comes before the end of the month found for it (42_epoch.md R149). -/
theorem lt_monthEnd {year doy : Nat} (h : doy < 365 + if isLeap year then 1 else 0) :
    doy < daysBeforeMonth year (monthOfDoy year doy) + daysInMonth year (monthOfDoy year doy) := by
  obtain ⟨hge, hle⟩ := monthOfDoy_bounds year doy
  rcases hle.lt_or_eq with hlt | heq
  · have hnext := largestUpTo_max (p := fun j => daysBeforeMonth year (1 + j) ≤ doy) (n := 11) (k := monthOfDoy year doy)
      (by simp [monthOfDoy]) (by omega)
    rw [← daysBeforeMonth_succ hge (by omega), Nat.add_comm _ 1]
    simpa using hnext
  · rw [heq, daysBeforeMonth_december]
    exact h

/-- The last second of the domain falls on the last day of 2099 (42_epoch.md R152). -/
theorem epochDay_lt {t : Nat} (h : t ≤ Config.epochMax) : (t - Config.epoch2000) / 86400 < daysBeforeYear 2100 := by
  rw [show Config.epochMax = 4102444799 from rfl] at h
  rw [show Config.epoch2000 = 946684800 from rfl, show daysBeforeYear 2100 = 36525 from rfl]
  omega

/-- The day of the year that is found lies in that year (42_epoch.md R149). -/
theorem dayOfYear_lt {days : Nat} (h : days < daysBeforeYear 2100) :
    days - daysBeforeYear (yearOfDays days) < 365 + if isLeap (yearOfDays days) then 1 else 0 := by
  have hday := lt_daysBeforeYear_succ h
  rw [daysBeforeYear_succ (yearOfDays_bounds days).1] at hday
  omega

/-- The day of the month that is found lies in that month (42_epoch.md R149). -/
theorem dayOfMonth_le {year doy : Nat} (h : doy < 365 + if isLeap year then 1 else 0) :
    doy - daysBeforeMonth year (monthOfDoy year doy) + 1 ≤ 31 := by
  obtain ⟨hge, hle⟩ := monthOfDoy_bounds year doy
  have hmonth := (daysInMonth_le (y := year) hge hle).2
  have hend := lt_monthEnd h
  omega

/-- The DateTime of a second of the domain is range-valid under either convention (42_epoch.md R149, R150, R152). -/
theorem fromEpoch_inRange (base : DowBase) {t : Nat} (h : t ≤ Config.epochMax) : FieldsInRange base (fromEpoch base t) := by
  have hday := dayOfMonth_le (dayOfYear_lt (epochDay_lt h))
  obtain ⟨hdowGe, hdowLe⟩ := dowOf_bounds base ((t - Config.epoch2000) / 86400)
  obtain ⟨hyearGe, hyearLe⟩ := yearOfDays_bounds ((t - Config.epoch2000) / 86400)
  obtain ⟨hmonthGe, hmonthLe⟩ := monthOfDoy_bounds (fromEpoch base t).year
    ((t - Config.epoch2000) / 86400 - daysBeforeYear (fromEpoch base t).year)
  refine ⟨?_, ?_, ?_, hdowGe, hdowLe, Nat.succ_pos _, hday, hmonthGe, hmonthLe, hyearGe, hyearLe⟩ <;>
    simp only [fromEpoch] <;> omega

end Sys2Proof.Machine
end

section
/-!
No partially valid result (41_datetime.md R129): the reads and the decoders end as their own statements say, FROM_EPOCH's DateTime
is range-valid, and every field in range survives as a result word.
-/
namespace Sys2Proof.Machine

theorem pc_of_raised {s t : State} (h : Raised s t) : t.pc = s.pc := by
  obtain ⟨_, _, _, rfl⟩ := h
  rfl

/-- Every field of a range-valid DateTime fits its result word. -/
theorem dateTimeOf_toWords {base : DowBase} {dt : DateTime} (h : FieldsInRange base dt) :
    dateTimeOf (BitVec.ofNat 32 dt.second) (BitVec.ofNat 32 dt.minute) (BitVec.ofNat 32 dt.hour)
      (BitVec.ofNat 32 dt.dayOfWeek) (BitVec.ofNat 32 dt.dayOfMonth) (BitVec.ofNat 32 dt.month)
      (BitVec.ofNat 32 dt.year) = dt := by
  have hdow := dayOfWeek_le ((rangeValid_iff_fields base dt).mpr h)
  obtain ⟨hsec, hmin, hhour, -, -, -, hday, -, hmonth, -, hyear⟩ := h
  simp (disch := omega) only [dateTimeOf, BitVec.toNat_ofNat, Nat.mod_eq_of_lt]

/-- What R129 allows RES0 to RES6 and STATUS to hold after a command that produces a DateTime. -/
def DateTimeOutcome (s t : State) : Prop :=
  (t.status = 0x00 ∧ ∃ a0 a1 a2 a3 a4 a5 a6 : Word, FieldsInRange s.dowBase (dateTimeOf a0 a1 a2 a3 a4 a5 a6) ∧
    ResWritten s t ([a0, a1, a2, a3, a4, a5, a6].map some)) ∨
  (t.status = 0x02 ∧ ResWritten s t (List.replicate 7 (some 0))) ∨
  (t.status = 0x01 ∧ ResWritten s t (List.replicate 7 none))

/-- What R129 allows RES0 to RES2 and STATUS to hold after a command that produces a time of day. -/
def TimeOutcome (s t : State) : Prop :=
  (t.status = 0x00 ∧ ∃ a0 a1 a2 : Word, a0.toNat ≤ 59 ∧ a1.toNat ≤ 59 ∧ a2.toNat ≤ 23 ∧
    ResWritten s t ([a0, a1, a2].map some)) ∨
  (t.status = 0x02 ∧ ResWritten s t (List.replicate 3 (some 0))) ∨
  (t.status = 0x01 ∧ ResWritten s t (List.replicate 3 none))

theorem DateTimeOutcome.valid {s t : State} {dt : DateTime} (h : FieldsInRange s.dowBase dt) (hstatus : t.status = 0x00)
    (hres : ResWritten s t (dt.toWords.map some)) : DateTimeOutcome s t :=
  .inl ⟨hstatus, _, _, _, _, _, _, _, (dateTimeOf_toWords h).symm ▸ h, hres⟩

theorem TimeOutcome.valid {s t : State} {second minute hour : Nat} (h : second ≤ 59 ∧ minute ≤ 59 ∧ hour ≤ 23)
    (hstatus : t.status = 0x00) (hres : ResWritten s t (([second, minute, hour].map (BitVec.ofNat 32)).map some)) :
    TimeOutcome s t := by
  obtain ⟨hsec, hmin, hhour⟩ := h
  refine .inl ⟨hstatus, _, _, _, ?_, ?_, ?_, hres⟩ <;> rw [BitVec.toNat_ofNat] <;> omega

theorem dtDecode_outcome {s t : State} (h : exec .dtDecode s = .next t) : Raised s t ∨ DateTimeOutcome s t := by
  rcases withArgs7_next h with hraised | ⟨a0, a1, a2, a3, a4, a5, a6, hargs, hdomain⟩
  · exact .inl hraised
  refine (requireDomain_next hdomain).imp_right fun ⟨hbytes, _⟩ => ?_
  obtain ⟨t', hexec, hvalid, hinvalid⟩ := (decodeCommandResults s a0 a1 a2 a3 a4 a5 a6).1 hargs fun a ha =>
    (isByte_iff a).mp (List.all_eq_true.mp hbytes a ha)
  obtain rfl : t' = t := Host.Outcome.next.inj (hexec.symm.trans h)
  by_cases hrange : FieldsInRange s.dowBase
    (blockDateTime a0.toNat a1.toNat a2.toNat a3.toNat a4.toNat a5.toNat a6.toNat)
  · obtain ⟨hres, hstatus, -⟩ := hvalid hrange
    exact .valid hrange hstatus hres
  · obtain ⟨hres, hstatus, -⟩ := hinvalid hrange
    exact .inr (.inl ⟨hstatus, hres⟩)

theorem timeDecode_outcome {s t : State} (h : exec .timeDecode s = .next t) : Raised s t ∨ TimeOutcome s t := by
  rcases withArgs3_next h with hraised | ⟨a0, a1, a2, hargs, hdomain⟩
  · exact .inl hraised
  refine (requireDomain_next hdomain).imp_right fun ⟨hbytes, _⟩ => ?_
  obtain ⟨t', hexec, hvalid, hinvalid⟩ := (decodeCommandResults s a0 a1 a2 0 0 0 0).2 hargs fun a ha =>
    (isByte_iff a).mp (List.all_eq_true.mp hbytes a ha)
  obtain rfl : t' = t := Host.Outcome.next.inj (hexec.symm.trans h)
  by_cases hrange : maskedBcd 128 a0.toNat ≤ 59 ∧ maskedBcd 128 a1.toNat ≤ 59 ∧ maskedBcd 64 a2.toNat ≤ 23
  · obtain ⟨hres, hstatus, -⟩ := hvalid hrange
    exact .valid hrange hstatus hres
  · obtain ⟨hres, hstatus, -⟩ := hinvalid hrange
    exact .inr (.inl ⟨hstatus, hres⟩)

theorem getDatetime_outcome {s t : State} (h : exec .getDatetime s = .next t) : DateTimeOutcome s t := by
  obtain ⟨t', hexec, hresult⟩ := getDatetimeResult s
  obtain rfl : t' = t := Host.Outcome.next.inj (hexec.symm.trans h)
  rcases hresult with ⟨_, hres, hstatus, -⟩ |
    ⟨_, _, _, _, _, _, _, ⟨hrange, _, hres, hstatus, -⟩ | ⟨_, _, hres, hstatus, -⟩⟩
  · exact .inr (.inr ⟨hstatus, hres⟩)
  · exact .valid hrange hstatus hres
  · exact .inr (.inl ⟨hstatus, hres⟩)

theorem getTime_outcome {s t : State} (h : exec .getTime s = .next t) : TimeOutcome s t := by
  obtain ⟨t', hexec, hresult⟩ := getTimeResult s
  obtain rfl : t' = t := Host.Outcome.next.inj (hexec.symm.trans h)
  rcases hresult with ⟨_, hres, hstatus, -⟩ | ⟨_, _, _, ⟨hrange, _, hres, hstatus, -⟩ | ⟨_, _, hres, hstatus, -⟩⟩
  · exact .inr (.inr ⟨hstatus, hres⟩)
  · exact .valid hrange hstatus hres
  · exact .inr (.inl ⟨hstatus, hres⟩)

theorem fromEpoch_outcome {s t : State} (h : exec .fromEpoch s = .next t) : Raised s t ∨ DateTimeOutcome s t := by
  rcases withArg_next h with hraised | ⟨a, _, hdomain⟩
  · exact .inl hraised
  refine (requireDomain_next hdomain).imp_right fun ⟨hepoch, hnext⟩ => ?_
  obtain ⟨hres, hstatus, -⟩ := pureResult_finish s (fromEpoch s.dowBase a.toNat).toWords .ok
  cases hnext
  simp only [Bool.and_eq_true, decide_eq_true_eq] at hepoch
  exact .valid (fromEpoch_inRange s.dowBase hepoch.2) hstatus hres

/-- Settles O37: a command that advanced pc did not fault, and each of the five ends in one of the three outcomes. -/
theorem noPartiallyValidResult : Obligations.NoPartiallyValidResult := by
  intro i s t hexec hpc
  have hnotRaised : ¬ Raised s t := fun h => Nat.succ_ne_self s.pc (hpc.symm.trans (pc_of_raised h))
  refine ⟨?_, ?_⟩
  · rintro (rfl | rfl | rfl)
    · exact (dtDecode_outcome hexec).resolve_left hnotRaised
    · exact getDatetime_outcome hexec
    · exact (fromEpoch_outcome hexec).resolve_left hnotRaised
  · rintro (rfl | rfl)
    · exact (timeDecode_outcome hexec).resolve_left hnotRaised
    · exact getTime_outcome hexec

end Sys2Proof.Machine
end

section
/-!
The calendar tables (42_epoch.md R140 to R147) and the four commands over them (R153 to R156): each day count is the sum of the
lengths of the years or months before.
-/
namespace Sys2Proof.Machine

/-! ### The tables -/

/-- The lengths of a year's months, with `leapDay` days more in February (42_epoch.md R140, R146). -/
def monthLengths (leapDay : Nat) : List Nat := [31, 28 + leapDay, 31, 30, 31, 30, 31, 31, 30, 31, 30, 31]

/-- Counting every fourth year from 2000 and counting every multiple of 4 is the same (42_epoch.md R143). -/
theorem isLeap_iff {y : Nat} (h : 2000 ≤ y) : isLeap y = true ↔ y % 4 = 0 := by
  rw [isLeap, beq_iff_eq]
  omega

theorem isLeap_2000_add (n : Nat) : isLeap (2000 + n) = true ↔ n % 4 = 0 := by
  rw [isLeap_iff (Nat.le_add_right _ _)]
  omega

theorem monthLengths_getElem? (y : Nat) {m : Nat} (h1 : 1 ≤ m) (h12 : m ≤ 12) :
    (monthLengths (if isLeap y then 1 else 0))[m - 1]? = some (daysInMonth y m) := by
  unfold daysInMonth
  cases isLeap y <;> interval_cases m <;> rfl

theorem daysBeforeMonth_eq_sum (y : Nat) {m : Nat} (h1 : 1 ≤ m) (h12 : m ≤ 12) :
    daysBeforeMonth y m = ((monthLengths (if isLeap y then 1 else 0)).take (m - 1)).sum := by
  induction m, h1 using Nat.le_induction with
  | base => exact daysBeforeMonth_january y
  | succ m h1 ih =>
    obtain ⟨k, rfl⟩ := Nat.exists_eq_add_of_le' h1
    have hlength := monthLengths_getElem? y h1 (Nat.le_of_succ_le h12)
    rw [daysBeforeMonth_succ h1 (Nat.le_of_succ_le_succ h12), ih (Nat.le_of_succ_le h12)]
    rw [Nat.add_sub_cancel] at hlength ⊢
    simp [List.take_add_one, hlength]

theorem daysBeforeYear_eq_sum (n : Nat) :
    daysBeforeYear (2000 + n) = ((List.range n).map fun k => if k % 4 = 0 then 366 else 365).sum := by
  induction n with
  | zero => rfl
  | succ n ih =>
    rw [← Nat.add_assoc, daysBeforeYear_succ (Nat.le_add_right _ _), ih, List.range_succ, List.map_append, List.sum_append]
    simp only [isLeap_2000_add, List.map_cons, List.map_nil, List.sum_cons, List.sum_nil]
    split <;> rfl

theorem daysBeforeYear_mono {y z : Nat} (h : y ≤ z) : daysBeforeYear y ≤ daysBeforeYear z := by
  simp only [daysBeforeYear]
  omega

/-- A later month begins at or after the end of an earlier one. -/
theorem monthEnd_le (y : Nat) {m n : Nat} (h1 : 1 ≤ m) (hlt : m < n) (h12 : n ≤ 12) :
    daysBeforeMonth y m + daysInMonth y m ≤ daysBeforeMonth y n := by
  induction n, hlt using Nat.le_induction with
  | base => exact (daysBeforeMonth_succ h1 (by omega)).ge
  | succ n hn ih =>
    rw [daysBeforeMonth_succ (m := n) (by omega) (by omega)]
    exact Nat.le_add_right_of_le (ih (by omega))

theorem daysBeforeMonth_mono (y : Nat) {m n : Nat} (h1 : 1 ≤ m) (hle : m ≤ n) (h12 : n ≤ 12) :
    daysBeforeMonth y m ≤ daysBeforeMonth y n := by
  rcases hle.eq_or_lt with rfl | hlt
  · exact Nat.le_refl _
  · exact Nat.le_of_add_right_le (monthEnd_le y h1 hlt h12)

/-- A month of 31 days ends no later than its year. -/
theorem daysBeforeMonth_add_31_le (y : Nat) {m : Nat} (h1 : 1 ≤ m) (h12 : m ≤ 12) :
    daysBeforeMonth y m + 31 ≤ 365 + if isLeap y then 1 else 0 :=
  (Nat.add_le_add_right (daysBeforeMonth_mono y h1 h12 (Nat.le_refl 12)) 31).trans (daysBeforeMonth_december y).le

/-! ### The commands -/

section
variable {s : State} {y m : Word}

theorem exec_isLeap (h : ArgsAre s [y]) (hy : yearInRange y = true) :
    exec .isLeap s = .next ((s.setRes [if isLeap y.toNat then 1 else 0]).finish .ok) :=
  withArg_requireDomain h hy _

theorem exec_daysBeforeYear (h : ArgsAre s [y]) (hy : yearInRange y = true) :
    exec .daysBeforeYear s = .next ((s.setRes [BitVec.ofNat 32 (daysBeforeYear y.toNat)]).finish .ok) :=
  withArg_requireDomain h hy _

theorem withYearMonth_args (h : ArgsAre s [y, m]) (hy : yearInRange y = true) (hm : monthInRange m = true)
    (k : Nat → Nat → Out) : withYearMonth s k = k y.toNat m.toNat := by
  obtain ⟨hy0, hm1⟩ := argsAre_two.mp h
  rw [withYearMonth, withArg_some hy0, withArg_some hm1, requireDomain_true (by rw [hy, hm]; rfl)]

theorem exec_daysInMonth (h : ArgsAre s [y, m]) (hy : yearInRange y = true) (hm : monthInRange m = true) :
    exec .daysInMonth s = .next ((s.setRes [BitVec.ofNat 32 (daysInMonth y.toNat m.toNat)]).finish .ok) := by
  simp only [exec, execDaysInMonth, withYearMonth_args h hy hm]

theorem exec_daysBeforeMonth (h : ArgsAre s [y, m]) (hy : yearInRange y = true) (hm : monthInRange m = true) :
    exec .daysBeforeMonth s = .next ((s.setRes [BitVec.ofNat 32 (daysBeforeMonth y.toNat m.toNat)]).finish .ok) := by
  simp only [exec, execDaysBeforeMonth, withYearMonth_args h hy hm]

end

theorem toNat_ofNat_word {n : Nat} (h : n < 4294967296) : (BitVec.ofNat 32 n).toNat = n := by
  rw [BitVec.toNat_ofNat, Nat.mod_eq_of_lt h]

/-- Settles O42: each command finishes with its table's value, a sum of lengths, and none is too large for its result word. -/
theorem calendarCommandResults : Obligations.CalendarCommandResults := by
  intro s y m hy hge hle leapDay lengths
  have hyear := (yearInRange_iff y).mpr ⟨hge, hle⟩
  have hleap : (if isLeap y.toNat then 1 else 0) = leapDay := if_congr (isLeap_iff hge) rfl rfl
  refine ⟨⟨_, _, exec_isLeap hy hyear, pureResult_finish s _ .ok, ?_⟩,
    ⟨_, _, exec_daysBeforeYear hy hyear, pureResult_finish s _ .ok, ?_⟩, fun hargs h1 h12 => ?_⟩
  · rw [← hleap]
    split <;> rfl
  · have hbound := daysBeforeYear_mono hle
    rw [show daysBeforeYear 2099 = 36160 from rfl] at hbound
    rw [toNat_ofNat_word (by omega), ← daysBeforeYear_eq_sum, Nat.add_sub_cancel' hge]
  · have hmonth := (monthInRange_iff m).mpr ⟨h1, h12⟩
    have hlengths : monthLengths (if isLeap y.toNat then 1 else 0) = lengths := congrArg monthLengths hleap
    have hin := (daysInMonth_le (y := y.toNat) h1 h12).2
    have hbefore := daysBeforeMonth_add_31_le y.toNat h1 h12
    refine ⟨⟨_, _, exec_daysInMonth hargs hyear hmonth, pureResult_finish s _ .ok, ?_⟩,
      ⟨_, _, exec_daysBeforeMonth hargs hyear hmonth, pureResult_finish s _ .ok, ?_⟩⟩
    · rw [toNat_ofNat_word (by omega), ← hlengths, monthLengths_getElem? y.toNat h1 h12]
    · rw [toNat_ofNat_word (by split at hbefore <;> omega), ← hlengths, daysBeforeMonth_eq_sum y.toNat h1 h12]

end Sys2Proof.Machine
end

section
/-!
The epoch conversions (42_epoch.md R148 to R152, R157, R158). A DateTime is a day of the year, inside the year, and a second of
the day, inside the day; on calendar-valid DateTimes the day is also inside the month. The searches of `fromEpoch` find the year
and the month whose bounds hold the day, and later dates have larger day counts.
-/
namespace Sys2Proof.Machine

/-! ### The day of week -/

/-- Monday-based and Sunday-based weekdays number the same day, and name Sunday 7 and 0 (42_epoch.md R150). -/
theorem dowOf_sundayZero (n : Nat) : dowOf .sundayZero n = dowOf .mondayOne n % 7 := by
  simp only [dowOf]
  split <;> omega

theorem dowOf_mondayOne_succ (n : Nat) : dowOf .mondayOne (n + 1) = dowOf .mondayOne n % 7 + 1 := by
  rw [← dowOf_sundayZero]
  simp only [dowOf]
  split <;> omega

/-- Settles O48: both conventions number the day by the same remainder modulo 7. -/
theorem dayOfWeekOfDayCount : Obligations.DayOfWeekOfDayCount :=
  ⟨rfl, dowOf_mondayOne_succ, dowOf_sundayZero⟩

/-! ### The parts of a day count -/

/-- The day of the year of a DateTime, from 0 (42_epoch.md R148). -/
def dayOfYear (dt : DateTime) : Nat := daysBeforeMonth dt.year dt.month + (dt.dayOfMonth - 1)

/-- The second of the day of a DateTime, from 0 (42_epoch.md R148). -/
def secondOfDay (dt : DateTime) : Nat := dt.hour * 3600 + dt.minute * 60 + dt.second

theorem dayCount_eq (dt : DateTime) : dayCount dt = daysBeforeYear dt.year + dayOfYear dt := Nat.add_assoc _ _ _

theorem toEpoch_eq (dt : DateTime) : toEpoch dt = dayCount dt * 86400 + secondOfDay dt + 946684800 := by
  simp only [toEpoch, secondOfDay, Nat.add_assoc]
  rfl

theorem calendarValid_iff (base : DowBase) (dt : DateTime) :
    calendarValid base dt = true ↔ FieldsInRange base dt ∧ dt.dayOfMonth ≤ daysInMonth dt.year dt.month := by
  rw [calendarValid, Bool.and_eq_true, rangeValid_iff_fields, decide_eq_true_eq]

section
variable {base : DowBase} {dt : DateTime}

theorem secondOfDay_lt (h : FieldsInRange base dt) : secondOfDay dt < 86400 := by
  obtain ⟨hsec, hmin, hhour, -⟩ := h
  rw [secondOfDay]
  omega

/-- Day 31 of any month lies in the year, so a range-valid date does, calendar-valid or not (42_epoch.md R152). -/
theorem dayCount_lt_yearEnd (h : FieldsInRange base dt) : dayCount dt < daysBeforeYear (dt.year + 1) := by
  obtain ⟨-, -, -, -, -, hday1, hday31, hmonth1, hmonth12, hyear, -⟩ := h
  have hmonth := daysBeforeMonth_add_31_le dt.year hmonth1 hmonth12
  rw [dayCount_eq, dayOfYear, daysBeforeYear_succ hyear]
  omega

theorem dayOfYear_lt_monthEnd (h : calendarValid base dt = true) :
    dayOfYear dt < daysBeforeMonth dt.year dt.month + daysInMonth dt.year dt.month := by
  obtain ⟨⟨-, -, -, -, -, hday1, -⟩, hlength⟩ := (calendarValid_iff base dt).mp h
  rw [dayOfYear]
  omega

/-- toEpoch of every range-valid DateTime lies in EPOCH_MIN..EPOCH_MAX (42_epoch.md R152). -/
theorem toEpoch_bounds (h : FieldsInRange base dt) : 946684800 ≤ toEpoch dt ∧ toEpoch dt ≤ 4102444799 := by
  have hsecond := secondOfDay_lt h
  have hday := dayCount_lt_yearEnd h
  obtain ⟨-, -, -, -, -, -, -, -, -, -, hyear⟩ := h
  have hend : daysBeforeYear (dt.year + 1) ≤ 36525 := daysBeforeYear_mono (Nat.succ_le_succ hyear)
  rw [toEpoch_eq]
  omega

end

/-! ### What the searches find -/

theorem daysBeforeYear_yearOfDays_le (days : Nat) : daysBeforeYear (yearOfDays days) ≤ days :=
  of_decide_eq_true (largestUpTo_holds (p := fun y => daysBeforeYear (2000 + y) ≤ days) (decide_eq_true (Nat.zero_le _)) 99)

theorem daysBeforeMonth_monthOfDoy_le (year doy : Nat) : daysBeforeMonth year (monthOfDoy year doy) ≤ doy :=
  of_decide_eq_true (largestUpTo_holds (p := fun j => daysBeforeMonth year (1 + j) ≤ doy)
    (decide_eq_true (by rw [daysBeforeMonth_january]; exact Nat.zero_le _)) 11)

/-- The year that holds a day is the one found: an earlier one ends before the day, and a later one begins after it. -/
theorem yearOfDays_eq {days y : Nat} (hle : y ≤ 2099) (hbegin : daysBeforeYear y ≤ days)
    (hend : days < daysBeforeYear (y + 1)) : yearOfDays days = y := by
  have hfound := daysBeforeYear_yearOfDays_le days
  have hnext := lt_daysBeforeYear_succ (hend.trans_le (daysBeforeYear_mono (Nat.succ_le_succ hle)))
  rcases Nat.lt_trichotomy (yearOfDays days) y with hlt | heq | hgt
  · exact absurd ((daysBeforeYear_mono hlt).trans hbegin) hnext.not_ge
  · exact heq
  · exact absurd ((daysBeforeYear_mono hgt).trans hfound) hend.not_ge

/-- The month that holds a day of the year is the one found, for the same reason. -/
theorem monthOfDoy_eq {year doy m : Nat} (h1 : 1 ≤ m) (h12 : m ≤ 12) (hbegin : daysBeforeMonth year m ≤ doy)
    (hend : doy < daysBeforeMonth year m + daysInMonth year m) : monthOfDoy year doy = m := by
  obtain ⟨hfound1, hfound12⟩ := monthOfDoy_bounds year doy
  have hfound := daysBeforeMonth_monthOfDoy_le year doy
  have hlength := (daysInMonth_le (y := year) h1 h12).2
  have hnext := lt_monthEnd (hend.trans_le ((Nat.add_le_add_left hlength _).trans (daysBeforeMonth_add_31_le year h1 h12)))
  rcases Nat.lt_trichotomy (monthOfDoy year doy) m with hlt | heq | hgt
  · exact absurd ((monthEnd_le year hfound1 hlt h12).trans hbegin) hnext.not_ge
  · exact heq
  · exact absurd ((monthEnd_le year h1 hgt hfound12).trans hfound) hend.not_ge

/-! ### The two conversions undo each other -/

section
variable (base : DowBase) {t : Nat}

/-- What the two searches take off the day count is what dayCount adds (42_epoch.md R148, R149). -/
theorem dayCount_fromEpoch : dayCount (fromEpoch base t) = (t - Config.epoch2000) / 86400 := by
  have hyear := daysBeforeYear_yearOfDays_le ((t - Config.epoch2000) / 86400)
  have hmonth := daysBeforeMonth_monthOfDoy_le (fromEpoch base t).year
    ((t - Config.epoch2000) / 86400 - daysBeforeYear (fromEpoch base t).year)
  simp only [dayCount_eq, dayOfYear, fromEpoch, Nat.add_sub_cancel] at hmonth ⊢
  rw [Nat.add_sub_cancel' hmonth, Nat.add_sub_cancel' hyear]

theorem secondOfDay_fromEpoch : secondOfDay (fromEpoch base t) = (t - Config.epoch2000) % 86400 := by
  simp only [secondOfDay, fromEpoch]
  omega

theorem toEpoch_fromEpoch (h : 946684800 ≤ t) : toEpoch (fromEpoch base t) = t := by
  rw [toEpoch_eq, dayCount_fromEpoch, secondOfDay_fromEpoch, Nat.div_add_mod']
  exact Nat.sub_add_cancel h

theorem fromEpoch_calendarValid (h : t ≤ Config.epochMax) : calendarValid base (fromEpoch base t) = true := by
  have hend := lt_monthEnd (dayOfYear_lt (epochDay_lt h))
  have hmonth := daysBeforeMonth_monthOfDoy_le (fromEpoch base t).year
    ((t - Config.epoch2000) / 86400 - daysBeforeYear (fromEpoch base t).year)
  refine (calendarValid_iff _ _).mpr ⟨fromEpoch_inRange base h, ?_⟩
  simp only [fromEpoch] at hmonth ⊢
  omega

end

section
variable {base : DowBase} {dt : DateTime}

theorem yearOfDays_dayCount (h : FieldsInRange base dt) : yearOfDays (dayCount dt) = dt.year := by
  have hend := dayCount_lt_yearEnd h
  obtain ⟨-, -, -, -, -, -, -, -, -, -, hyear⟩ := h
  exact yearOfDays_eq hyear (dayCount_eq dt ▸ Nat.le_add_right _ _) hend

theorem monthOfDoy_dayOfYear (h : calendarValid base dt = true) : monthOfDoy dt.year (dayOfYear dt) = dt.month := by
  have hend := dayOfYear_lt_monthEnd h
  obtain ⟨⟨-, -, -, -, -, -, -, hmonth1, hmonth12, -⟩, -⟩ := (calendarValid_iff base dt).mp h
  exact monthOfDoy_eq hmonth1 hmonth12 (Nat.le_add_right _ _) hend

/-- The division of `fromEpoch` parts the second of the day from the day count (42_epoch.md R149). -/
theorem epochParts_toEpoch (h : FieldsInRange base dt) :
    (toEpoch dt - Config.epoch2000) / 86400 = dayCount dt ∧ (toEpoch dt - Config.epoch2000) % 86400 = secondOfDay dt := by
  have hsecond := secondOfDay_lt h
  rw [toEpoch_eq, show Config.epoch2000 = 946684800 from rfl]
  omega

/-- The divisions of `fromEpoch` part the second of the day into the time of day (42_epoch.md R149). -/
theorem timeParts_secondOfDay (h : FieldsInRange base dt) :
    secondOfDay dt % 60 = dt.second ∧ secondOfDay dt % 3600 / 60 = dt.minute ∧ secondOfDay dt / 3600 = dt.hour := by
  obtain ⟨hsec, hmin, -⟩ := h
  rw [secondOfDay]
  omega

theorem fromEpoch_toEpoch (h : calendarValid base dt = true) :
    fromEpoch base (toEpoch dt) = { dt with dayOfWeek := dowOf base (dayCount dt) } := by
  obtain ⟨hrange, -⟩ := (calendarValid_iff base dt).mp h
  obtain ⟨hday, hsecond⟩ := epochParts_toEpoch hrange
  have hdoy : dayCount dt - daysBeforeYear dt.year = dayOfYear dt := by rw [dayCount_eq, Nat.add_sub_cancel_left]
  have hdom : dayOfYear dt - daysBeforeMonth dt.year dt.month = dt.dayOfMonth - 1 := Nat.add_sub_cancel_left _ _
  obtain ⟨hsec, hmin, hhour⟩ := timeParts_secondOfDay hrange
  have hyear := yearOfDays_dayCount hrange
  obtain ⟨-, -, -, -, -, hday1, -⟩ := hrange
  simp only [fromEpoch, hday, hsecond, hsec, hmin, hhour, hyear, hdoy, monthOfDoy_dayOfYear h, hdom, Nat.sub_add_cancel hday1]

end

/-- Settles O45: `fromEpoch` keeps the day count and the second of the day. -/
theorem toEpochOfFromEpoch : Obligations.ToEpochOfFromEpoch := fun base _ hge _ => toEpoch_fromEpoch base hge

/-- Settles O46: the searches find the year and the month that hold the day. -/
theorem fromEpochOfToEpoch : Obligations.FromEpochOfToEpoch := fun _ _ => fromEpoch_toEpoch

/-! ### The order of DateTimes -/

section
variable {base : DowBase} {d e : DateTime}

theorem dayCount_lt_of_year_lt (hd : FieldsInRange base d) (h : d.year < e.year) : dayCount d < dayCount e := by
  rw [dayCount_eq e]
  exact (dayCount_lt_yearEnd hd).trans_le (Nat.le_add_right_of_le (daysBeforeYear_mono h))

/-- A calendar-valid date lies before the next month begins; a range-valid one need not (42_epoch.md R151). -/
theorem dayCount_lt_of_month_lt (hd : calendarValid base d = true) (he : FieldsInRange base e) (hyear : d.year = e.year)
    (h : d.month < e.month) : dayCount d < dayCount e := by
  have hend := dayOfYear_lt_monthEnd hd
  obtain ⟨⟨-, -, -, -, -, -, -, hmonth1, -⟩, -⟩ := (calendarValid_iff base d).mp hd
  obtain ⟨-, -, -, -, -, -, -, -, hmonth12, -⟩ := he
  rw [dayCount_eq d, dayCount_eq e, ← hyear]
  refine Nat.add_lt_add_left (hend.trans_le ?_) _
  rw [dayOfYear, ← hyear]
  exact Nat.le_add_right_of_le (monthEnd_le d.year hmonth1 h hmonth12)

theorem dayCount_lt_of_day_lt (hd : FieldsInRange base d) (hyear : d.year = e.year) (hmonth : d.month = e.month)
    (h : d.dayOfMonth < e.dayOfMonth) : dayCount d < dayCount e := by
  obtain ⟨-, -, -, -, -, hday1, -⟩ := hd
  rw [dayCount, dayCount, hyear, hmonth]
  omega

theorem dayCount_congr (hyear : d.year = e.year) (hmonth : d.month = e.month) (hday : d.dayOfMonth = e.dayOfMonth) :
    dayCount d = dayCount e := by
  rw [dayCount, dayCount, hyear, hmonth, hday]

theorem toEpoch_lt_of_dayCount_lt (hd : FieldsInRange base d) (h : dayCount d < dayCount e) : toEpoch d < toEpoch e := by
  have hsecond := secondOfDay_lt hd
  rw [toEpoch_eq, toEpoch_eq]
  omega

theorem toEpoch_lt_of_secondOfDay_lt (hday : dayCount d = dayCount e) (h : secondOfDay d < secondOfDay e) :
    toEpoch d < toEpoch e := by
  rw [toEpoch_eq, toEpoch_eq, hday]
  omega

/-- An earlier time of day is an earlier second of the day. -/
theorem secondOfDay_lt_of_time_lt (hd : FieldsInRange base d)
    (h : d.hour < e.hour ∨ d.hour = e.hour ∧ (d.minute < e.minute ∨ d.minute = e.minute ∧ d.second < e.second)) :
    secondOfDay d < secondOfDay e := by
  obtain ⟨hsec, hmin, -⟩ := hd
  rw [secondOfDay, secondOfDay]
  omega

end

/-- Settles O47: the first field to differ in a date makes the day count larger, and otherwise the time of day decides. -/
theorem toEpochStrictlyMonotonic : Obligations.ToEpochStrictlyMonotonic := by
  intro base d e hd he hlex
  obtain ⟨hdrange, -⟩ := (calendarValid_iff base d).mp hd
  obtain ⟨herange, -⟩ := (calendarValid_iff base e).mp he
  simp only [chronoKey, List.cons_lex_cons_iff, List.not_lex_nil, and_false, or_false] at hlex
  rcases hlex with hyear | ⟨hyear, hmonth | ⟨hmonth, hday | ⟨hday, htime⟩⟩⟩
  · exact toEpoch_lt_of_dayCount_lt hdrange (dayCount_lt_of_year_lt hdrange hyear)
  · exact toEpoch_lt_of_dayCount_lt hdrange (dayCount_lt_of_month_lt hd herange hyear hmonth)
  · exact toEpoch_lt_of_dayCount_lt hdrange (dayCount_lt_of_day_lt hdrange hyear hmonth hday)
  · exact toEpoch_lt_of_secondOfDay_lt (dayCount_congr hyear hmonth hday) (secondOfDay_lt_of_time_lt hdrange htime)

/-! ### The commands -/

/-- Settles O43: the value stays in the bounds of R152, so the result word holds it. -/
theorem toEpochResult : Obligations.ToEpochResult := by
  intro s a0 a1 a2 a3 a4 a5 a6 hargs hrange
  have hexec : exec .toEpoch s =
      .next ((s.setRes [BitVec.ofNat 32 (toEpoch (dateTimeOf a0 a1 a2 a3 a4 a5 a6))]).finish .ok) := by
    simp only [exec, execToEpoch, withValidDateTime_args hargs hrange]
  have hbounds := toEpoch_bounds hrange
  have hvalue := toNat_ofNat_word (hbounds.2.trans_lt (by decide : 4102444799 < 4294967296))
  exact ⟨_, _, hexec, pureResult_finish s _ .ok, hvalue, hvalue.symm ▸ hbounds⟩

/-- Settles O44: the DateTime is `fromEpoch`'s, and its fields are fixed by the laws above. -/
theorem fromEpochResult : Obligations.FromEpochResult := by
  intro s a hargs hge hle
  have hexec : exec .fromEpoch s = .next ((s.setRes (fromEpoch s.dowBase a.toNat).toWords).finish .ok) :=
    withArg_requireDomain hargs (c := fun t => Config.epochMin ≤ t.toNat && t.toNat ≤ Config.epochMax)
      (by simpa using ⟨hge, hle⟩) _
  exact ⟨_, _, hexec, pureResult_finish s _ .ok, fromEpoch_calendarValid s.dowBase hle, toEpoch_fromEpoch s.dowBase hge, rfl⟩

end Sys2Proof.Machine
end

section
/-!
The alarm codecs (43_alarm.md R175 to R178): with its operands in their domain an alarm's register bytes are its fields' BCD bytes
plus the mode bits above them, and the two encoding commands give those bytes.
-/
namespace Sys2Proof.Machine

/-! ### The register bytes in arithmetic -/

/-- The minutes, hours and day/date bytes of either alarm (43_alarm.md R175, R176). -/
def alarm2Bytes (m mi h dd : Nat) : List Byte :=
  [bcdByte mi + BitVec.ofNat 8 (128 * (m / 2 % 2)), bcdByte h + BitVec.ofNat 8 (128 * (m / 4 % 2)),
    bcdByte dd + BitVec.ofNat 8 (128 * (m / 8 % 2) + 64 * (m / 16 % 2))]

/-- Alarm 1 has a seconds byte before the others (43_alarm.md R175). -/
def alarm1Bytes (m sec mi h dd : Nat) : List Byte :=
  (bcdByte sec + BitVec.ofNat 8 (128 * (m % 2))) :: alarm2Bytes m mi h dd

@[simp] theorem alarm2Bytes_length (m mi h dd : Nat) : (alarm2Bytes m mi h dd).length = 3 := rfl
@[simp] theorem alarm1Bytes_length (m sec mi h dd : Nat) : (alarm1Bytes m sec mi h dd).length = 4 := rfl

/-- Under either convention, a day of week and a date in domain are at most 31 (43_alarm.md R174). -/
theorem AlarmFieldsInRange.dayDate_le {base : DowBase} {dayMode : Prop} {mi h dd : Nat}
    (hfields : AlarmFieldsInRange base dayMode mi h dd) : dd ≤ 31 := by
  obtain ⟨-, -, ⟨-, -, hday⟩ | ⟨-, -, hdate⟩⟩ := hfields
  · cases base <;> simp only [DowBase.toNat] at hday <;> omega
  · exact hdate

section
variable {base : DowBase} {dayMode : Prop} {sec mi h dd : Nat}

theorem alarm2Encode_eq (hfields : AlarmFieldsInRange base dayMode mi h dd) (m : Word) :
    alarm2Encode m mi h dd = alarm2Bytes m.toNat mi h dd := by
  have hdd := hfields.dayDate_le
  obtain ⟨hmi, hh, -⟩ := hfields
  rw [alarm2Encode, bcdEnc_modeBit7 hmi m 1, bcdEnc_modeBit7 (by omega) m 2, dayDateByte_eq hdd]
  rfl

theorem alarm1Encode_eq (hsec : sec ≤ 59) (hfields : AlarmFieldsInRange base dayMode mi h dd) (m : Word) :
    alarm1Encode m sec mi h dd = alarm1Bytes m.toNat sec mi h dd := by
  have hfirst : bcdEnc sec ||| modeBit m 0 <<< 7 = bcdByte sec + BitVec.ofNat 8 (128 * (m.toNat % 2)) := by
    simpa using bcdEnc_modeBit7 hsec m 0
  rw [alarm1Bytes, ← hfirst, ← alarm2Encode_eq hfields m]
  rfl

end

/-- Mode bits that fit above a field's BCD byte add to its value: the OR of R175 meets no field bit. -/
theorem zext32_bcdByte_add_toNat {d n : Nat} (hd : d ≤ 99) (hfits : 16 * (d / 10) + d % 10 + n < 256) :
    (zext32 (bcdByte d + BitVec.ofNat 8 n)).toNat = (bcdByte d).toNat + n := by
  rw [zext32_toNat, BitVec.toNat_add, BitVec.toNat_ofNat, bcdByte_toNat hd]
  omega

/-! ### The operands -/

section
variable {s : State} {m sec mi h dd : Word}

/-- With its operands written and in their domain, a command of Alarm 2 goes on with their register bytes. -/
theorem withAlarm2_args (hargs : ArgsAre s [m, mi, h, dd]) (hmode : m.toNat ∈ [0x0E, 0x0C, 0x08, 0x00, 0x10])
    (hfields : AlarmFieldsInRange s.dowBase (m.toNat = 0x10) mi.toNat h.toNat dd.toNat) (k : List Byte → Out) :
    withAlarm2 s k = k (alarm2Bytes m.toNat mi.toNat h.toNat dd.toNat) := by
  have h3 : s.argAt 3 = some dd := hargs 3 (by simp)
  have hdomain : (isAlarm2Mode m && alarmFieldsInRange s.dowBase m mi.toNat h.toNat dd.toNat) = true :=
    Bool.and_eq_true_iff.mpr ⟨(isAlarm2Mode_iff m).mpr hmode,
      (alarmFieldsInRange_iff _ (alarmMode_dayBit (List.mem_cons_of_mem _ hmode)) _ _ _).mpr hfields⟩
  rw [withAlarm2, withArgs3_args (argsAre_prefix (ws := [dd]) hargs), withArg_some h3, requireDomain_true hdomain,
    alarm2Encode_eq hfields]

/-- With its operands written and in their domain, a command of Alarm 1 goes on with their register bytes. -/
theorem withAlarm1_args (hargs : ArgsAre s [m, sec, mi, h, dd])
    (hmode : m.toNat ∈ [0x0F, 0x0E, 0x0C, 0x08, 0x00, 0x10]) (hsec : sec.toNat ≤ 59)
    (hfields : AlarmFieldsInRange s.dowBase (m.toNat = 0x10) mi.toNat h.toNat dd.toNat) (k : List Byte → Out) :
    withAlarm1 s k = k (alarm1Bytes m.toNat sec.toNat mi.toNat h.toNat dd.toNat) := by
  have h3 : s.argAt 3 = some h := hargs 3 (by simp)
  have h4 : s.argAt 4 = some dd := hargs 4 (by simp)
  have hdomain : (isAlarm1Mode m && (sec.toNat ≤ 59 && alarmFieldsInRange s.dowBase m mi.toNat h.toNat dd.toNat)) = true :=
    Bool.and_eq_true_iff.mpr ⟨(isAlarm1Mode_iff m).mpr hmode, Bool.and_eq_true_iff.mpr ⟨decide_eq_true hsec,
      (alarmFieldsInRange_iff _ (alarmMode_dayBit hmode) _ _ _).mpr hfields⟩⟩
  rw [withAlarm1, withArgs3_args (argsAre_prefix (ws := [h, dd]) hargs), withArg_some h3, withArg_some h4,
    requireDomain_true hdomain, alarm1Encode_eq hsec hfields]

end

/-! ### The encoding commands -/

/-- Settles O49: the command gives the register bytes, and each is the sum its mode bits and its field leave room for. -/
theorem alarm1EncodeResult : Obligations.Alarm1EncodeResult := by
  intro s m sec mi h dd hargs hmode hsec hfields
  have hdd := hfields.dayDate_le
  have hexec := withAlarm1_args hargs hmode hsec hfields fun bs => .next ((s.setRes (bs.map zext32)).finish .ok)
  obtain ⟨hmi, hh, -⟩ := hfields
  refine ⟨_, _, _, _, _, hexec, pureResult_finish s ((alarm1Bytes _ _ _ _ _).map zext32) .ok, ?_, ?_, ?_, ?_⟩
  · exact zext32_bcdByte_add_toNat (by omega) (by omega)
  · exact zext32_bcdByte_add_toNat (by omega) (by omega)
  · exact zext32_bcdByte_add_toNat (by omega) (by omega)
  · rw [Nat.add_assoc]
    exact zext32_bcdByte_add_toNat (by omega) (by omega)

/-- Settles O50: the command gives the register bytes, and each is the sum its mode bits and its field leave room for. -/
theorem alarm2EncodeResult : Obligations.Alarm2EncodeResult := by
  intro s m mi h dd hargs hmode hfields
  have hdd := hfields.dayDate_le
  have hexec := withAlarm2_args hargs hmode hfields fun bs => .next ((s.setRes (bs.map zext32)).finish .ok)
  obtain ⟨hmi, hh, -⟩ := hfields
  refine ⟨_, _, _, _, hexec, pureResult_finish s ((alarm2Bytes _ _ _ _).map zext32) .ok, ?_, ?_, ?_⟩
  · exact zext32_bcdByte_add_toNat (by omega) (by omega)
  · exact zext32_bcdByte_add_toNat (by omega) (by omega)
  · rw [Nat.add_assoc]
    exact zext32_bcdByte_add_toNat (by omega) (by omega)

end Sys2Proof.Machine
end

section
/-!
The commands of one transaction or one RMW (43_alarm.md R183, R184, 44_control.md R201 to R204, R207, 45_temp_aging.md R227): how
each ends, said once for a one-byte read and once for an RMW.
-/
namespace Sys2Proof.Machine

/-! ### Commands of one one-byte read -/

/-- A one-byte read whose byte gives RES0 by `value`, ⊥ after a failed read. -/
def readByteEffect (addr : Nat) (value : Byte → Word) (s : State) : State :=
  match txRead addr 1 s with
  | (.fail, s1) => (s1.clearRes 1).finish .transportFail
  | (.ok bytes, s1) => (s1.setRes [value (bytes.getD 0 0)]).finish .ok

theorem readByteEffect_cases {addr : Nat} (haddr : addr < 0x13) (value : Byte → Word) (s : State) :
    SequencedResult s (readByteEffect addr value s) [.rd s.pc addr 1 .fail] [none] 0x01 ∨
    ∃ b : Byte, SequencedResult s (readByteEffect addr value s) [.rd s.pc addr 1 (.ok [b])] [some (value b)] 0x00 := by
  unfold readByteEffect
  rcases txRead_cases addr 1 s (by omega) (by omega) with ⟨s1, hread, hmove⟩ | ⟨bytes, s1, hlength, hread, hmove⟩
  · rw [hread]
    exact .inl (hmove.sequenced_clearRes 1 .transportFail)
  · obtain ⟨b, rfl⟩ := List.length_eq_one_iff.mp hlength
    rw [hread]
    exact .inr ⟨b, hmove.sequenced_setRes [value b] .ok⟩

/-- A command that reads a channel goes on with its number (43_alarm.md R179). -/
theorem withChannel_args {s : State} {c : Word} (hargs : ArgsAre s [c]) (hchannel : c.toNat = 1 ∨ c.toNat = 2)
    (k : Nat → Out) : withChannel s k = k c.toNat :=
  withArg_requireDomain hargs ((isChannel_iff c).mpr hchannel) fun c => k c.toNat

theorem exec_getAlarmFlag {s : State} {c : Word} (hargs : ArgsAre s [c]) (hchannel : c.toNat = 1 ∨ c.toNat = 2) :
    exec .getAlarmFlag s = .next (readByteEffect addrStatus (fun b => zext32 ((b >>> (c.toNat - 1)) &&& 1)) s) := by
  simp only [exec, execGetAlarmFlag, withChannel_args hargs hchannel]
  rfl

theorem exec_getOsf (s : State) : exec .getOsf s = .next (readByteEffect addrStatus (fun b => zext32 (b >>> 7)) s) := rfl

theorem exec_getAging (s : State) : exec .getAging s = .next (readByteEffect 0x10 (fun b => u32 (agingDec b)) s) := rfl

theorem zext32_flagBit (b : Byte) {c : Nat} (hc : c = 1 ∨ c = 2) :
    zext32 ((b >>> (c - 1)) &&& 1) = if b.getLsbD (c - 1) then 1 else 0 := by
  obtain rfl | rfl := hc <;> revert b <;> decide

theorem zext32_bit7 (b : Byte) : zext32 (b >>> 7) = if b.getLsbD 7 then 1 else 0 := by
  revert b
  decide

/-- Settles O53: each command is the one read, with the value its rule gives for the byte. -/
theorem singleByteReadResults : Obligations.SingleByteReadResults := by
  intro s
  refine ⟨fun c hargs hchannel => ⟨_, exec_getAlarmFlag hargs hchannel, ?_⟩, ⟨_, exec_getOsf s, ?_⟩, ⟨_, exec_getAging s, ?_⟩⟩
  · simp only [zext32_flagBit _ hchannel]
    exact readByteEffect_cases (by decide) _ s
  · simp only [zext32_bit7]
    exact readByteEffect_cases (by decide) _ s
  · simp only [u32_agingDec]
    exact readByteEffect_cases (by decide) _ s

/-! ### Commands of one RMW -/

/-- An RMW ends with the events of its rule (20_memory.md R58). -/
theorem rmw_ends {addr : Nat} (haddr : addr < 0x13) (clr set : Byte) (s : State) :
    ∃ r mid ev, rmw addr clr set s = (r, mid) ∧ PortMove s mid ev ∧ IsRmw s.pc addr clr set ev r := by
  obtain ⟨ev, hmove, hrmw⟩ := rmw_cases addr clr set s haddr
  exact ⟨_, _, ev, rfl, hmove, hrmw⟩

/-- A command that ends with the result of its last write reports OK or that step's code (60_exceptions.md R270). -/
theorem PortMove.sequenced_finishWr {s mid : State} {ev : List Event} (h : PortMove s mid ev) (failCode : StatusCode)
    (r : WrResult) :
    SequencedResult s (finishWr failCode (r, mid)) ev [] (if r = .ok then 0x00 else failCode.toByte) := by
  cases r with
  | ok => exact h.sequenced_finish .ok
  | fail => exact h.sequenced_finish failCode

theorem rmwCommand_result {i : Instr} {s : State} {addr : Nat} {clr set : Byte}
    (hexec : exec i s = .next (finishWr .transportFail (rmw addr clr set s))) (haddr : addr < 0x13) :
    ∃ t ev r, exec i s = .next t ∧ SequencedResult s t ev [] (if r = .ok then 0x00 else 0x01) ∧
      IsRmw s.pc addr clr set ev r := by
  obtain ⟨r, mid, ev, hpair, hmove, hrmw⟩ := rmw_ends haddr clr set s
  rw [hpair] at hexec
  exact ⟨_, ev, r, hexec, hmove.sequenced_finishWr .transportFail r, hrmw⟩

section
variable {s : State} {a : Word} (hargs : ArgsAre s [a])
include hargs

theorem exec_clearAlarmFlag (hchannel : a.toNat = 1 ∨ a.toNat = 2) :
    exec .clearAlarmFlag s = .next (finishWr .transportFail (rmw addrStatus (chbit a.toNat) 0x00 s)) := by
  simp only [exec, execClearAlarmFlag, withChannel_args hargs hchannel]

theorem exec_setOscEnable (hbool : a.toNat ≤ 1) :
    exec .setOscEnable s = .next (finishWr .transportFail
      (if a = 1 then rmw addrControl bitEOSC 0x00 s else rmw addrControl 0x00 bitEOSC s)) :=
  withArg_requireDomain hargs ((isBoolean_iff a).mpr hbool) _

theorem exec_setSquareWave (hle : a.toNat ≤ 4) :
    exec .setSquareWave s = .next (finishWr .transportFail
      (if a.toNat ≤ 3 then rmw addrControl (bitsRS ||| bitINTCN) (toByte a <<< 3) s else rmw addrControl 0x00 bitINTCN s)) :=
  withArg_requireDomain hargs (c := fun q => q.toNat ≤ 4) (decide_eq_true hle) _

theorem exec_set32khz (hbool : a.toNat ≤ 1) :
    exec .set32khz s = .next (finishWr .transportFail
      (if a = 1 then rmw addrStatus 0x00 bitEN32kHz s else rmw addrStatus bitEN32kHz 0x00 s)) :=
  withArg_requireDomain hargs ((isBoolean_iff a).mpr hbool) _

end

/-- Settles O54: with the operand's value put in, each command is one RMW of its rule's bits. -/
theorem singleRmwCommandResults : Obligations.SingleRmwCommandResults := by
  intro s a hargs one
  refine ⟨?_, ?_, ?_, ?_, ?_, ?_, ?_, ?_, ?_, ?_, ?_⟩ <;> rintro rfl
  · exact rmwCommand_result (exec_clearAlarmFlag (a := 1) hargs (by decide)) (by decide)
  · exact rmwCommand_result (exec_clearAlarmFlag (a := 2) hargs (by decide)) (by decide)
  · exact rmwCommand_result (exec_setOscEnable (a := 1) hargs (by decide)) (by decide)
  · exact rmwCommand_result (exec_setOscEnable (a := 0) hargs (by decide)) (by decide)
  · exact rmwCommand_result (exec_setSquareWave (a := 0) hargs (by decide)) (by decide)
  · exact rmwCommand_result (exec_setSquareWave (a := 1) hargs (by decide)) (by decide)
  · exact rmwCommand_result (exec_setSquareWave (a := 2) hargs (by decide)) (by decide)
  · exact rmwCommand_result (exec_setSquareWave (a := 3) hargs (by decide)) (by decide)
  · exact rmwCommand_result (exec_setSquareWave (a := 4) hargs (by decide)) (by decide)
  · exact rmwCommand_result (exec_set32khz (a := 1) hargs (by decide)) (by decide)
  · exact rmwCommand_result (exec_set32khz (a := 0) hargs (by decide)) (by decide)

end Sys2Proof.Machine
end

section
/-!
The sequenced alarm commands (43_alarm.md R180 to R182): each is its transactions in the order of its rule, and ends with the code
of the step that failed.
-/
namespace Sys2Proof.Machine

theorem chbit_eq {c : Nat} (hc : c = 1 ∨ c = 2) : chbit c = BitVec.ofNat 8 c := by
  obtain rfl | rfl := hc <;> rfl

/-! ### SET_ALARM1 and SET_ALARM2 -/

/-- A write ends with its one event (20_memory.md R53). -/
theorem txWrite_ends {start : Nat} {bs : List Byte} (h1 : 1 ≤ bs.length) (h2 : start + bs.length ≤ 0x13) (s : State) :
    ∃ r mid, txWrite start bs s = (r, mid) ∧ PortMove s mid [.wr s.pc start bs r] :=
  ⟨_, _, rfl, txWrite_portMove start bs s h1 h2⟩

/-- The effect of an alarm write is the write of its bytes and, unless that failed, the clear of its channel's flag
(43_alarm.md R180, R181). -/
theorem setAlarmEffect_cases {start c : Nat} {bs : List Byte} (h1 : 1 ≤ bs.length) (h2 : start + bs.length ≤ 0x13)
    (s : State) :
    ∃ ev code, SequencedResult s (setAlarmEffect start c bs s) ev [] code ∧ IsSetAlarm s.pc start bs (chbit c) ev code := by
  unfold setAlarmEffect
  obtain ⟨r, s1, hwrite, hmove⟩ := txWrite_ends h1 h2 s
  rw [hwrite]
  cases r with
  | fail => exact ⟨_, _, hmove.sequenced_finish .transportFail, .inl ⟨rfl, rfl⟩⟩
  | ok =>
    obtain ⟨r, s2, e1, hpair, hmove1, hrmw⟩ := rmw_ends (addr := addrStatus) (by decide) (chbit c) 0x00 s1
    rw [hmove.pc] at hrmw
    dsimp only
    rw [hpair]
    refine ⟨_, _, (hmove.trans hmove1).sequenced_finishWr .flagClearFail r, .inr ⟨e1, rfl, ?_⟩⟩
    cases r with
    | fail => exact .inl ⟨hrmw, rfl⟩
    | ok => exact .inr ⟨hrmw, rfl⟩

/-- Settles O51: with its operands in domain each command is the alarm write of its bytes. -/
theorem setAlarmSequence : Obligations.SetAlarmSequence := by
  intro s m a1 a2 a3 a4
  refine ⟨fun hargs hmode hsec hfields => ?_, fun hargs hmode hfields => ?_⟩
  · have hexec := withAlarm1_args hargs hmode hsec hfields fun bs => .next (setAlarmEffect 0x07 1 bs s)
    obtain ⟨ev, code, hresult, halarm⟩ := setAlarmEffect_cases (start := 0x07) (c := 1)
      (bs := alarm1Bytes m.toNat a1.toNat a2.toNat a3.toNat a4.toNat) (by simp) (by simp) s
    exact ⟨_, ev, code, hexec, hresult, halarm⟩
  · have hexec := withAlarm2_args hargs hmode hfields fun bs => .next (setAlarmEffect 0x0B 2 bs s)
    obtain ⟨ev, code, hresult, halarm⟩ := setAlarmEffect_cases (start := 0x0B) (c := 2)
      (bs := alarm2Bytes m.toNat a1.toNat a2.toNat a3.toNat) (by simp) (by simp) s
    exact ⟨_, ev, code, hexec, hresult, halarm⟩

/-! ### ALARM_INT_ENABLE -/

/-- The second RMW of ALARM_INT_ENABLE, of INTCN and the channel's enable bit (43_alarm.md R182). -/
theorem intEnableRmw_ends (c : Nat) (en : Bool) (s : State) :
    ∃ r mid ev,
      (if en then rmw addrControl 0x00 (bitINTCN ||| chbit c) s else rmw addrControl (chbit c) bitINTCN s) = (r, mid) ∧
      PortMove s mid ev ∧
      if en then IsRmw s.pc 0x0E 0x00 (bitINTCN ||| chbit c) ev r else IsRmw s.pc 0x0E (chbit c) bitINTCN ev r := by
  cases en with
  | true => exact rmw_ends (by decide) 0x00 (bitINTCN ||| chbit c) s
  | false => exact rmw_ends (by decide) (chbit c) bitINTCN s

theorem exec_alarmIntEnable {s : State} {c en : Word} (hargs : ArgsAre s [c, en]) (hchannel : c.toNat = 1 ∨ c.toNat = 2)
    (hbool : en.toNat ≤ 1) : exec .alarmIntEnable s = .next (alarmIntEnableEffect c.toNat (en == 1) s) := by
  obtain ⟨h0, h1⟩ := argsAre_two.mp hargs
  have hdomain : (isChannel c && isBoolean en) = true :=
    Bool.and_eq_true_iff.mpr ⟨(isChannel_iff c).mpr hchannel, (isBoolean_iff en).mpr hbool⟩
  simp only [exec, execAlarmIntEnable, withArg_some h0, withArg_some h1, requireDomain_true hdomain]

/-- Settles O52: the flag clear fails, or it ends and the second RMW decides the code. -/
theorem alarmIntEnableSequence : Obligations.AlarmIntEnableSequence := by
  intro s c en hargs hchannel hbool bit
  have hbit : chbit c.toNat = bit := chbit_eq hchannel
  have hset : bitINTCN ||| chbit c.toNat = 0x04 + bit := by
    rw [← hbit]
    obtain hc | hc := hchannel <;> rw [hc] <;> rfl
  have hen : (en == 1) = true ↔ en.toNat = 1 := by simp [BitVec.toNat_eq]
  rw [exec_alarmIntEnable hargs hchannel hbool, alarmIntEnableEffect]
  obtain ⟨r, s1, e1, hclear, hmove1, hrmw1⟩ := rmw_ends (addr := addrStatus) (by decide) (chbit c.toNat) 0x00 s
  rw [hclear]
  rw [hbit] at hrmw1
  cases r with
  | fail => exact ⟨_, e1, _, rfl, hmove1.sequenced_finish .transportFail, .inl ⟨hrmw1, rfl⟩⟩
  | ok =>
    obtain ⟨r, s2, e2, henable, hmove2, hrmw2⟩ := intEnableRmw_ends c.toNat (en == 1) s1
    dsimp only
    rw [henable]
    rw [hmove1.pc, hset, hbit] at hrmw2
    simp only [hen] at hrmw2
    exact ⟨_, _, _, rfl, (hmove1.trans hmove2).sequenced_finishWr .transportFail r, .inr ⟨e1, e2, r, rfl, hrmw1, hrmw2, rfl⟩⟩

end Sys2Proof.Machine
end

section
/-!
START_CONV and SET_AGING (44_control.md R205, R206, 45_temp_aging.md R226): the busy-checked trigger, alone with its result or
after the write of the offset.
-/
namespace Sys2Proof.Machine

/-- `StartConv()` ends with the events of its rule (44_control.md R205). -/
theorem convTrigger_ends (s : State) :
    ∃ r mid ev, convTrigger s = (r, mid) ∧ PortMove s mid ev ∧ IsStartConv s.pc ev r.toEnd := by
  obtain ⟨ev, hmove, hconv⟩ := convTrigger_cases s
  exact ⟨_, _, ev, rfl, hmove, hconv⟩

/-! ### START_CONV -/

/-- Settles O55: each end of the trigger gives its result and its code. -/
theorem startConvSequence : Obligations.StartConvSequence := by
  intro s
  obtain ⟨r, mid, ev, htrigger, hmove, hconv⟩ := convTrigger_ends s
  simp only [exec, execStartConv, htrigger]
  cases r with
  | started =>
    exact ⟨_, ev, .started, rfl, hconv, fun _ => hmove.sequenced_setRes [1] .ok, nofun, nofun⟩
  | busy =>
    exact ⟨_, ev, .busy, rfl, hconv, nofun, fun _ => hmove.sequenced_setRes [0] .busy, nofun⟩
  | fail =>
    exact ⟨_, ev, .failed, rfl, hconv, nofun, nofun, fun _ => hmove.sequenced_clearRes 1 .transportFail⟩

/-! ### SET_AGING -/

/-- An aging operand's byte is the low byte of its word (45_temp_aging.md R220). -/
theorem agingEnc_toInt {a : Word} (hmin : -128 ≤ a.toInt) (hmax : a.toInt ≤ 127) : agingEnc a.toInt = a.setWidth 8 :=
  calc agingEnc a.toInt = BitVec.ofInt 8 a.toInt := agingEnc_eq hmin hmax
    _ = a.signExtend 8 := rfl
    _ = a.setWidth 8 := BitVec.signExtend_eq_setWidth_of_le a (by decide)

theorem exec_setAging {s : State} {a : Word} (hargs : ArgsAre s [a]) (hmin : -128 ≤ a.toInt) (hmax : a.toInt ≤ 127) :
    exec .setAging s = .next (setAgingEffect a.toInt s) :=
  withArg_requireDomain hargs (c := fun a => -128 ≤ s32 a && s32 a ≤ 127)
    (Bool.and_eq_true_iff.mpr ⟨decide_eq_true hmin, decide_eq_true hmax⟩) _

/-- Settles O56: the write of the offset fails, or it ends and the end of the trigger decides the code. -/
theorem setAgingSequence : Obligations.SetAgingSequence := by
  intro s a hargs hmin hmax
  obtain ⟨r, s1, hwrite, hmove⟩ := txWrite_ends (start := 0x10) (bs := [a.setWidth 8]) (by simp) (by simp) s
  rw [exec_setAging hargs hmin hmax, setAgingEffect, agingEnc_toInt hmin hmax, hwrite]
  cases r with
  | fail => exact ⟨_, _, _, rfl, hmove.sequenced_finish .transportFail, .inl ⟨rfl, rfl⟩⟩
  | ok =>
    obtain ⟨r, s2, e1, htrigger, hmove1, hconv⟩ := convTrigger_ends s1
    rw [hmove.pc] at hconv
    dsimp only
    rw [htrigger]
    have hboth := hmove.trans hmove1
    cases r with
    | started => exact ⟨_, _, _, rfl, hboth.sequenced_finish .ok, .inr ⟨e1, _, rfl, hconv, .inl ⟨rfl, rfl⟩⟩⟩
    | busy => exact ⟨_, _, _, rfl, hboth.sequenced_finish .busy, .inr ⟨e1, _, rfl, hconv, .inr (.inl ⟨rfl, rfl⟩)⟩⟩
    | fail => exact ⟨_, _, _, rfl, hboth.sequenced_finish .convFail, .inr ⟨e1, _, rfl, hconv, .inr (.inr ⟨rfl, rfl⟩)⟩⟩

end Sys2Proof.Machine
end

section
/-!
The aging codec and the temperature pair (45_temp_aging.md R220 to R225, R228): between -128..127 and the bytes the codec is the
two's-complement reading, and a temperature is that reading of its first byte with the two top bits of its second.
-/
namespace Sys2Proof.Machine

/-! ### The aging codec -/

/-- Settles O58: the codec is the two's-complement reading of a byte, and -128..127 is the range of that reading. -/
theorem agingInverseLaws : Obligations.AgingInverseLaws := by
  refine ⟨fun b => ?_, fun v hmin hmax => ?_, fun b => ?_⟩
  · rw [agingDec_eq, BitVec.toInt_eq_msb_cond, BitVec.msb_eq_getLsbD_last]
    rfl
  · rw [agingEnc_eq hmin hmax, agingDec_eq]
    exact BitVec.toInt_ofInt_eq_self (by decide) hmin (Int.lt_add_one_of_le hmax)
  · have hmin : -128 ≤ b.toInt := BitVec.le_toInt b
    have hmax : b.toInt < 128 := BitVec.toInt_lt
    rw [agingDec_eq, agingEnc_eq hmin (Int.le_of_lt_add_one hmax), BitVec.ofInt_toInt]

/-! ### The result words -/

/-- The low byte of a word is its signed value modulo 256 (45_temp_aging.md R220, R223). -/
theorem lowByte_toNat_eq_toInt_emod (a : Word) : ((zext32 (a.setWidth 8)).toNat : Int) = a.toInt % 256 := by
  rw [zext32_toNat, BitVec.toNat_setWidth, BitVec.toInt_eq_toNat_cond]
  split <;> omega

/-- The result word of a byte operand decoded is that operand with bit 7 as its sign (45_temp_aging.md R224, R225). -/
theorem signExtend_toByte_toInt {a : Word} (ha : a.toNat ≤ 0xFF) :
    ((toByte a).signExtend 32).toInt = if a.toNat < 128 then (a.toNat : Int) else (a.toNat : Int) - 256 := by
  rw [BitVec.toInt_signExtend_of_le (by decide), BitVec.toInt_eq_toNat_cond, toByte_toNat ha]
  exact if_congr (by omega) rfl rfl

/-- Integer degrees by the sign of the first byte, quarter degrees by the top two bits of the second (45_temp_aging.md R222). -/
theorem tempWords_eq (msb lsb : Byte) :
    tempWords msb lsb = [msb.signExtend 32, BitVec.ofNat 32 (lsb.toNat / 64 * 25)] := by
  have hquarters : (lsb >>> 6).toNat = lsb.toNat / 64 := by
    rw [BitVec.toNat_ushiftRight, Nat.shiftRight_eq_div_pow]
  rw [← u32_agingDec, ← hquarters]
  rfl

/-! ### The commands -/

/-- Settles O59: the one read of two bytes fails, or its bytes decode to the two result words. -/
theorem getTempResult : Obligations.GetTempResult := by
  intro s
  refine ⟨_, rfl, ?_⟩
  rcases txRead_cases 0x11 2 s (by omega) (by omega) with ⟨s1, hread, hmove⟩ | ⟨bytes, s1, hlength, hread, hmove⟩
  · rw [hread]
    exact .inl (hmove.sequenced_clearRes 2 .transportFail)
  · obtain ⟨msb, lsb, rfl⟩ := List.length_eq_two.mp hlength
    refine .inr ⟨msb, lsb, ?_⟩
    rw [hread]
    change SequencedResult s ((s1.setRes (tempWords msb lsb)).finish .ok) _ _ _
    rw [tempWords_eq]
    exact hmove.sequenced_setRes [_, _] .ok

section
variable {s : State} {a b : Word}

theorem exec_agingEnc (hargs : ArgsAre s [a]) (hmin : -128 ≤ a.toInt) (hmax : a.toInt ≤ 127) :
    exec .agingEnc s = .next ((s.setRes [zext32 (a.setWidth 8)]).finish .ok) := by
  rw [← agingEnc_toInt hmin hmax]
  exact withArg_requireDomain hargs (c := fun a => -128 ≤ s32 a && s32 a ≤ 127)
    (Bool.and_eq_true_iff.mpr ⟨decide_eq_true hmin, decide_eq_true hmax⟩) _

theorem exec_agingDec (hargs : ArgsAre s [a]) (ha : a.toNat ≤ 0xFF) :
    exec .agingDec s = .next ((s.setRes [(toByte a).signExtend 32]).finish .ok) := by
  rw [← u32_agingDec]
  exact withArg_requireDomain hargs ((isByte_iff a).mpr ha) _

theorem exec_tempDecode (hargs : ArgsAre s [a, b]) (ha : a.toNat ≤ 0xFF) (hb : b.toNat ≤ 0xFF) :
    exec .tempDecode s = .next ((s.setRes [(toByte a).signExtend 32, BitVec.ofNat 32 (b.toNat / 64 * 25)]).finish .ok) := by
  obtain ⟨h0, h1⟩ := argsAre_two.mp hargs
  have hdomain : (isByte a && isByte b) = true := Bool.and_eq_true_iff.mpr ⟨(isByte_iff a).mpr ha, (isByte_iff b).mpr hb⟩
  rw [← toByte_toNat hb, ← tempWords_eq]
  simp only [exec, execTempDecode, withArg_some h0, withArg_some h1, requireDomain_true hdomain]

end

/-- Settles O57: each command finishes with its codec's words, and the words read back as the arithmetic of R220 to R222. -/
theorem agingAndTemperatureCodecResults : Obligations.AgingAndTemperatureCodecResults := by
  intro s a b harg
  refine ⟨fun hmin hmax => ?_, fun ha => ?_, fun hargs ha hb => ?_⟩
  · exact ⟨_, _, exec_agingEnc harg hmin hmax, pureResult_finish s _ .ok, lowByte_toNat_eq_toInt_emod a⟩
  · exact ⟨_, _, exec_agingDec harg ha, pureResult_finish s _ .ok, signExtend_toByte_toInt ha⟩
  · exact ⟨_, _, _, exec_tempDecode hargs ha hb, pureResult_finish s [_, _] .ok, signExtend_toByte_toInt ha,
      toNat_ofNat_word (by omega)⟩

end Sys2Proof.Machine
end

section
/-!
The fault causes of the check phase and the halt (60_exceptions.md R261, R262, R266): every command whose operands are written
is one domain test of the table and, behind it, an effect that completes.
-/
namespace Sys2Proof.Machine

/-- Settles O8: the fetch stops at the record. -/
theorem faultedStateRunsNoCommand : Obligations.FaultedStateRunsNoCommand := fun _ _ => step_faulted

/-! ### The operands of a command that reads nothing unwritten -/

/-- The word `ARG[k]` holds, for k in 0..7; `argValue` is its unsigned value. -/
def argWord (s : State) (k : Nat) : Word := (s.argAt (Fin.ofNat 8 k)).getD 0

theorem argValue_eq (s : State) (k : Nat) : argValue s k = (argWord s k).toNat := rfl

theorem argsAre_argWord {s : State} {n : Nat} (h : ¬ ∃ k : Fin 8, k.val < n ∧ s.argAt k = none) :
    ArgsAre s ((List.range n).map (argWord s)) := by
  intro k hk
  have hlt : k.val < n := by simpa using hk
  obtain ⟨v, hv⟩ := Option.ne_none_iff_exists'.mp fun hnone => h ⟨k, hlt, hnone⟩
  simp [argWord, hv]

/-! ### A command's end -/

/-- A command that went past its check phase has moved pc and recorded no fault. -/
def Advanced (s t : State) : Prop := t.pc = s.pc + 1 ∧ t.fault = s.fault

theorem Completed.advanced {i : Instr} {s t : State} (h : Completed i s t) : Advanced s t := by
  have hpc := h.pc
  obtain ⟨_, _, _, _, hmove, rfl, -⟩ := h
  exact ⟨hpc, hmove.fault⟩

theorem Advanced.pure (s : State) (vals : List Word) (code : StatusCode) : Advanced s ((s.setRes vals).finish code) :=
  ⟨rfl, rfl⟩

/-- A command of one read ends after a failed read as after a successful one. -/
theorem Advanced.read (s : State) (start n k : Nat) (vals : List Byte → List Word) (code : List Byte → StatusCode) :
    Advanced s (match txRead start n s with
      | (.fail, s1) => (s1.clearRes k).finish .transportFail
      | (.ok bytes, s1) => (s1.setRes (vals bytes)).finish (code bytes)) := by
  have hpc : (txRead start n s).2.pc = s.pc := rfl
  have hfault : (txRead start n s).2.fault = s.fault := rfl
  generalize txRead start n s = p at hpc hfault ⊢
  obtain ⟨_ | _, s1⟩ := p
  all_goals exact ⟨congrArg (· + 1) hpc, hfault⟩

/-- A command of one RMW ends after a failed transaction as after a successful one. -/
theorem Advanced.rmw (s : State) {addr : Nat} (haddr : addr < 0x13) (clr set : Byte) :
    Advanced s (finishWr .transportFail (rmw addr clr set s)) := by
  obtain ⟨r, _, _, hpair, hmove, _⟩ := rmw_ends haddr clr set s
  rw [hpair]
  cases r
  all_goals exact ⟨congrArg (· + 1) hmove.pc, hmove.fault⟩

/-! ### The domain tests as the table words them (60_exceptions.md R261) -/

theorem allByte_iff (s : State) (n : Nat) :
    ((List.range (n + 1)).map (argWord s)).all isByte = true ↔ ∀ k, k ≤ n → argValue s k ≤ 0xFF := by
  simp [isByte, argValue_eq]

theorem epochInRange_iff (t : Word) :
    (Config.epochMin ≤ t.toNat && t.toNat ≤ Config.epochMax) = true ↔ 946684800 ≤ t.toNat ∧ t.toNat ≤ 4102444799 := by
  rw [Bool.and_eq_true, decide_eq_true_iff, decide_eq_true_iff]
  rfl

theorem alarm1Domain_iff (base : DowBase) (m : Word) (sec mi h dd : Nat) :
    (isAlarm1Mode m && (sec ≤ 59 && alarmFieldsInRange base m mi h dd)) = true ↔
      m.toNat ∈ [0x0F, 0x0E, 0x0C, 0x08, 0x00, 0x10] ∧ sec ≤ 59 ∧ AlarmFieldsInRange base (m.toNat = 0x10) mi h dd := by
  rw [Bool.and_eq_true, Bool.and_eq_true, isAlarm1Mode_iff, decide_eq_true_iff]
  exact and_congr_right fun hmode => and_congr_right fun _ => alarmFieldsInRange_iff base (alarmMode_dayBit hmode) mi h dd

theorem alarm2Domain_iff (base : DowBase) (m : Word) (mi h dd : Nat) :
    (isAlarm2Mode m && alarmFieldsInRange base m mi h dd) = true ↔
      m.toNat ∈ [0x0E, 0x0C, 0x08, 0x00, 0x10] ∧ AlarmFieldsInRange base (m.toNat = 0x10) mi h dd := by
  rw [Bool.and_eq_true, isAlarm2Mode_iff]
  exact and_congr_right fun hmode =>
    alarmFieldsInRange_iff base (alarmMode_dayBit (List.mem_cons_of_mem _ hmode)) mi h dd

/-! ### Every command -/

/-- The outcome is one domain test that passes exactly where `P` holds, and behind it the end of the command. -/
def TestsDomain (s : State) (P : Prop) (o : Out) : Prop :=
  ∃ c t, o = requireDomain c s (.next t) ∧ (c = true ↔ P) ∧ Advanced s t

/-- A command whose operands have no domain. -/
theorem TestsDomain.untested {s t : State} {o : Out} (h : o = .next t) (ht : Advanced s t) : TestsDomain s True o :=
  ⟨true, t, h, iff_true_intro rfl, ht⟩

/-- One ARG word, its test and the effect behind it. -/
theorem TestsDomain.withArg {s : State} {a : Word} {c : Word → Bool} {f : Word → State} {P : Prop} (hargs : ArgsAre s [a])
    (hc : c a = true ↔ P) (hf : Advanced s (f a)) :
    TestsDomain s P (withArg s 0 fun a => requireDomain (c a) s (.next (f a))) :=
  ⟨_, _, withArg_some (argsAre_one.mp hargs) _, hc, hf⟩

theorem TestsDomain.withValidDateTime {s : State} {a0 a1 a2 a3 a4 a5 a6 : Word} {f : DateTime → State}
    (hargs : ArgsAre s [a0, a1, a2, a3, a4, a5, a6]) (hf : ∀ dt, Advanced s (f dt)) :
    TestsDomain s (FieldsInRange s.dowBase (dateTimeOf a0 a1 a2 a3 a4 a5 a6)) (withValidDateTime s fun dt => .next (f dt)) :=
  ⟨_, _, withDateTime_args hargs _, rangeValid_iff_fields _ _, hf _⟩

theorem TestsDomain.withYearMonth {s : State} {y m : Word} {f : Nat → Nat → State} (hargs : ArgsAre s [y, m])
    (hf : ∀ y m, Advanced s (f y m)) :
    TestsDomain s (2000 ≤ y.toNat ∧ y.toNat ≤ 2099 ∧ 1 ≤ m.toNat ∧ m.toNat ≤ 12)
      (withYearMonth s fun y m => .next (f y m)) := by
  obtain ⟨hy, hm⟩ := argsAre_two.mp hargs
  refine ⟨_, _, (withArg_some hy _).trans (withArg_some hm _), ?_, hf _ _⟩
  rw [Bool.and_eq_true, yearInRange_iff, monthInRange_iff, and_assoc]

theorem TestsDomain.withAlarm1 {s : State} {m sec mi h dd : Word} {f : List Byte → State}
    (hargs : ArgsAre s [m, sec, mi, h, dd]) (hf : ∀ bs, bs.length = 4 → Advanced s (f bs)) :
    TestsDomain s (m.toNat ∈ [0x0F, 0x0E, 0x0C, 0x08, 0x00, 0x10] ∧ sec.toNat ≤ 59 ∧
        AlarmFieldsInRange s.dowBase (m.toNat = 0x10) mi.toNat h.toNat dd.toNat)
      (withAlarm1 s fun bs => .next (f bs)) := by
  have hh : s.argAt 3 = some h := hargs 3 (by simp)
  have hdd : s.argAt 4 = some dd := hargs 4 (by simp)
  exact ⟨_, _, (withArgs3_args (argsAre_prefix (ws := [h, dd]) hargs) _).trans
    ((withArg_some hh _).trans (withArg_some hdd _)), alarm1Domain_iff _ _ _ _ _ _, hf _ rfl⟩

theorem TestsDomain.withAlarm2 {s : State} {m mi h dd : Word} {f : List Byte → State}
    (hargs : ArgsAre s [m, mi, h, dd]) (hf : ∀ bs, bs.length = 3 → Advanced s (f bs)) :
    TestsDomain s (m.toNat ∈ [0x0E, 0x0C, 0x08, 0x00, 0x10] ∧
        AlarmFieldsInRange s.dowBase (m.toNat = 0x10) mi.toNat h.toNat dd.toNat)
      (withAlarm2 s fun bs => .next (f bs)) :=
  have hdd : s.argAt 3 = some dd := hargs 3 (by simp)
  ⟨_, _, (withArgs3_args (argsAre_prefix (ws := [dd]) hargs) _).trans (withArg_some hdd _), alarm2Domain_iff _ _ _ _ _,
    hf _ rfl⟩

/-- Every command whose operands are written is its row of the table and the effect behind it. What the case of a command adds
is the test as the rule words it and that the effect ends. -/
theorem exec_testsDomain {i : Instr} {s : State} (h : ¬ ReadsUnwritten i s) :
    TestsDomain s (InDomain s.dowBase i (argValue s)) (exec i s) := by
  cases i <;> unfold exec
  case nop | ldi => exact .untested rfl ⟨rfl, rfl⟩
  case ldhi =>
    obtain ⟨_, hsome⟩ := Option.ne_none_iff_exists'.mp h
    exact .untested (withArg_some hsome _) ⟨rfl, rfl⟩
  case mov =>
    obtain ⟨_, hsome⟩ := Option.ne_none_iff_exists'.mp h
    exact .untested (withRes_some hsome _) ⟨rfl, rfl⟩
  all_goals have hargs := argsAre_argWord h
  case getDatetime | getTime | getOsf | getAging | getTemp => exact .untested rfl (.read s _ _ _ _ _)
  case startConv =>
    obtain ⟨_, hexec, hcompleted⟩ := completed_startConv s
    exact .untested hexec hcompleted.advanced
  case bcdEnc => exact .withArg hargs decide_eq_true_iff (.pure s _ _)
  case bcdDec | agingDec => exact .withArg hargs (isByte_iff _) (.pure s _ _)
  case isLeap | daysBeforeYear => exact .withArg hargs (yearInRange_iff _) (.pure s _ _)
  case agingEnc => exact .withArg hargs (aging_range_iff _) (.pure s _ _)
  case setAging => exact .withArg hargs (aging_range_iff _) (completed_setAging _ s).advanced
  case fromEpoch => exact .withArg hargs (epochInRange_iff _) (.pure s _ _)
  case getAlarmFlag => exact .withArg hargs (isChannel_iff _) (.read s _ _ _ _ _)
  case clearAlarmFlag => exact .withArg hargs (isChannel_iff _) (.rmw s (by decide) _ _)
  case setOscEnable | set32khz => exact .withArg hargs (isBoolean_iff _) (by split <;> exact .rmw s (by decide) _ _)
  case setSquareWave => exact .withArg hargs decide_eq_true_iff (by split <;> exact .rmw s (by decide) _ _)
  case timeDecode => exact ⟨_, _, withArgs3_args hargs _, allByte_iff s 2, .pure s _ _⟩
  case dtDecode => exact ⟨_, _, withArgs7_args hargs _, allByte_iff s 6, .pure s _ _⟩
  case setTime => exact ⟨_, _, withArgs3_args hargs _, timeInRange_iff _ _ _, (completed_setTime _ _ _ s).advanced⟩
  case dtValidate => exact .untested (withDateTime_args hargs _) (by split <;> exact .pure s _ _)
  case dtEncode | toEpoch => exact .withValidDateTime hargs fun _ => .pure s _ _
  case setDatetime => exact .withValidDateTime hargs fun dt => (completed_setDatetime dt s).advanced
  case daysInMonth | daysBeforeMonth => exact .withYearMonth hargs fun _ _ => .pure s _ _
  case alarm1Encode => exact .withAlarm1 hargs fun _ _ => .pure s _ _
  case alarm2Encode => exact .withAlarm2 hargs fun _ _ => .pure s _ _
  case setAlarm1 =>
    exact .withAlarm1 hargs fun bs hlength =>
      (completed_setAlarm (i := .setAlarm1) s 0x07 1 bs (by omega) (by omega) (by rw [hlength]; rfl) rfl rfl).advanced
  case setAlarm2 =>
    exact .withAlarm2 hargs fun bs hlength =>
      (completed_setAlarm (i := .setAlarm2) s 0x0B 2 bs (by omega) (by omega) (by rw [hlength]; rfl) rfl rfl).advanced
  case alarmIntEnable =>
    obtain ⟨hc, hen⟩ := argsAre_two.mp hargs
    exact ⟨_, _, (withArg_some hc _).trans (withArg_some hen _),
      Bool.and_eq_true_iff.trans (and_congr (isChannel_iff _) (isBoolean_iff _)), (completed_alarmIntEnable _ _ s).advanced⟩
  case tempDecode =>
    obtain ⟨hmsb, hlsb⟩ := argsAre_two.mp hargs
    exact ⟨_, _, (withArg_some hmsb _).trans (withArg_some hlsb _),
      Bool.and_eq_true_iff.trans (and_congr (isByte_iff _) (isByte_iff _)), .pure s _ _⟩

/-- Settles O12: the command's one test decides between its end and DOMAIN. -/
theorem domainFaultExactlyByTable : Obligations.DomainFaultExactlyByTable := by
  intro i s hwritten
  obtain ⟨c, t, hexec, hiff, hpc, hfault⟩ := exec_testsDomain hwritten
  rw [hexec]
  refine ⟨fun hin => ⟨t, requireDomain_true (hiff.mpr hin) s _, hpc, hfault⟩, fun hout w hword => ?_⟩
  rw [requireDomain_false (Bool.eq_false_iff.mpr (mt hiff.mp hout)), raise_eq hword]

end Sys2Proof.Machine
end

section
/-!
Reset and the end of the stream (70_reset_and_hazards.md R290, R291, R293): the value of every piece of the block's state after
the reset event, that a state right after reset meets the invariant, and where the fetch finds that the run has ended.
-/
namespace Sys2Proof.Machine

/-! ### The end of the stream -/

/-- The fetch finds the end of the run exactly where the run has ended normally. -/
theorem fetch_eq_runEnded_iff (s : State) : fetch s = .stop .runEnded ↔ EndedNormally s := by
  unfold fetch EndedNormally
  split
  · simp [*]
  · split
    · rename_i hword
      obtain ⟨hpc, _⟩ := List.getElem?_eq_some_iff.mp hword
      simp [hpc.ne]
    · split <;> simp [*]

theorem step_stop {s : State} {f : Fault} (h : fetch s = .stop f) : step s = .fault f := by
  simp [step, h]

/-- Settles O9: the fetch finds no word at the end of the stream, and the step answers what the fetch found. -/
theorem runEndsAtEndOfStream : Obligations.RunEndsAtEndOfStream := fun s hend =>
  step_stop ((fetch_eq_runEnded_iff s).mpr hend)

/-! ### The reset event -/

theorem reset_argAt (k : Fin 8) : State.reset.argAt k = none := by simp [State.argAt, State.reset]

theorem reset_resAt (k : Fin 8) : State.reset.resAt k = none := by simp [State.resAt, State.reset]

theorem hostReset_argAt (s : State) (k : Fin 8) : (hostReset s).argAt k = none := reset_argAt k

theorem hostReset_resAt (s : State) (k : Fin 8) : (hostReset s).resAt k = none := reset_resAt k

/-- The reset event meets the invariant whatever the state before, as long as the peripheral's cells, which it leaves alone,
are in canonical form: pc is 0, and there is no fault record and no event to say anything about. -/
theorem Inv.hostReset {s : State} (hperiph : s.periph.wf) : Inv (hostReset s) where
  periphWf := hperiph
  statusLegal := show StatusLegal 0xFF by decide
  pcInStream := Nat.zero_le _
  faultAtPc := by rintro _ ⟨⟩
  histInBounds := List.forall_mem_nil _
  histEarlier := List.forall_mem_nil _
  histOrdered := .nil

/-- Settles O21: the state right after reset is what the reset event makes of itself, and it lists no cell of the peripheral. -/
theorem resetMeetsInvariant : Obligations.ResetMeetsInvariant :=
  Inv.hostReset (s := State.reset) (by decide)

/-- A step that answers a next state began with no fault recorded (60_exceptions.md R262, R266). -/
theorem step_next_fault {s t : State} (h : step s = .next t) : s.fault = none := by
  obtain ⟨w, hfetch, _⟩ := step_cases h
  exact ((fetch_eq_word_iff s w).mp hfetch).1

/-- Settles O22: the reset event writes the table of R290 over any state and keeps the peripheral and the draws, and no step
leaves a recorded fault. -/
theorem resetEventValues : Obligations.ResetEventValues := fun s =>
  ⟨fun k => ⟨hostReset_argAt s k, hostReset_resAt s k⟩, rfl, rfl, rfl, rfl, rfl, rfl, rfl,
    fun hfault _ hstep => hfault (step_next_fault hstep),
    fun k => ⟨reset_argAt k, reset_resAt k⟩, rfl, rfl, rfl, rfl⟩

end Sys2Proof.Machine
end
